-- ==== Sys2Proof/Config.lean ====
section
/-! DEFINITION. What one instance of the block fixes (the constant table `DP` and `ENTROPY_TRIES`), and the model's one free
value. Named instances and the widths derived from `DP` are in Machine/Params.lean. -/

namespace Sys2Proof

/-- The domain parameters `DP = (p, a, b, G, n, h)`, a constant table (R5, R32). No rule reads the cofactor `h`. -/
structure DP where
  p  : Nat
  a  : Nat
  b  : Nat
  gx : Nat
  gy : Nat
  n  : Nat
  h  : Nat
  deriving DecidableEq, Repr

/-- The two open parameters of one instance: `DP` (R5) and `ENTROPY_TRIES`, an integer at least 1 (R8). -/
structure Config where
  dp           : DP
  entropyTries : Nat
  deriving DecidableEq, Repr

/-- FREE VALUE (log 4). What the hidden scratch `TMP` holds while `BUSY = 1`: R31 says it is "not specified". Applied to the
counter `State.freeCtr`, which every use advances. It has no body, so no proof can know a value of it. -/
opaque Config.freeTmp : Nat → Nat

end Sys2Proof
end

