-- ==== Sys2Proof/Machine/Params.lean ====
section
/-! DEFINITION. The two named instances of `DP` (R9) and the widths derived from `DP` (R6, R7). -/

namespace Sys2Proof

/-- `bitlen(v)`: the least `t` with `v < 2^t` (R6). -/
def bitlen (v : Nat) : Nat := if v = 0 then 0 else v.log2 + 1

/-- Byte length of a field element or coordinate, `LP = ceil(bitlen(p)/8)` (R6). -/
def DP.lp (d : DP) : Nat := (bitlen d.p + 7) / 8

/-- Byte length of a scalar, `LN = ceil(bitlen(n)/8)` (R6). -/
def DP.ln (d : DP) : Nat := (bitlen d.n + 7) / 8

/-- Iteration count of scalar multiplication, `NB = bitlen(n)` (R6). -/
def DP.nb (d : DP) : Nat := bitlen d.n

/-- Register width in bytes, `RB = max(LP, LN)` (R6). -/
def DP.regBytes (d : DP) : Nat := max d.lp d.ln

/-- Register width in bits, `RW = 8·RB` (R6). -/
def DP.regBits (d : DP) : Nat := 8 * d.regBytes

/-- Size of the exchange buffer, `XBSZ = 16·RB` bytes (R7). -/
def DP.xbSize (d : DP) : Nat := 16 * d.regBytes

/-- The default instance `P256` (R9). The numerals are general knowledge by the spec's own mark (log 2). -/
def DP.p256 : DP where
  p  := 0xFFFFFFFF00000001000000000000000000000000FFFFFFFFFFFFFFFFFFFFFFFF
  a  := 0xFFFFFFFF00000001000000000000000000000000FFFFFFFFFFFFFFFFFFFFFFFC
  b  := 0x5AC635D8AA3A93E7B3EBBD55769886BC651D06B0CC53B0F63BCE3C3E27D2604B
  gx := 0x6B17D1F2E12C4247F8BCE6E563A440F277037D812DEB33A0F4A13945D898C296
  gy := 0x4FE342E2FE1A7F9B8EE7EB4A7C0F9E162BCE33576B315ECECBB6406837BF51F5
  n  := 0xFFFFFFFF00000000FFFFFFFFFFFFFFFFBCE6FAADA7179E84F3B9CAC2FC632551
  h  := 1

/-- The spec's own test instance `TOY17` (R9). -/
def DP.toy17 : DP where
  p  := 17
  a  := 2
  b  := 2
  gx := 5
  gy := 1
  n  := 19
  h  := 1

/-- The instance at reset: `P256`, "the default instance" (R9), with `ENTROPY_TRIES = 3`, the number of the spec's vectors
(R8). DESIGN CHOICE (log 2): the spec leaves both open. -/
def Config.default : Config := { dp := DP.p256, entropyTries := 3 }

/-- The instance of the spec's hand-checkable vectors (95_test_vectors.md). -/
def Config.toy17 : Config := { dp := DP.toy17, entropyTries := 3 }

end Sys2Proof
end

