-- ==== Sys2Proof/Word.lean ====
section
/-! DEFINITION. Words of the block: the command word, a byte of `XB`, a buffer offset and the two kinds of register index.
Register contents are exact naturals (R10), so they have no word type here. -/

namespace Sys2Proof

/-- A command word, 32 bits, bit 31 the most significant (R46). -/
abbrev Word := BitVec 32

/-- A byte of the exchange buffer (R11). -/
abbrev Byte := BitVec 8

/-- The unsigned 16-bit byte offset `OFF` of a format-B command (R47, R52). -/
abbrev Offset := BitVec 16

/-- An index into the scalar file `f0 … f7` (R21, R50). -/
abbrev FReg := Fin 8

/-- An index into the point file `P0 … P3` (R22, R50). -/
abbrev PReg := Fin 4

end Sys2Proof
end

