-- ==== Sys2Proof/Syntax.lean ====
section
/-! DEFINITION. The commands of the block as syntax: one constructor of `Instr` per row of the opcode map (R49). -/

namespace Sys2Proof

/-- The modulus select `M`: `.p` when `M = 0`, `.n` when `M = 1` (R45). -/
inductive Modulus where
  | p
  | n
  deriving DecidableEq, Repr

/-- The 21 commands (R49). Operands stand in the order of the fields `M`, `RD`, `RA`, `RB`, `RC` or `OFF` of the word. -/
inductive Instr where
  /-- `FADD` (R60). -/
  | fadd (m : Modulus) (rd ra rb : FReg)
  /-- `FSUB` (R61). -/
  | fsub (m : Modulus) (rd ra rb : FReg)
  /-- `FNEG` (R62). -/
  | fneg (m : Modulus) (rd ra : FReg)
  /-- `FEQ` (R63). -/
  | feq (m : Modulus) (ra rb : FReg)
  /-- `FMUL` (R67). -/
  | fmul (m : Modulus) (rd ra rb : FReg)
  /-- `FINV` (R70). -/
  | finv (m : Modulus) (rd ra : FReg)
  /-- `FLD` (R72). -/
  | fld (m : Modulus) (rd : FReg) (off : Offset)
  /-- `FST` (R73). -/
  | fst (m : Modulus) (rs : FReg) (off : Offset)
  /-- `PLD` (R74). -/
  | pld (rd : PReg) (off : Offset)
  /-- `PST` (R75). -/
  | pst (rs : PReg) (off : Offset)
  /-- `PINF` (R79). -/
  | pinf (rd : PReg)
  /-- `PISINF` (R80). -/
  | pisinf (ra : PReg)
  /-- `PONC` (R81). -/
  | ponc (ra : PReg)
  /-- `PNEG` (R82). -/
  | pneg (rd ra : PReg)
  /-- `PDBL` (R85). -/
  | pdbl (rd ra : PReg)
  /-- `PADD` (R88). -/
  | padd (rd ra rb : PReg)
  /-- `SMUL` (R94): `rd` and `ra` in the point file, the scalar `rk` in the scalar file. -/
  | smul (rd ra : PReg) (rk : FReg)
  /-- `KEYGEN` (R98): the private scalar to `rd`, the public point to `rq`. -/
  | keygen (rd : FReg) (rq : PReg)
  /-- `SIGN` (R101): `r` to `rr`, `s` to `rs`; the digest from `re`, the private scalar from `rd`. -/
  | sign (rr rs re rd : FReg)
  /-- `VERIFY` (R103): the signature from `rr` and `rs`, the digest from `re`, the public point from `rq`. -/
  | verify (rr rs re : FReg) (rq : PReg)
  /-- `WIPE` (R76). -/
  | wipe (rd : FReg)
  deriving DecidableEq, Repr

end Sys2Proof
end

