-- ==== Sys2Proof/Machine/Legal.lean ====
section
/-! DEFINITION. What the bit `M` selects, and the two legality conditions of a command that are no field test: the destinations of `SIGN` differ (R48 step 5)
and a transfer lies inside `XB` (R48 step 6). The decoder and the meanings share them. -/

namespace Sys2Proof

/-- The modulus a command selects, `m(M)`: `p` when `M = 0`, `n` when `M = 1` (R45). -/
def DP.modulus (d : DP) : Modulus → Nat
  | .p => d.p
  | .n => d.n

/-- Bytes moved by `FLD` and `FST`: `LP` when `M = 0`, `LN` when `M = 1` (R71). -/
def DP.fieldLen (d : DP) : Modulus → Nat
  | .p => d.lp
  | .n => d.ln

/-- Bytes moved by `PLD` and `PST`: `2·LP` (R71). -/
def DP.pointLen (d : DP) : Nat := 2 * d.lp

/-- `OFF + len ≤ XBSZ` (R48 step 6, R39). -/
def DP.fits (d : DP) (off : Offset) (len : Nat) : Bool := decide (off.toNat + len ≤ d.xbSize)

/-- R48 step 5: the two destinations of `SIGN` differ. -/
def Instr.destinationsDiffer : Instr → Bool
  | .sign rr rs _ _ => decide (rr ≠ rs)
  | .fadd _ _ _ _ | .fsub _ _ _ _ | .fneg _ _ _ | .feq _ _ _ | .fmul _ _ _ _ | .finv _ _ _
  | .fld _ _ _ | .fst _ _ _ | .pld _ _ | .pst _ _ | .pinf _ | .pisinf _ | .ponc _ | .pneg _ _ | .pdbl _ _
  | .padd _ _ _ | .smul _ _ _ | .keygen _ _ | .verify _ _ _ _ | .wipe _ => true

/-- R48 step 6: a format-B command moves bytes of `XB` only. -/
def Instr.insideBuffer (d : DP) : Instr → Bool
  | .fld m _ off => d.fits off (d.fieldLen m)
  | .fst m _ off => d.fits off (d.fieldLen m)
  | .pld _ off => d.fits off d.pointLen
  | .pst _ off => d.fits off d.pointLen
  | .fadd _ _ _ _ | .fsub _ _ _ _ | .fneg _ _ _ | .feq _ _ _ | .fmul _ _ _ _ | .finv _ _ _
  | .pinf _ | .pisinf _ | .ponc _ | .pneg _ _ | .pdbl _ _
  | .padd _ _ _ | .smul _ _ _ | .keygen _ _ | .sign _ _ _ _ | .verify _ _ _ _ | .wipe _ => true

end Sys2Proof
end

