-- ==== Sys2Proof/WellFormed.lean ====
section
/-! DEFINITION. Which terms of `Instr` are commands of an instance. Register indices are in range by their types (R50); what
is left are steps 5 and 6 of R48. -/

namespace Sys2Proof

/-- A legal command of the instance `d` (R48 steps 5 and 6). -/
def Instr.wellFormed (d : DP) (i : Instr) : Bool := i.destinationsDiffer && i.insideBuffer d

end Sys2Proof
end

