-- ==== Sys2Proof/Decode.lean ====
section
/-! DEFINITION. The command decoder of R48, total on all words and rejecting by name, and after it the encoder. The opcode map
of R49 is the table `Op.opc` and `Op.row`; the mask and pattern columns of opcode_table.json stand at the end as a second
reading of the same map. -/

namespace Sys2Proof

/-- The fields of a word in both formats (R46, R47, R52). -/
structure Fields where
  opc : BitVec 8
  m   : Bool
  rsv : BitVec 3
  rd  : BitVec 4
  ra  : BitVec 4
  rb  : BitVec 4
  rc  : BitVec 4
  z   : BitVec 4
  off : BitVec 16
  deriving DecidableEq, Repr

/-- R52: `OPC = w[31:24]`, `M = w[23]`, `RSV = w[22:20]`, `RD = w[19:16]`, `RA = w[15:12]`, `RB = w[11:8]`, `RC = w[7:4]`,
`Z = w[3:0]`, `OFF = w[15:0]`. -/
def split (w : Word) : Fields where
  opc := w.extractLsb' 24 8
  m   := w.getLsbD 23
  rsv := w.extractLsb' 20 3
  rd  := w.extractLsb' 16 4
  ra  := w.extractLsb' 12 4
  rb  := w.extractLsb' 8 4
  rc  := w.extractLsb' 4 4
  z   := w.extractLsb' 0 4
  off := w.extractLsb' 0 16

/-- The 21 assigned opcodes by name (R49). -/
inductive Op where
  | fadd | fsub | fneg | feq | fmul | finv | fld | fst | pld | pst | pinf | pisinf | ponc | pneg | pdbl | padd | smul
  | keygen | sign | verify | wipe
  deriving DecidableEq, Repr

/-- The opcodes in the order of R49. -/
def Op.all : List Op :=
  [.fadd, .fsub, .fneg, .feq, .fmul, .finv, .fld, .fst, .pld, .pst, .pinf, .pisinf, .ponc, .pneg, .pdbl, .padd, .smul,
   .keygen, .sign, .verify, .wipe]

/-- The column `OPC` of R49. -/
def Op.opc : Op → BitVec 8
  | .fadd => 0x10
  | .fsub => 0x11
  | .fneg => 0x12
  | .feq => 0x13
  | .fmul => 0x18
  | .finv => 0x1C
  | .fld => 0x20
  | .fst => 0x21
  | .pld => 0x22
  | .pst => 0x23
  | .pinf => 0x30
  | .pisinf => 0x31
  | .ponc => 0x32
  | .pneg => 0x33
  | .pdbl => 0x34
  | .padd => 0x35
  | .smul => 0x40
  | .keygen => 0x50
  | .sign => 0x51
  | .verify => 0x52
  | .wipe => 0x60

/-- R48 step 2: the command an opcode byte names, if it is one of the 21. -/
def Op.ofOpc (b : BitVec 8) : Option Op := Op.all.find? fun op => op.opc == b

/-- The two formats (R46, R47). -/
inductive Format where
  | r
  | b
  deriving DecidableEq, Repr

/-- A cell of the columns `RD`, `RA`, `RB`, `RC` of R49: an index into the scalar file, an index into the point file, a field
that must be zero, or a field that format B does not have. -/
inductive Cell where
  | f
  | pt
  | zero
  | absent
  deriving DecidableEq, Repr

/-- A row of R49. -/
structure OpRow where
  fmt  : Format
  mAny : Bool
  rd   : Cell
  ra   : Cell
  rb   : Cell
  rc   : Cell
  deriving DecidableEq, Repr

/-- The opcode map of R49, columns fmt, `M`, `RD`, `RA`, `RB`, `RC`. -/
def Op.row : Op → OpRow
  | .fadd   => ⟨.r, true,  .f,    .f,    .f,    .zero⟩
  | .fsub   => ⟨.r, true,  .f,    .f,    .f,    .zero⟩
  | .fneg   => ⟨.r, true,  .f,    .f,    .zero, .zero⟩
  | .feq    => ⟨.r, true,  .zero, .f,    .f,    .zero⟩
  | .fmul   => ⟨.r, true,  .f,    .f,    .f,    .zero⟩
  | .finv   => ⟨.r, true,  .f,    .f,    .zero, .zero⟩
  | .fld    => ⟨.b, true,  .f,    .absent, .absent, .absent⟩
  | .fst    => ⟨.b, true,  .f,    .absent, .absent, .absent⟩
  | .pld    => ⟨.b, false, .pt,   .absent, .absent, .absent⟩
  | .pst    => ⟨.b, false, .pt,   .absent, .absent, .absent⟩
  | .pinf   => ⟨.r, false, .pt,   .zero, .zero, .zero⟩
  | .pisinf => ⟨.r, false, .zero, .pt,   .zero, .zero⟩
  | .ponc   => ⟨.r, false, .zero, .pt,   .zero, .zero⟩
  | .pneg   => ⟨.r, false, .pt,   .pt,   .zero, .zero⟩
  | .pdbl   => ⟨.r, false, .pt,   .pt,   .zero, .zero⟩
  | .padd   => ⟨.r, false, .pt,   .pt,   .pt,   .zero⟩
  | .smul   => ⟨.r, false, .pt,   .pt,   .f,    .zero⟩
  | .keygen => ⟨.r, false, .f,    .pt,   .zero, .zero⟩
  | .sign   => ⟨.r, false, .f,    .f,    .f,    .f⟩
  | .verify => ⟨.r, false, .f,    .f,    .f,    .pt⟩
  | .wipe   => ⟨.r, false, .f,    .zero, .zero, .zero⟩

/-- Step 3 for one register field: a field the command does not use is zero. -/
def Cell.clear (c : Cell) (b : BitVec 4) : Bool :=
  match c with
  | .zero => b == 0
  | .f | .pt | .absent => true

/-- Step 4 for one register field: the index is in range for its file (R50). -/
def Cell.inRange (c : Cell) (b : BitVec 4) : Bool :=
  match c with
  | .f => decide (b.toNat < 8)
  | .pt => decide (b.toNat < 4)
  | .zero | .absent => true

/-- R48 step 3: `RSV = 0`; in format R, `Z = 0`; unused fields zero; `M = 0` where it must be. -/
def OpRow.fieldsClear (r : OpRow) (x : Fields) : Bool :=
  x.rsv == 0 && (r.fmt == .b || x.z == 0) && (r.mAny || !x.m)
    && r.rd.clear x.rd && r.ra.clear x.ra && r.rb.clear x.rb && r.rc.clear x.rc

/-- R48 step 4. -/
def OpRow.indicesInRange (r : OpRow) (x : Fields) : Bool :=
  r.rd.inRange x.rd && r.ra.inRange x.ra && r.rb.inRange x.rb && r.rc.inRange x.rc

/-- `m(M)` as syntax (R45). -/
def modulusOf (m : Bool) : Modulus := if m then .n else .p

/-- A scalar index from its field; exact when step 4 has passed. -/
def fIndex (b : BitVec 4) : FReg := Fin.ofNat 8 b.toNat

/-- A point index from its field; exact when step 4 has passed. -/
def pIndex (b : BitVec 4) : PReg := Fin.ofNat 4 b.toNat

/-- The command that the fields of a word denote (R49, columns `RD` to `RC`). -/
def Op.build (op : Op) (x : Fields) : Instr :=
  match op with
  | .fadd   => .fadd (modulusOf x.m) (fIndex x.rd) (fIndex x.ra) (fIndex x.rb)
  | .fsub   => .fsub (modulusOf x.m) (fIndex x.rd) (fIndex x.ra) (fIndex x.rb)
  | .fneg   => .fneg (modulusOf x.m) (fIndex x.rd) (fIndex x.ra)
  | .feq    => .feq (modulusOf x.m) (fIndex x.ra) (fIndex x.rb)
  | .fmul   => .fmul (modulusOf x.m) (fIndex x.rd) (fIndex x.ra) (fIndex x.rb)
  | .finv   => .finv (modulusOf x.m) (fIndex x.rd) (fIndex x.ra)
  | .fld    => .fld (modulusOf x.m) (fIndex x.rd) x.off
  | .fst    => .fst (modulusOf x.m) (fIndex x.rd) x.off
  | .pld    => .pld (pIndex x.rd) x.off
  | .pst    => .pst (pIndex x.rd) x.off
  | .pinf   => .pinf (pIndex x.rd)
  | .pisinf => .pisinf (pIndex x.ra)
  | .ponc   => .ponc (pIndex x.ra)
  | .pneg   => .pneg (pIndex x.rd) (pIndex x.ra)
  | .pdbl   => .pdbl (pIndex x.rd) (pIndex x.ra)
  | .padd   => .padd (pIndex x.rd) (pIndex x.ra) (pIndex x.rb)
  | .smul   => .smul (pIndex x.rd) (pIndex x.ra) (fIndex x.rb)
  | .keygen => .keygen (fIndex x.rd) (pIndex x.ra)
  | .sign   => .sign (fIndex x.rd) (fIndex x.ra) (fIndex x.rb) (fIndex x.rc)
  | .verify => .verify (fIndex x.rd) (fIndex x.ra) (fIndex x.rb) (pIndex x.rc)
  | .wipe   => .wipe (fIndex x.rd)

/-- Why a word is no legal command: the failing step of R48. -/
inductive DecodeError where
  /-- Step 2: `OPC` is not one of the 21 values. -/
  | unassignedOpcode
  /-- Step 3: a field that must be zero is not, or `M = 1` where `M = 0` is required. -/
  | fieldNotZero
  /-- Step 4: a register index is out of range for its file. -/
  | registerIndex
  /-- Step 5: `SIGN` with `RD = RA`. -/
  | sameDestination
  /-- Step 6: `OFF + len > XBSZ`. -/
  | outsideBuffer
  deriving DecidableEq, Repr

/-- Decode (R48): total on all words, the steps in the spec's order. Only step 6 reads `DP` (R51: "decoded the same way in
every state"). -/
def decode (d : DP) (w : Word) : Except DecodeError Instr :=
  let x := split w
  match Op.ofOpc x.opc with
  | none => .error .unassignedOpcode
  | some op =>
    if op.row.fieldsClear x = false then .error .fieldNotZero
    else if op.row.indicesInRange x = false then .error .registerIndex
    else if (op.build x).destinationsDiffer = false then .error .sameDestination
    else if (op.build x).insideBuffer d = false then .error .outsideBuffer
    else .ok (op.build x)

/-- The instruction the decoder reads from a word of the opcode table, on the default instance `P256` (log 8: the table has no
instance; step 6 needs one). Every row has 32 bits, so `nbits` selects nothing. -/
def decodeTableWord (_nbits w : Nat) : Option Instr :=
  match decode DP.p256 (BitVec.ofNat 32 w) with
  | .ok i => some i
  | .error _ => none

/-! ### The encoder -/

/-- A format-R word from its fields (R46). -/
def packR (opc : BitVec 8) (m : Bool) (rd ra rb rc : BitVec 4) : Word :=
  opc ++ BitVec.ofBool m ++ 0#3 ++ rd ++ ra ++ rb ++ rc ++ 0#4

/-- A format-B word from its fields (R47). -/
def packB (opc : BitVec 8) (m : Bool) (rd : BitVec 4) (off : Offset) : Word :=
  opc ++ BitVec.ofBool m ++ 0#3 ++ rd ++ off

/-- The bit `M` of a modulus (R45). -/
def Modulus.bit : Modulus → Bool
  | .p => false
  | .n => true

/-- A register index as a 4-bit field. -/
def indexField {k : Nat} (i : Fin k) : BitVec 4 := BitVec.ofNat 4 i.val

/-- The row of R49 a command belongs to. -/
def Instr.op : Instr → Op
  | .fadd _ _ _ _ => .fadd
  | .fsub _ _ _ _ => .fsub
  | .fneg _ _ _ => .fneg
  | .feq _ _ _ => .feq
  | .fmul _ _ _ _ => .fmul
  | .finv _ _ _ => .finv
  | .fld _ _ _ => .fld
  | .fst _ _ _ => .fst
  | .pld _ _ => .pld
  | .pst _ _ => .pst
  | .pinf _ => .pinf
  | .pisinf _ => .pisinf
  | .ponc _ => .ponc
  | .pneg _ _ => .pneg
  | .pdbl _ _ => .pdbl
  | .padd _ _ _ => .padd
  | .smul _ _ _ => .smul
  | .keygen _ _ => .keygen
  | .sign _ _ _ _ => .sign
  | .verify _ _ _ _ => .verify
  | .wipe _ => .wipe

/-- The word of a command (R46, R47, R49). -/
def encode : Instr → Word
  | .fadd m rd ra rb => packR Op.fadd.opc m.bit (indexField rd) (indexField ra) (indexField rb) 0
  | .fsub m rd ra rb => packR Op.fsub.opc m.bit (indexField rd) (indexField ra) (indexField rb) 0
  | .fneg m rd ra => packR Op.fneg.opc m.bit (indexField rd) (indexField ra) 0 0
  | .feq m ra rb => packR Op.feq.opc m.bit 0 (indexField ra) (indexField rb) 0
  | .fmul m rd ra rb => packR Op.fmul.opc m.bit (indexField rd) (indexField ra) (indexField rb) 0
  | .finv m rd ra => packR Op.finv.opc m.bit (indexField rd) (indexField ra) 0 0
  | .fld m rd off => packB Op.fld.opc m.bit (indexField rd) off
  | .fst m rs off => packB Op.fst.opc m.bit (indexField rs) off
  | .pld rd off => packB Op.pld.opc false (indexField rd) off
  | .pst rs off => packB Op.pst.opc false (indexField rs) off
  | .pinf rd => packR Op.pinf.opc false (indexField rd) 0 0 0
  | .pisinf ra => packR Op.pisinf.opc false 0 (indexField ra) 0 0
  | .ponc ra => packR Op.ponc.opc false 0 (indexField ra) 0 0
  | .pneg rd ra => packR Op.pneg.opc false (indexField rd) (indexField ra) 0 0
  | .pdbl rd ra => packR Op.pdbl.opc false (indexField rd) (indexField ra) 0 0
  | .padd rd ra rb => packR Op.padd.opc false (indexField rd) (indexField ra) (indexField rb) 0
  | .smul rd ra rk => packR Op.smul.opc false (indexField rd) (indexField ra) (indexField rk) 0
  | .keygen rd rq => packR Op.keygen.opc false (indexField rd) (indexField rq) 0 0
  | .sign rr rs re rd => packR Op.sign.opc false (indexField rr) (indexField rs) (indexField re) (indexField rd)
  | .verify rr rs re rq => packR Op.verify.opc false (indexField rr) (indexField rs) (indexField re) (indexField rq)
  | .wipe rd => packR Op.wipe.opc false (indexField rd) 0 0 0

/-! ### The mask columns of opcode_table.json -/

/-- The column "mask" of opcode_table.json. -/
def Op.mask : Op → Word
  | .fadd => 0xFF7888FF
  | .fsub => 0xFF7888FF
  | .fneg => 0xFF788FFF
  | .feq => 0xFF7F88FF
  | .fmul => 0xFF7888FF
  | .finv => 0xFF788FFF
  | .fld => 0xFF780000
  | .fst => 0xFF780000
  | .pld => 0xFFFC0000
  | .pst => 0xFFFC0000
  | .pinf => 0xFFFCFFFF
  | .pisinf => 0xFFFFCFFF
  | .ponc => 0xFFFFCFFF
  | .pneg => 0xFFFCCFFF
  | .pdbl => 0xFFFCCFFF
  | .padd => 0xFFFCCCFF
  | .smul => 0xFFFCC8FF
  | .keygen => 0xFFF8CFFF
  | .sign => 0xFFF8888F
  | .verify => 0xFFF888CF
  | .wipe => 0xFFF8FFFF

/-- The column "match" of opcode_table.json. -/
def Op.pattern : Op → Word
  | .fadd => 0x10000000
  | .fsub => 0x11000000
  | .fneg => 0x12000000
  | .feq => 0x13000000
  | .fmul => 0x18000000
  | .finv => 0x1C000000
  | .fld => 0x20000000
  | .fst => 0x21000000
  | .pld => 0x22000000
  | .pst => 0x23000000
  | .pinf => 0x30000000
  | .pisinf => 0x31000000
  | .ponc => 0x32000000
  | .pneg => 0x33000000
  | .pdbl => 0x34000000
  | .padd => 0x35000000
  | .smul => 0x40000000
  | .keygen => 0x50000000
  | .sign => 0x51000000
  | .verify => 0x52000000
  | .wipe => 0x60000000

end Sys2Proof
end

