-- ==== Sys2Proof/Machine/Values.lean ====
section
/-! DEFINITION. The value types of the block that are not storage: point values (R22), error kinds (R111), answers of the RNG
collaborator (R30). -/

namespace Sys2Proof.Machine

/-- A point value: `Infinity` or `Affine(x, y)`, with an explicit tag (R22). In storage it is `(inf, x, y)`; Infinity is
canonically `(1, 0, 0)`, so the tagged union is exact (R23). -/
inductive PointValue where
  | infinity
  | affine (x y : Nat)
  deriving DecidableEq, Repr

/-- The three stored fields `(inf, x, y)` of a point value (R22, R23). -/
def PointValue.fields : PointValue → Bool × Nat × Nat
  | .infinity => (true, 0, 0)
  | .affine x y => (false, x, y)

/-- R23: the coordinates of an affine value are below `p`. -/
def PointValue.inRange (p : Nat) : PointValue → Bool
  | .infinity => true
  | .affine x y => decide (x < p ∧ y < p)

/-- The error kinds of R111, in the order of their codes. They are results of commands, not stops of the machine: R114 gives
each its effect. -/
inductive ErrorKind where
  | outOfRangeInput
  | notInvertible
  | pointNotOnCurve
  | invalidSignatureRange
  | entropyExhausted
  | illegalCommand
  | noValidEncoding
  deriving DecidableEq, Repr

/-- The completion code of an error (R111). -/
def ErrorKind.code : ErrorKind → BitVec 4
  | .outOfRangeInput => 1
  | .notInvertible => 2
  | .pointNotOnCurve => 3
  | .invalidSignatureRange => 4
  | .entropyExhausted => 5
  | .illegalCommand => 6
  | .noValidEncoding => 7

/-- One answer of the RNG collaborator: `Fail` or `Value(v)` (R30). No law limits `v` here: the block re-checks it (R97). -/
inductive RngAnswer where
  | fail
  | value (v : Nat)
  deriving DecidableEq, Repr

end Sys2Proof.Machine
end

