-- ==== Sys2Proof/Machine/State.lean ====
section
/-! DEFINITION. The state of one block instance (R20), its value after reset (R33), and the reasons the model can stop. -/

namespace Sys2Proof.Machine

/-- The exchange buffer as a list of the bytes that are not zero, addresses rising (R29). An unlisted byte reads 0x00, the
reset contents of R33. -/
abbrev Memory := List Host.Cell

/-- The hidden registers (R31): `K`, `KINV`, `ACC`, `TMP`, `TRY`. -/
structure Hidden where
  k     : Nat
  kinv  : Nat
  acc   : PointValue
  tmp   : Nat
  tries : Nat
  deriving DecidableEq, Repr

/-- The hidden registers whenever `BUSY = 0`: zero, `ACC` Infinity (R31). -/
def Hidden.zero : Hidden where
  k     := 0
  kinv  := 0
  acc   := .infinity
  tmp   := 0
  tries := 0

/-- The two commands that can be seen running (R26, R105), with their operands: the block waits inside `Draw` for an answer of
the RNG collaborator (R120). -/
inductive Running where
  | keygen (rd : FReg) (rq : PReg)
  | sign (rr rs re rd : FReg)
  deriving DecidableEq, Repr

/-- What reaches the block from outside (R34, R30): a write of the command port, a write of one byte of `XB`, an answer of the
RNG collaborator that becomes available, reset. -/
inductive Event where
  | cmd (w : Word)
  | xbWrite (addr : Nat) (v : Byte)
  | rngAnswer (a : RngAnswer)
  | reset
  deriving DecidableEq, Repr

/-- The state of one block instance (R20), with the parameters of the step relation beside it (log 1, log 3, log 5). -/
structure State where
  /-- `DP` (R5, R32) and `ENTROPY_TRIES` (R8): constant; no step writes it (log 1). -/
  cfg : Config
  /-- The scalar registers `f0 … f7`, each a natural below `2^RW` (R21). -/
  f : Vector Nat 8
  /-- The point registers `P0 … P3` (R22). -/
  pt : Vector PointValue 4
  /-- The predicate flag `T` (R24). -/
  t : Bool
  /-- The completion code `ERR` (R25). -/
  err : BitVec 4
  /-- `BUSY` (R26): none is 0; some is 1 and names the command that runs (log 3). -/
  busy : Option Running
  /-- The exchange buffer `XB` (R29). -/
  xb : Memory
  /-- The hidden registers (R31). -/
  hid : Hidden
  /-- INPUT: the answers of the RNG collaborator not yet taken, next first (R30, log 3). -/
  rng : List RngAnswer
  /-- INPUT: the moves of the host and the collaborator not yet made, next first (R34, log 5). -/
  env : List Event
  /-- The MODEL's own: how many free values have been used (log 4). -/
  freeCtr : Nat
  deriving DecidableEq, Repr

/-- Faults: what stops the machine. No command of the table faults. -/
inductive Fault where
  /-- Raised by a host access (`hostWrite`, `State.hostRead`) at an address that is no byte of `XB`: R41, "there is no such
  byte". Safe: the model stops where a bus wrapper would decide. -/
  | noSuchByte (addr : Nat)
  deriving DecidableEq, Repr

/-- Refusals: what the model gives no meaning. -/
inductive Refusal where
  /-- Raised by an arm of `exec` whose instruction has no meaning yet; no arm does. Safe. -/
  | notModelled (mnemonic : String)
  /-- Raised by a host access to `CMD` or `XB` while `BUSY = 1`: R42, "outside the contract"; 93 U6, `refuse`. Safe for claims
  about the block; R132 says what it errs toward for a host that breaks the rule (log 6). -/
  | hostAccessWhileBusy
  deriving DecidableEq, Repr

/-- The state after reset (R33): everything zero, every point Infinity, `XB` zero. The constant table is the default instance
(log 2) and nothing has been presented to the block yet. -/
def State.reset : State where
  cfg     := Config.default
  f       := Vector.replicate 8 0
  pt      := Vector.replicate 4 .infinity
  t       := false
  err     := 0
  busy    := none
  xb      := []
  hid     := Hidden.zero
  rng     := []
  env     := []
  freeCtr := 0

end Sys2Proof.Machine
end

