-- ==== Sys2Proof/Machine/Ops.lean ====
section
/-! DEFINITION. The named operations every meaning is made of: bytes of `XB`, register reads and writes, and the two ways a
command ends (R114): completing, and raising an error. There is no return from an error to model (R115). -/

namespace Sys2Proof.Machine

/-! ### The exchange buffer -/

/-- What an unlisted byte of `XB` reads as: the reset contents 0x00 (R33). -/
def Memory.unlisted : Byte := 0

/-- The canonical form: addresses strictly rising, no entry equal to what an unlisted byte reads as. -/
def Memory.wf : Memory → Bool
  | [] => true
  | [(_, v)] => v != Memory.unlisted
  | (a, v) :: (b, w) :: m => v != Memory.unlisted && decide (a < b) && Memory.wf ((b, w) :: m)

/-- The byte at an address. -/
def Memory.get : Memory → Nat → Byte
  | [], _ => Memory.unlisted
  | (b, w) :: m, a => if a = b then w else Memory.get m a

/-- Store a byte, keeping the canonical form. -/
def Memory.set : Memory → Nat → Byte → Memory
  | [], a, v => if v = Memory.unlisted then [] else [(a, v)]
  | (b, w) :: m, a, v =>
    if a < b then (if v = Memory.unlisted then (b, w) :: m else (a, v) :: (b, w) :: m)
    else if a = b then (if v = Memory.unlisted then m else (a, v) :: m)
    else (b, w) :: Memory.set m a v

/-- Every listed address is below a bound. -/
def Memory.below (m : Memory) (bound : Nat) : Bool := m.all fun c => decide (c.1 < bound)

/-- `MemRead(addr, n)` (R36): the `n` bytes from `addr` as a big-endian natural, the byte at `addr` most significant. -/
def Memory.read (m : Memory) (addr : Nat) : Nat → Nat
  | 0 => 0
  | n + 1 => Memory.read m addr n * 256 + (m.get (addr + n)).toNat

/-- `MemWrite(addr, n, v)` (R37): byte `addr + j` becomes `(v div 256^(n−1−j)) mod 256`. -/
def Memory.write (m : Memory) (addr : Nat) : Nat → Nat → Memory
  | 0, _ => m
  | n + 1, v => (Memory.write m addr n (v / 256)).set (addr + n) (BitVec.ofNat 8 (v % 256))

/-! ### Registers -/

/-- Read a scalar register: `f[i]` (R12). -/
def State.getF (s : State) (i : FReg) : Nat := s.f[i]

/-- Write a scalar register: `f[i] <- v` (R12). -/
def State.setF (s : State) (i : FReg) (v : Nat) : State := { s with f := s.f.set i v }

/-- Read a point register: `P[i]` (R12). -/
def State.getP (s : State) (i : PReg) : PointValue := s.pt[i]

/-- Write a point register: `P[i] <- V` (R12). -/
def State.setP (s : State) (i : PReg) (v : PointValue) : State := { s with pt := s.pt.set i v }

/-- Store a natural of `n` bytes in `XB` (R37). -/
def State.store (s : State) (addr n v : Nat) : State := { s with xb := s.xb.write addr n v }

/-- The RNG answers left after some have been taken (R30). -/
def State.setRng (s : State) (rest : List RngAnswer) : State := { s with rng := rest }

/-- The host moves left after one has been made (R34). -/
def State.setEnv (s : State) (rest : List Event) : State := { s with env := rest }

/-! ### How a command ends -/

/-- A command completes without error: `ERR <- 0`, the hidden registers become zero, `BUSY <- 0` (R114). -/
def State.complete (s : State) : State := { s with err := 0, hid := Hidden.zero, busy := none }

/-- A command raises an error: the whole list of R114. `pred` says that it is a predicate command. -/
def State.raise (pred : Bool) (e : ErrorKind) (s : State) : State :=
  { s with
    err := e.code
    t := if pred && decide (e ≠ .illegalCommand) then false else s.t
    hid := Hidden.zero
    busy := none }

/-- The block waits for an answer of the RNG collaborator inside a command: `BUSY` is 1, the hidden registers are what the
algorithm left in them (R31, log 4), `TMP` a free value, and nothing is written (R105, R120). -/
def State.wait (c : Running) (h : Hidden) (s : State) : State :=
  { s with
    busy := some c
    hid := { h with tmp := Config.freeTmp s.freeCtr }
    rng := []
    freeCtr := s.freeCtr + 1 }

/-- End a command that computes `r`, a state with its writes done or an error (R114: all checks come before all writes). `s` is
the state the command started in. -/
def finish (pred : Bool) (s : State) (r : Except ErrorKind State) : Host.Outcome State Fault Refusal :=
  match r with
  | .ok t => .next t.complete
  | .error e => .next (s.raise pred e)

end Sys2Proof.Machine
end

