-- ==== Sys2Proof/Machine/Operands.lean ====
section
/-! DEFINITION. Operand forms: the selected modulus, the effective address and bytes of a transfer, the accepted intervals of
scalars, the digest. Register operands are read by `State.getF` and `State.getP` (Ops.lean). -/

namespace Sys2Proof.Machine

/-- `m(M)` (R45). -/
def State.modulus (s : State) (m : Modulus) : Nat := s.cfg.dp.modulus m

/-- The effective address of a transfer: `EA = OFF` (R71). -/
def effectiveAddress (off : Offset) : Nat := off.toNat

/-- Does a transfer of `len` bytes at `off` lie inside `XB`? (R48 step 6, R39.) -/
def State.fits (s : State) (off : Offset) (len : Nat) : Bool := s.cfg.dp.fits off len

/-- The `len` bytes of `XB` at an address as a natural; in a register it is zero-extended (R36, R71). -/
def State.load (s : State) (addr len : Nat) : Nat := s.xb.read addr len

/-- The private-scalar interval `[1, n−1]` (R97, R100). -/
def inScalarRange (n v : Nat) : Bool := decide (1 ≤ v ∧ v < n)

/-- The digest operand: any natural, used as `e = E mod n` (R99). -/
def digestResidue (n digest : Nat) : Nat := digest % n

end Sys2Proof.Machine
end

