-- ==== Sys2Proof/Machine/Rng.lean ====
section
/-! DEFINITION. The one use of the RNG port: `Draw` (R96) and `DrawScalar` (R97) inside the retry loop of a command (R98, R100),
and how a command that draws ends or waits. -/

namespace Sys2Proof.Machine

/-- What an attempt with an accepted scalar gives: a result, or a restart with the hidden registers it leaves (R100). -/
inductive Attempt (α : Type) where
  | done (result : α)
  | restart (h : Hidden)
  deriving DecidableEq, Repr

/-- What a command that draws comes to on the answers there are: a result or an error, with the answers not taken, or waiting
for an answer. -/
inductive RngResult (α : Type) where
  | done (result : α) (rest : List RngAnswer)
  | failed (e : ErrorKind) (rest : List RngAnswer)
  | waiting (h : Hidden)
  deriving DecidableEq, Repr

/-- The draws and attempts of a command, one answer at a time. A `Fail` counts in `TRY` and the `ENTROPY_TRIES`-th in a row raises
`EntropyExhausted` (R96). A value outside `[1, n−1]` is discarded and a new draw begins (R97). An accepted value is used by
one attempt, which ends the command or restarts with a fresh draw (R100). With no answer left the block waits (R105). -/
def rngLoop {α : Type} (c : Config) (attempt : Nat → Hidden → Except ErrorKind (Attempt α)) :
    List RngAnswer → Hidden → RngResult α
  | [], h => .waiting h
  | .fail :: rest, h =>
    if h.tries + 1 = c.entropyTries then .failed .entropyExhausted rest
    else rngLoop c attempt rest { h with tries := h.tries + 1 }
  | .value v :: rest, h =>
    if inScalarRange c.dp.n v then
      match attempt v { h with tries := 0 } with
      | .error e => .failed e rest
      | .ok (.done a) => .done a rest
      | .ok (.restart h') => rngLoop c attempt rest h'
    else rngLoop c attempt rest { h with tries := 0 }

/-- End or suspend a command that draws: its writes and completion, or the error (R114), or waiting with `BUSY = 1` (R105). The
answers taken are gone in every case. -/
def finishDraws {α : Type} (s : State) (c : Running) (write : State → α → State) (r : RngResult α) :
    Host.Outcome State Fault Refusal :=
  match r with
  | .done a rest => .next (write (s.setRng rest) a).complete
  | .failed e rest => .next ((s.setRng rest).raise false e)
  | .waiting h => .next (s.wait c h)

/-- A command that draws begins with its hidden registers zero; `Draw` begins with `TRY = 0` (R96). -/
def State.beginDraws (s : State) : State := { s with hid := Hidden.zero }

/-- The request the collaborator sees while the block waits: `(1, n−1)`, always (R30, R97). -/
def State.rngRequest (s : State) : Option (Nat × Nat) :=
  if s.busy.isSome then some (1, s.cfg.dp.n - 1) else none

end Sys2Proof.Machine
end

