-- ==== Sys2Proof/Machine/Flags.lean ====
section
/-! DEFINITION. The predicate flag `T` (R24) and the status word, a view of `ERR`, `T` and `BUSY` (R26). -/

namespace Sys2Proof.Machine

/-- `T <- b` (R12, R24). -/
def State.setT (s : State) (b : Bool) : State := { s with t := b }

/-- The bit `BUSY` (R26). -/
def State.isBusy (s : State) : Bool := s.busy.isSome

/-- `STATUS` (R26): `ERR` in bits 3:0, `T` in bit 4, `BUSY` in bit 5, zero above. -/
def State.status (s : State) : BitVec 32 := 0#26 ++ BitVec.ofBool s.isBusy ++ BitVec.ofBool s.t ++ s.err

end Sys2Proof.Machine
end

