-- ==== Sys2Proof/Machine/FieldAdd.lean ====
section
/-! DEFINITION. Unit `modular_field_adder` (R55): the functions `fadd`, `fsub`, `fneg`, `feq` and the commands `FADD`, `FSUB`,
`FNEG`, `FEQ` (40_field_add.md). -/

namespace Sys2Proof.Machine

/-- R56. -/
def fadd (m a b : Nat) : Except ErrorKind Nat :=
  if a ≥ m ∨ b ≥ m then .error .outOfRangeInput else .ok ((a + b) % m)

/-- R57. -/
def fsub (m a b : Nat) : Except ErrorKind Nat :=
  if a ≥ m ∨ b ≥ m then .error .outOfRangeInput else .ok ((a + m - b) % m)

/-- R58. -/
def fneg (m a : Nat) : Except ErrorKind Nat :=
  if a ≥ m then .error .outOfRangeInput else .ok ((m - a) % m)

/-- R59. -/
def feq (m a b : Nat) : Except ErrorKind Bool :=
  if a ≥ m ∨ b ≥ m then .error .outOfRangeInput else .ok (decide (a = b))

/-- `FADD` (R60). -/
def execFadd (m : Modulus) (rd ra rb : FReg) (s : State) : Host.Outcome State Fault Refusal :=
  finish false s do
    let v ← fadd (s.modulus m) (s.getF ra) (s.getF rb)
    .ok (s.setF rd v)

/-- `FSUB` (R61). -/
def execFsub (m : Modulus) (rd ra rb : FReg) (s : State) : Host.Outcome State Fault Refusal :=
  finish false s do
    let v ← fsub (s.modulus m) (s.getF ra) (s.getF rb)
    .ok (s.setF rd v)

/-- `FNEG` (R62). -/
def execFneg (m : Modulus) (rd ra : FReg) (s : State) : Host.Outcome State Fault Refusal :=
  finish false s do
    let v ← fneg (s.modulus m) (s.getF ra)
    .ok (s.setF rd v)

/-- `FEQ` (R63), a predicate command. -/
def execFeq (m : Modulus) (ra rb : FReg) (s : State) : Host.Outcome State Fault Refusal :=
  finish true s do
    let b ← feq (s.modulus m) (s.getF ra) (s.getF rb)
    .ok (s.setT b)

end Sys2Proof.Machine
end

