-- ==== Sys2Proof/Machine/FieldInv.lean ====
section
/-! DEFINITION. Unit `modular_field_inverter` (R68): `finv` and the command `FINV` (42_field_inv.md). -/

namespace Sys2Proof.Machine

/-- The loop of `powMod`: bits `i−1 … 0` of the exponent are still to come. -/
def powModLoop (m a e : Nat) : Nat → Nat → Nat
  | 0, acc => acc
  | i + 1, acc =>
    if e / 2 ^ i % 2 = 1 then powModLoop m a e i (acc * acc % m * a % m) else powModLoop m a e i (acc * acc % m)

/-- `a^e mod m`, by repeated squaring so that it can be evaluated; `powMod_eq` (Laws/Field.lean) proves it is `a ^ e % m`. -/
def powMod (m a e : Nat) : Nat := powModLoop m a e (bitlen e) (1 % m)

/-- R69: the Fermat form `a^(m−2) mod m`, the range test before the test for zero. -/
def finv (m a : Nat) : Except ErrorKind Nat :=
  if a ≥ m then .error .outOfRangeInput
  else if a = 0 then .error .notInvertible
  else .ok (powMod m a (m - 2))

/-- `FINV` (R70). -/
def execFinv (m : Modulus) (rd ra : FReg) (s : State) : Host.Outcome State Fault Refusal :=
  finish false s do
    let v ← finv (s.modulus m) (s.getF ra)
    .ok (s.setF rd v)

end Sys2Proof.Machine
end

