-- ==== Sys2Proof/Machine/FieldMul.lean ====
section
/-! DEFINITION. Unit `modular_field_multiplier` (R65): `fmul` and the command `FMUL` (41_field_mul.md). -/

namespace Sys2Proof.Machine

/-- R66: the exact product is reduced; there is no truncation before it. -/
def fmul (m a b : Nat) : Except ErrorKind Nat :=
  if a ≥ m ∨ b ≥ m then .error .outOfRangeInput else .ok (a * b % m)

/-- `FMUL` (R67). -/
def execFmul (m : Modulus) (rd ra rb : FReg) (s : State) : Host.Outcome State Fault Refusal :=
  finish false s do
    let v ← fmul (s.modulus m) (s.getF ra) (s.getF rb)
    .ok (s.setF rd v)

end Sys2Proof.Machine
end

