-- ==== Sys2Proof/Machine/PointDouble.lean ====
section
/-! DEFINITION. Unit `point_doubler` (R83): `pdbl` and the command `PDBL` (45_point_double.md). -/

namespace Sys2Proof.Machine

/-- R84, the case analysis in its order and every operation the field function named. That no field error leaves it for a valid
`DP` and coordinates below `p` (R83: "it never answers with an error") is a property, not part of the definition (log 9). -/
def pdbl (d : DP) : PointValue → Except ErrorKind PointValue
  | .infinity => .ok .infinity
  | .affine x y =>
    if y = 0 then .ok .infinity
    else do
      let xx ← fmul d.p x x
      let xx3 ← fmul d.p 3 xx
      let num ← fadd d.p xx3 d.a
      let den ← fadd d.p y y
      let inv ← finv d.p den
      let lam ← fmul d.p num inv
      let lam2 ← fmul d.p lam lam
      let t ← fsub d.p lam2 x
      let x3 ← fsub d.p t x
      let dx ← fsub d.p x x3
      let ldx ← fmul d.p lam dx
      let y3 ← fsub d.p ldx y
      .ok (.affine x3 y3)

/-- `PDBL` (R85). -/
def execPdbl (rd ra : PReg) (s : State) : Host.Outcome State Fault Refusal :=
  finish false s do
    let v ← pdbl s.cfg.dp (s.getP ra)
    .ok (s.setP rd v)

end Sys2Proof.Machine
end

