-- ==== Sys2Proof/Machine/PointAdd.lean ====
section
/-! DEFINITION. Unit `point_adder` (R86): `padd` and the command `PADD` (46_point_add.md). -/

namespace Sys2Proof.Machine

/-- R87, the five cases in their order; case 3 tests `x1 = x2 and y1 ≠ y2` on the naturals (C4). -/
def padd (d : DP) (v w : PointValue) : Except ErrorKind PointValue :=
  match v, w with
  | .infinity, w => .ok w
  | .affine x1 y1, .infinity => .ok (.affine x1 y1)
  | .affine x1 y1, .affine x2 y2 =>
    if x1 = x2 ∧ y1 ≠ y2 then .ok .infinity
    else if x1 = x2 ∧ y1 = y2 then pdbl d (.affine x1 y1)
    else do
      let num ← fsub d.p y2 y1
      let den ← fsub d.p x2 x1
      let inv ← finv d.p den
      let lam ← fmul d.p num inv
      let lam2 ← fmul d.p lam lam
      let t ← fsub d.p lam2 x1
      let x3 ← fsub d.p t x2
      let dx ← fsub d.p x1 x3
      let ldx ← fmul d.p lam dx
      let y3 ← fsub d.p ldx y1
      .ok (.affine x3 y3)

/-- `PADD` (R88). -/
def execPadd (rd ra rb : PReg) (s : State) : Host.Outcome State Fault Refusal :=
  finish false s do
    let v ← padd s.cfg.dp (s.getP ra) (s.getP rb)
    .ok (s.setP rd v)

end Sys2Proof.Machine
end

