-- ==== Sys2Proof/Machine/PointBasic.lean ====
section
/-! DEFINITION. Point values, tests and negation: `on_curve`, `pneg`, and the commands `PINF`, `PISINF`, `PONC`, `PNEG`
(44_point_basic.md). All arithmetic is modulo `p`. -/

namespace Sys2Proof.Machine

/-- R77: `y² = x³ + a·x + b`, each operation the field function named; Infinity is on the curve by convention. -/
def onCurve (d : DP) : PointValue → Except ErrorKind Bool
  | .infinity => .ok true
  | .affine x y => do
    let yy ← fmul d.p y y
    let xx ← fmul d.p x x
    let xxx ← fmul d.p xx x
    let ax ← fmul d.p d.a x
    let lhs ← fadd d.p xxx ax
    let rhs ← fadd d.p lhs d.b
    .ok (decide (yy = rhs))

/-- R78. -/
def pneg (d : DP) : PointValue → Except ErrorKind PointValue
  | .infinity => .ok .infinity
  | .affine x y => do
    let y' ← fneg d.p y
    .ok (.affine x y')

/-- R80: the tag alone is looked at. -/
def PointValue.isInfinity : PointValue → Bool
  | .infinity => true
  | .affine _ _ => false

/-- `PINF` (R79). -/
def execPinf (rd : PReg) (s : State) : Host.Outcome State Fault Refusal :=
  finish false s (.ok (s.setP rd .infinity))

/-- `PISINF` (R80), a predicate command. -/
def execPisinf (ra : PReg) (s : State) : Host.Outcome State Fault Refusal :=
  finish true s (.ok (s.setT (s.getP ra).isInfinity))

/-- `PONC` (R81), a predicate command: off the curve is an answer, not an error. -/
def execPonc (ra : PReg) (s : State) : Host.Outcome State Fault Refusal :=
  finish true s do
    let b ← onCurve s.cfg.dp (s.getP ra)
    .ok (s.setT b)

/-- `PNEG` (R82). -/
def execPneg (rd ra : PReg) (s : State) : Host.Outcome State Fault Refusal :=
  finish false s do
    let v ← pneg s.cfg.dp (s.getP ra)
    .ok (s.setP rd v)

end Sys2Proof.Machine
end

