-- ==== Sys2Proof/Machine/ScalarMul.lean ====
section
/-! DEFINITION. Unit `scalar_multiplier_engine` (R89): `smul` and the command `SMUL` (47_scalar_mul.md). -/

namespace Sys2Proof.Machine

/-- The loop of R91 with bits `i−1 … 0` of `k` still to come and the running point `acc` (the register `ACC`). -/
def smulLoop (d : DP) (k : Nat) (v : PointValue) : Nat → PointValue → Except ErrorKind PointValue
  | 0, acc => .ok acc
  | i + 1, acc => do
    let dbl ← pdbl d acc
    if k / 2 ^ i % 2 = 1 then
      let sum ← padd d dbl v
      smulLoop d k v i sum
    else smulLoop d k v i dbl

/-- R90: the range of `k`, then `k = 0`, then the curve test, then the loop over `NB` bits. -/
def smul (d : DP) (k : Nat) (v : PointValue) : Except ErrorKind PointValue :=
  if k ≥ 2 ^ d.nb then .error .outOfRangeInput
  else if k = 0 then .ok .infinity
  else do
    let on ← onCurve d v
    if on then smulLoop d k v d.nb .infinity else .error .pointNotOnCurve

/-- `SMUL` (R94). `ACC` and `TMP` are used and wiped within the command. -/
def execSmul (rd ra : PReg) (rk : FReg) (s : State) : Host.Outcome State Fault Refusal :=
  finish false s do
    let w ← smul s.cfg.dp (s.getF rk) (s.getP ra)
    .ok (s.setP rd w)

end Sys2Proof.Machine
end

