-- ==== Sys2Proof/Machine/Ecdsa.lean ====
section
/-! DEFINITION. Unit `ecdsa_sign_verify_engine` (R95): `keygen`, `sign`, `verify` and the commands `KEYGEN`, `SIGN`, `VERIFY`
(48_ecdsa.md). Scalars are modulo `n`, points modulo `p`. -/

namespace Sys2Proof.Machine

/-- The base point `G` (R5). -/
def basePoint (d : DP) : PointValue := .affine d.gx d.gy

/-! ### Key generation -/

/-- R98: `Q = smul(d, G)` for the drawn scalar; there is no restart. -/
def keygenAttempt (d : DP) (k : Nat) (_h : Hidden) : Except ErrorKind (Attempt (Nat × PointValue)) := do
  let q ← smul d k (basePoint d)
  .ok (.done (k, q))

/-- The writes of `KEYGEN`: `f[RD] <- d`, `P[RA] <- Q` (R98). -/
def writeKeyPair (rd : FReg) (rq : PReg) (s : State) (r : Nat × PointValue) : State := (s.setF rd r.1).setP rq r.2

/-- `KEYGEN` from the state of its hidden registers on, started or resumed. -/
def runKeygen (rd : FReg) (rq : PReg) (s : State) : Host.Outcome State Fault Refusal :=
  finishDraws s (.keygen rd rq) (writeKeyPair rd rq) (rngLoop s.cfg (keygenAttempt s.cfg.dp) s.rng s.hid)

/-- `KEYGEN` (R98). -/
def execKeygen (rd : FReg) (rq : PReg) (s : State) : Host.Outcome State Fault Refusal := runKeygen rd rq s.beginDraws

/-! ### Signing -/

/-- One attempt of R100 with the accepted `k`: steps 2 to 5 for the reduced digest `e` and the private scalar `sk`. -/
def signAttempt (d : DP) (e sk k : Nat) (h : Hidden) : Except ErrorKind (Attempt (Nat × Nat)) := do
  let pR ← smul d k (basePoint d)
  match pR with
  | .infinity => .ok (.restart { h with k := k, acc := .infinity })
  | .affine xR yR =>
    if xR % d.n = 0 then .ok (.restart { h with k := k, acc := .affine xR yR })
    else
      let kinv ← finv d.n k
      let dr ← fmul d.n sk (xR % d.n)
      let edr ← fadd d.n e dr
      let sig ← fmul d.n kinv edr
      if sig = 0 then .ok (.restart { h with k := k, kinv := kinv, acc := .affine xR yR })
      else .ok (.done (xR % d.n, sig))

/-- The writes of `SIGN`: `f[RD] <- r`, `f[RA] <- s` (R101). -/
def writeSignature (rr rs : FReg) (s : State) (r : Nat × Nat) : State := (s.setF rr r.1).setF rs r.2

/-- `SIGN` from the state of its hidden registers on, started or resumed: the range of the private scalar before any RNG request
(R100, R113), then the attempts. While it waits nothing writes a register, so a resumed command reads the operands it
started with (log 3). -/
def runSign (rr rs re rd : FReg) (s : State) : Host.Outcome State Fault Refusal :=
  if inScalarRange s.cfg.dp.n (s.getF rd) = false then .next (s.raise false .outOfRangeInput)
  else
    finishDraws s (.sign rr rs re rd) (writeSignature rr rs)
      (rngLoop s.cfg (signAttempt s.cfg.dp (digestResidue s.cfg.dp.n (s.getF re)) (s.getF rd)) s.rng s.hid)

/-- `SIGN` (R101). Equal destinations are no legal command (R48 step 5, log 10). -/
def execSign (rr rs re rd : FReg) (s : State) : Host.Outcome State Fault Refusal :=
  if rr = rs then .next (s.raise false .illegalCommand) else runSign rr rs re rd s.beginDraws

/-! ### Verification -/

/-- Steps 2 to 5 of R102, for a signature in range and a public point on the curve. -/
def verifyPoints (d : DP) (digest : Nat) (q : PointValue) (r s : Nat) : Except ErrorKind Bool := do
  let w ← finv d.n s
  let u1 ← fmul d.n (digestResidue d.n digest) w
  let u2 ← fmul d.n r w
  let v1 ← smul d u1 (basePoint d)
  let v2 ← smul d u2 q
  let v ← padd d v1 v2
  match v with
  | .infinity => .ok false
  | .affine xV _ => .ok (decide (xV % d.n = r))

/-- R102: the range test first, then the public key, then the points. -/
def verify (d : DP) (digest : Nat) (q : PointValue) (r s : Nat) : Except ErrorKind Bool :=
  if inScalarRange d.n r = false ∨ inScalarRange d.n s = false then .error .invalidSignatureRange
  else
    match q with
    | .infinity => .error .pointNotOnCurve
    | .affine x y => do
      let on ← onCurve d (.affine x y)
      if on then verifyPoints d digest (.affine x y) r s else .error .pointNotOnCurve

/-- `VERIFY` (R103), a predicate command. -/
def execVerify (rr rs re : FReg) (rq : PReg) (s : State) : Host.Outcome State Fault Refusal :=
  finish true s do
    let b ← verify s.cfg.dp (s.getF re) (s.getP rq) (s.getF rr) (s.getF rs)
    .ok (s.setT b)

end Sys2Proof.Machine
end

