-- ==== Sys2Proof/Machine/Transfer.lean ====
section
/-! DEFINITION. The transfers between `XB` and the registers, and `WIPE` (43_transfer.md). A transfer that does not fit in `XB`
raises `IllegalCommand` (R48 step 6): the decoder lets no such command through, and each meaning says the same (log 10). -/

namespace Sys2Proof.Machine

/-- `FLD` (R72): a field element is checked, a scalar is not. -/
def execFld (m : Modulus) (rd : FReg) (off : Offset) (s : State) : Host.Outcome State Fault Refusal :=
  finish false s
    (if s.fits off (s.cfg.dp.fieldLen m) = false then .error .illegalCommand
     else
      let v := s.load (effectiveAddress off) (s.cfg.dp.fieldLen m)
      if m = .p ∧ v ≥ s.cfg.dp.p then .error .outOfRangeInput else .ok (s.setF rd v))

/-- `FST` (R73): a field element must be one, a scalar must fit in `LN` bytes. -/
def execFst (m : Modulus) (rs : FReg) (off : Offset) (s : State) : Host.Outcome State Fault Refusal :=
  finish false s
    (if s.fits off (s.cfg.dp.fieldLen m) = false then .error .illegalCommand
     else
      let v := s.getF rs
      match m with
      | .p => if v ≥ s.cfg.dp.p then .error .outOfRangeInput else .ok (s.store (effectiveAddress off) s.cfg.dp.lp v)
      | .n =>
        if v ≥ 2 ^ (8 * s.cfg.dp.ln) then .error .outOfRangeInput
        else .ok (s.store (effectiveAddress off) s.cfg.dp.ln v))

/-- `PLD` (R74): `x`, then `y`; the curve equation is not tested. -/
def execPld (rd : PReg) (off : Offset) (s : State) : Host.Outcome State Fault Refusal :=
  finish false s
    (if s.fits off s.cfg.dp.pointLen = false then .error .illegalCommand
     else
      let x := s.load (effectiveAddress off) s.cfg.dp.lp
      let y := s.load (effectiveAddress off + s.cfg.dp.lp) s.cfg.dp.lp
      if x ≥ s.cfg.dp.p ∨ y ≥ s.cfg.dp.p then .error .outOfRangeInput else .ok (s.setP rd (.affine x y)))

/-- `PST` (R75): Infinity has no encoding. -/
def execPst (rs : PReg) (off : Offset) (s : State) : Host.Outcome State Fault Refusal :=
  finish false s
    (if s.fits off s.cfg.dp.pointLen = false then .error .illegalCommand
     else
      match s.getP rs with
      | .infinity => .error .noValidEncoding
      | .affine x y =>
        .ok ((s.store (effectiveAddress off) s.cfg.dp.lp x).store (effectiveAddress off + s.cfg.dp.lp) s.cfg.dp.lp y))

/-- `WIPE` (R76). -/
def execWipe (rd : FReg) (s : State) : Host.Outcome State Fault Refusal :=
  finish false s (.ok (s.setF rd 0))

end Sys2Proof.Machine
end

