-- ==== Sys2Proof/Machine/Dispatch.lean ====
section
/-! DEFINITION. One arm per command (R49). -/

namespace Sys2Proof.Machine

def exec (i : Instr) (s : State) : Host.Outcome State Fault Refusal :=
  match i with
  | .fadd m rd ra rb => Sys2Proof.Machine.execFadd m rd ra rb s
  | .fsub m rd ra rb => Sys2Proof.Machine.execFsub m rd ra rb s
  | .fneg m rd ra => Sys2Proof.Machine.execFneg m rd ra s
  | .feq m ra rb => Sys2Proof.Machine.execFeq m ra rb s
  | .fmul m rd ra rb => Sys2Proof.Machine.execFmul m rd ra rb s
  | .finv m rd ra => Sys2Proof.Machine.execFinv m rd ra s
  | .fld m rd off => Sys2Proof.Machine.execFld m rd off s
  | .fst m rs off => Sys2Proof.Machine.execFst m rs off s
  | .pld rd off => Sys2Proof.Machine.execPld rd off s
  | .pst rs off => Sys2Proof.Machine.execPst rs off s
  | .pinf rd => Sys2Proof.Machine.execPinf rd s
  | .pisinf ra => Sys2Proof.Machine.execPisinf ra s
  | .ponc ra => Sys2Proof.Machine.execPonc ra s
  | .pneg rd ra => Sys2Proof.Machine.execPneg rd ra s
  | .pdbl rd ra => Sys2Proof.Machine.execPdbl rd ra s
  | .padd rd ra rb => Sys2Proof.Machine.execPadd rd ra rb s
  | .smul rd ra rk => Sys2Proof.Machine.execSmul rd ra rk s
  | .keygen rd rq => Sys2Proof.Machine.execKeygen rd rq s
  | .sign rr rs re rd => Sys2Proof.Machine.execSign rr rs re rd s
  | .verify rr rs re rq => Sys2Proof.Machine.execVerify rr rs re rq s
  | .wipe rd => Sys2Proof.Machine.execWipe rd s

end Sys2Proof.Machine
end

