-- ==== Sys2Proof/Machine/HostPort.lean ====
section
/-! DEFINITION. What the outside world does to the block: the command port (R27), the host's accesses to `XB` (R41, R42), reset
(R130), the answers of the RNG collaborator (R30), and the resumption of a command that waited for one. -/

namespace Sys2Proof.Machine

/-- A command word starts (R27, R48): a legal word runs, any other raises `IllegalCommand`, which leaves `T` alone even for a
predicate opcode (R114). -/
def runWord (w : Word) (s : State) : Host.Outcome State Fault Refusal :=
  match decode s.cfg.dp w with
  | .ok i => exec i s
  | .error _ => .next (s.raise false .illegalCommand)

/-- The host writes `CMD` (R27); while `BUSY = 1` it must not (R42). -/
def hostCommand (w : Word) (s : State) : Host.Outcome State Fault Refusal :=
  if s.isBusy then .refused .hostAccessWhileBusy else runWord w s

/-- The host writes one byte of `XB` (R41); while `BUSY = 1` it must not (R42). -/
def hostWrite (addr : Nat) (v : Byte) (s : State) : Host.Outcome State Fault Refusal :=
  if s.isBusy then .refused .hostAccessWhileBusy
  else if addr ≥ s.cfg.dp.xbSize then .fault (.noSuchByte addr)
  else .next { s with xb := s.xb.set addr v }

/-- The host reads one byte of `XB` (R41): no side effect (R40), so it is an observation and no step. -/
def State.hostRead (s : State) (addr : Nat) : Host.Outcome Byte Fault Refusal :=
  if s.isBusy then .refused .hostAccessWhileBusy
  else if addr ≥ s.cfg.dp.xbSize then .fault (.noSuchByte addr)
  else .next (s.xb.get addr)

/-- Reset, at any time (R33, R130): every piece of the block's state at its reset value. The constant table stays (R33), and so
do the inputs, which are not the block's (log 5). -/
def State.applyReset (s : State) : State :=
  { State.reset with cfg := s.cfg, rng := s.rng, env := s.env, freeCtr := s.freeCtr }

/-- An answer of the RNG collaborator becomes available (R30). -/
def State.deliver (s : State) (a : RngAnswer) : State := { s with rng := s.rng ++ [a] }

/-- A command that waited goes on with the answers that have come (R120). -/
def resume (c : Running) (s : State) : Host.Outcome State Fault Refusal :=
  match c with
  | .keygen rd rq => runKeygen rd rq s
  | .sign rr rs re rd => runSign rr rs re rd s

/-- The collaborator answers: a command that waits takes the answer at once and goes on (R96, R120); an idle block keeps it for
the commands to come (log 3). -/
def rngAnswers (a : RngAnswer) (s : State) : Host.Outcome State Fault Refusal :=
  match s.busy with
  | none => .next (s.deliver a)
  | some c => resume c (s.deliver a)

/-- One move of the outside world, with all it starts. Reset is a move like any other, so it can come next in every state
(R130, U10). -/
def hostMove (ev : Event) (s : State) : Host.Outcome State Fault Refusal :=
  match ev with
  | .cmd w => hostCommand w s
  | .xbWrite addr v => hostWrite addr v s
  | .rngAnswer a => rngAnswers a s
  | .reset => .next s.applyReset

/-- The next move of the outside world is made; with none, the block waits as it is (R105, R120, R130). -/
def advance (s : State) : Host.Outcome State Fault Refusal :=
  match s.env with
  | [] => .next s
  | ev :: rest => hostMove ev (s.setEnv rest)

/-- `s` with a write of the command word `w` as the host's next move, and no command running. -/
def State.present (s : State) (w : Word) : State := { s with busy := none, env := .cmd w :: s.env }

end Sys2Proof.Machine
end

