-- ==== Sys2Proof/Machine/Step.lean ====
section
/-! DEFINITION. One step of the machine, and how the host of the pipeline presents a command word to it. -/

namespace Sys2Proof.Machine

/-- One step: one move of the outside world with all it starts, a waiting command's going on among it (R132; log 5). -/
def step (s : State) : Host.Outcome State Fault Refusal := advance s

/-- The command word `w` as the next write of `CMD` (R27): the block fetches nothing, the host presents each word (R28; log 7).
Every command has 32 bits (R51), so `nbits` selects nothing. -/
def State.withFetchWord (s : State) (_nbits w : Nat) : State := s.present (BitVec.ofNat 32 w)

end Sys2Proof.Machine
end

