-- ==== Sys2Proof/Safety.lean ====
section
/-! DEFINITION. What claims are stated in: a valid `DP` (R5), the invariant of every reachable state (R21, R23, R25, R31), what a
command leaves unchanged and how it ends (R114), how the RNG's answers are read (R96, R97, R100), which registers each command
may write (R21, R22, R24, R29). -/

namespace Sys2Proof

/-- The invariants of `DP` that R5 lets a model assume. `n·G = Infinity` is said with the block's own loop (R91). -/
structure DP.Valid (d : DP) : Prop where
  primeP : d.p.Prime
  primeN : d.n.Prime
  threeLtP : 3 < d.p
  aLt : d.a < d.p
  bLt : d.b < d.p
  gxLt : d.gx < d.p
  gyLt : d.gy < d.p
  baseOnCurve : d.gy ^ 2 % d.p = (d.gx ^ 3 + d.a * d.gx + d.b) % d.p
  nonsingular : (4 * d.a ^ 3 + 27 * d.b ^ 2) % d.p ≠ 0
  baseOrder : Machine.smulLoop d d.n (Machine.basePoint d) d.nb .infinity = .ok .infinity

/-- A valid instance: R5 and `ENTROPY_TRIES ≥ 1` (R8). -/
structure Config.Valid (c : Config) : Prop where
  dp : c.dp.Valid
  tries : 1 ≤ c.entropyTries

/-- The part of a valid instance that the invariant of the state needs; it can be evaluated. -/
def Config.usable (c : Config) : Bool :=
  decide (0 < c.dp.p ∧ 0 < c.dp.n ∧ c.dp.gx < c.dp.p ∧ c.dp.gy < c.dp.p ∧ 1 ≤ c.entropyTries)

namespace Machine

/-- The invariant of every reachable state. -/
structure State.Inv (s : State) : Prop where
  /-- The instance is usable (R5, R8). -/
  config : s.cfg.usable = true
  /-- R21: every scalar register holds a natural below `2^RW`. -/
  scalars : ∀ i, s.getF i < 2 ^ s.cfg.dp.regBits
  /-- R23: coordinates of every point register are below `p`. -/
  points : ∀ i, (s.getP i).inRange s.cfg.dp.p = true
  /-- R25: codes 8 to 15 are never written. -/
  code : s.err.toNat < 8
  /-- `XB` is in canonical form. -/
  canonical : s.xb.wf = true
  /-- R29: there is no byte at or above `XBSZ`. -/
  bounded : s.xb.below s.cfg.dp.xbSize = true
  /-- R31, R104: whenever `BUSY = 0`, every hidden register is zero. -/
  wiped : s.busy = none → s.hid = Hidden.zero
  /-- R96: while a draw is under way fewer than `ENTROPY_TRIES` requests in a row have failed. -/
  tries : s.busy ≠ none → s.hid.tries < s.cfg.entropyTries
  /-- R120: a command that runs waits for an answer, so it has taken every answer there was. -/
  answered : s.busy ≠ none → s.rng = []

/-- `t` is reached from `s` by steps of the machine. -/
def Reaches (s t : State) : Prop := ∃ k, core.run k s = .next t

/-- What a command leaves alone: all scalar registers but `fs`, all point registers but `ps`, every byte of `XB` outside the
`len` bytes from `addr`, the constant table and the host's moves. -/
structure Unchanged (s t : State) (fs : List FReg) (ps : List PReg) (addr len : Nat) : Prop where
  scalars : ∀ j, j ∉ fs → t.getF j = s.getF j
  points : ∀ j, j ∉ ps → t.getP j = s.getP j
  buffer : ∀ a, a < addr ∨ addr + len ≤ a → t.xb.get a = s.xb.get a
  config : t.cfg = s.cfg
  moves : t.env = s.env

/-- The command has ended with a completion code: `ERR`, hidden registers zero, `BUSY = 0` (R114). -/
structure Ended (t : State) (code : BitVec 4) : Prop where
  err : t.err = code
  hid : t.hid = Hidden.zero
  busy : t.busy = none

/-- The command completes without error in `t`, writes nothing but the registers `fs` and `ps` and `len` bytes of `XB` from
`addr`, leaves `T` alone and takes no RNG answer. -/
structure Completes (i : Instr) (s t : State) (fs : List FReg) (ps : List PReg) (addr len : Nat) : Prop where
  next : exec i s = .next t
  ended : Ended t 0
  unchanged : Unchanged s t fs ps addr len
  flag : t.t = s.t
  answers : t.rng = s.rng

/-- As `Completes`, of a command that draws: it leaves the RNG answers `rest`. -/
structure CompletesDrawing (i : Instr) (s t : State) (fs : List FReg) (ps : List PReg) (rest : List RngAnswer) : Prop where
  next : exec i s = .next t
  ended : Ended t 0
  unchanged : Unchanged s t fs ps 0 0
  flag : t.t = s.t
  answers : t.rng = rest

/-- The predicate command completes without error with the answer `b` in `T` and writes nothing else. -/
structure Answers (i : Instr) (s : State) (b : Bool) : Prop where
  completes : ∃ t, exec i s = .next t ∧ Ended t 0 ∧ Unchanged s t [] [] 0 0 ∧ t.t = b ∧ t.rng = s.rng

/-- The command ends with the error `e`, taking no RNG answer: nothing is written but `ERR` and, for a predicate command, `T`
(R114). -/
def Raises (i : Instr) (s : State) (pred : Bool) (e : ErrorKind) : Prop :=
  ∃ t, exec i s = .next t ∧ Ended t e.code ∧ Unchanged s t [] [] 0 0 ∧ t.rng = s.rng
    ∧ t.t = if pred = true ∧ e ≠ .illegalCommand then false else s.t

/-- As `Raises`, of a command that draws: it leaves the RNG answers `rest`. -/
def RaisesDrawing (i : Instr) (s : State) (e : ErrorKind) (rest : List RngAnswer) : Prop :=
  ∃ t, exec i s = .next t ∧ Ended t e.code ∧ Unchanged s t [] [] 0 0 ∧ t.t = s.t ∧ t.rng = rest

/-- The command waits for an RNG answer in `t`: `BUSY = 1`, all answers taken, nothing the host can see written (R105). -/
structure Waits (c : Running) (s t : State) : Prop where
  busy : t.busy = some c
  err : t.err = s.err
  flag : t.t = s.t
  unchanged : Unchanged s t [] [] 0 0
  answers : t.rng = []

/-! ### The RNG's answers as R96, R97 and R100 read them -/

/-- `DrawScalar` returns `k` and leaves the answers `rest` (R96, R97). -/
inductive DrawsScalar (c : Config) : List RngAnswer → Nat → List RngAnswer → Prop where
  /-- Fewer than `ENTROPY_TRIES` answers `Fail`, then a value of `[1, n−1]`. -/
  | accepted {j k : Nat} {rest : List RngAnswer} (hj : j < c.entropyTries) (hk : 1 ≤ k ∧ k < c.dp.n) :
      DrawsScalar c (List.replicate j .fail ++ .value k :: rest) k rest
  /-- A value outside `[1, n−1]` is discarded and a new draw begins. -/
  | redrawn {j v k : Nat} {more rest : List RngAnswer} (hj : j < c.entropyTries) (hv : ¬ (1 ≤ v ∧ v < c.dp.n))
      (again : DrawsScalar c more k rest) : DrawsScalar c (List.replicate j .fail ++ .value v :: more) k rest

/-- `DrawScalar` raises `EntropyExhausted` and leaves the answers `rest` (R96, R97). -/
inductive DrawGivesUp (c : Config) : List RngAnswer → List RngAnswer → Prop where
  /-- `ENTROPY_TRIES` answers `Fail` in one draw. -/
  | exhausted {rest : List RngAnswer} : DrawGivesUp c (List.replicate c.entropyTries .fail ++ rest) rest
  | redrawn {j v : Nat} {more rest : List RngAnswer} (hj : j < c.entropyTries) (hv : ¬ (1 ≤ v ∧ v < c.dp.n))
      (again : DrawGivesUp c more rest) : DrawGivesUp c (List.replicate j .fail ++ .value v :: more) rest

/-- `DrawScalar` has used all the answers and needs another one (R96, R120). -/
inductive DrawWaits (c : Config) : List RngAnswer → Prop where
  | pending {j : Nat} (hj : j < c.entropyTries) : DrawWaits c (List.replicate j .fail)
  | redrawn {j v : Nat} {more : List RngAnswer} (hj : j < c.entropyTries) (hv : ¬ (1 ≤ v ∧ v < c.dp.n))
      (again : DrawWaits c more) : DrawWaits c (List.replicate j .fail ++ .value v :: more)

/-- Steps 2 to 4 of R100 with the accepted `k`, when `R` is not Infinity: `r = xR mod n` and `s = k⁻¹ (e + sk·r) mod n`. -/
def SignsWith (d : DP) (e sk k r sig : Nat) : Prop :=
  ∃ xR yR kinv, smul d k (basePoint d) = .ok (.affine xR yR) ∧ finv d.n k = .ok kinv ∧ r = xR % d.n
    ∧ sig = kinv * ((e + sk * r) % d.n) % d.n

/-- R100: the attempt with `k` restarts. -/
def Restarts (d : DP) (e sk k : Nat) : Prop :=
  smul d k (basePoint d) = .ok .infinity ∨ ∃ r sig, SignsWith d e sk k r sig ∧ (r = 0 ∨ sig = 0)

/-- `sign` returns `(r, sig)` and leaves the answers `rest` (R100). -/
inductive SignReturns (c : Config) (e sk : Nat) : List RngAnswer → Nat → Nat → List RngAnswer → Prop where
  | returned {a rest : List RngAnswer} {k r sig : Nat} (draw : DrawsScalar c a k rest) (h : SignsWith c.dp e sk k r sig)
      (hr : r ≠ 0) (hs : sig ≠ 0) : SignReturns c e sk a r sig rest
  | restarted {a more rest : List RngAnswer} {k r sig : Nat} (draw : DrawsScalar c a k more) (h : Restarts c.dp e sk k)
      (again : SignReturns c e sk more r sig rest) : SignReturns c e sk a r sig rest

/-- `sign` raises `EntropyExhausted` and leaves the answers `rest` (R100). -/
inductive SignGivesUp (c : Config) (e sk : Nat) : List RngAnswer → List RngAnswer → Prop where
  | exhausted {a rest : List RngAnswer} (draw : DrawGivesUp c a rest) : SignGivesUp c e sk a rest
  | restarted {a more rest : List RngAnswer} {k : Nat} (draw : DrawsScalar c a k more) (h : Restarts c.dp e sk k)
      (again : SignGivesUp c e sk more rest) : SignGivesUp c e sk a rest

/-- `sign` has used all the answers and needs another one. -/
inductive SignWaits (c : Config) (e sk : Nat) : List RngAnswer → Prop where
  | pending {a : List RngAnswer} (draw : DrawWaits c a) : SignWaits c e sk a
  | restarted {a more : List RngAnswer} {k : Nat} (draw : DrawsScalar c a k more) (h : Restarts c.dp e sk k)
      (again : SignWaits c e sk more) : SignWaits c e sk a

/-- The `k`-fold sum of a point value, `padd` by `padd` (R93). -/
def multiple (d : DP) (v : PointValue) : Nat → Except ErrorKind PointValue
  | 0 => .ok .infinity
  | k + 1 => do
    let w ← multiple d v k
    padd d w v

/-! ### What each command may write -/

/-- The scalar registers a command may write (the last row of the table of R21). -/
def scalarDests : Instr → List FReg
  | .fadd _ rd _ _ | .fsub _ rd _ _ | .fneg _ rd _ | .fmul _ rd _ _ | .finv _ rd _ | .fld _ rd _ | .keygen rd _ | .wipe rd => [rd]
  | .sign rr rs _ _ => [rr, rs]
  | .feq _ _ _ | .fst _ _ _ | .pld _ _ | .pst _ _ | .pinf _ | .pisinf _ | .ponc _ | .pneg _ _ | .pdbl _ _ | .padd _ _ _
  | .smul _ _ _ | .verify _ _ _ _ => []

/-- The point registers a command may write (the last row of the table of R22). -/
def pointDests : Instr → List PReg
  | .pinf rd | .pneg rd _ | .pdbl rd _ | .padd rd _ _ | .smul rd _ _ | .pld rd _ => [rd]
  | .keygen _ rq => [rq]
  | .fadd _ _ _ _ | .fsub _ _ _ _ | .fneg _ _ _ | .feq _ _ _ | .fmul _ _ _ _ | .finv _ _ _ | .fld _ _ _ | .fst _ _ _
  | .pst _ _ | .pisinf _ | .ponc _ | .sign _ _ _ _ | .verify _ _ _ _ | .wipe _ => []

/-- The predicate commands (R24). -/
def isPredicate : Instr → Bool
  | .feq _ _ _ | .pisinf _ | .ponc _ | .verify _ _ _ _ => true
  | .fadd _ _ _ _ | .fsub _ _ _ _ | .fneg _ _ _ | .fmul _ _ _ _ | .finv _ _ _ | .fld _ _ _ | .fst _ _ _ | .pld _ _ | .pst _ _
  | .pinf _ | .pneg _ _ | .pdbl _ _ | .padd _ _ _ | .smul _ _ _ | .keygen _ _ | .sign _ _ _ _ | .wipe _ => false

/-- The errors a legal command can end with (the filled cells of R112). -/
def possibleErrors : Instr → List ErrorKind
  | .fadd _ _ _ _ | .fsub _ _ _ _ | .fmul _ _ _ _ | .feq _ _ _ | .fneg _ _ _ | .fst _ _ _ | .pld _ _ => [.outOfRangeInput]
  | .fld m _ _ => if m = .p then [.outOfRangeInput] else []
  | .finv _ _ _ => [.outOfRangeInput, .notInvertible]
  | .pst _ _ => [.noValidEncoding]
  | .pinf _ | .pisinf _ | .ponc _ | .pneg _ _ | .pdbl _ _ | .padd _ _ _ | .wipe _ => []
  | .smul _ _ _ => [.outOfRangeInput, .pointNotOnCurve]
  | .keygen _ _ => [.entropyExhausted]
  | .sign _ _ _ _ => [.outOfRangeInput, .entropyExhausted]
  | .verify _ _ _ _ => [.invalidSignatureRange, .pointNotOnCurve]

/-- The bytes of `XB` a command may write, as address and length (R29: `FST` and `PST` write it, no other command does). -/
def storedBytes (d : DP) : Instr → Nat × Nat
  | .fst m _ off => (effectiveAddress off, d.fieldLen m)
  | .pst _ off => (effectiveAddress off, d.pointLen)
  | .fadd _ _ _ _ | .fsub _ _ _ _ | .fneg _ _ _ | .feq _ _ _ | .fmul _ _ _ _ | .finv _ _ _ | .fld _ _ _ | .pld _ _
  | .pinf _ | .pisinf _ | .ponc _ | .pneg _ _ | .pdbl _ _ | .padd _ _ _ | .smul _ _ _ | .keygen _ _ | .sign _ _ _ _
  | .verify _ _ _ _ | .wipe _ => (0, 0)

/-- The command a running command is (R26). -/
def Running.instr : Running → Instr
  | .keygen rd rq => .keygen rd rq
  | .sign rr rs re rd => .sign rr rs re rd

/-- The block of a state without what the spec leaves open in it: `TMP` while waiting, and the model's count of free values. -/
def State.upToFree (s : State) : State := { s with hid := { s.hid with tmp := 0 }, freeCtr := 0 }

end Machine

end Sys2Proof
end

