-- ==== Sys2Proof/Certificates/Slice0/Obligations.lean ====
section
/-! DEFINITION. The statements about this model. Each docstring names the rule of spec/ it formalises. -/

open Sys2Proof Sys2Proof.Machine

/-! ## Encoding -/

/-- Every legal command is the decoding of its own word (R46, R47, R48, R49). -/
def Obligations.DecodeEncode : Prop :=
  ∀ (d : DP) (i : Instr), i.wellFormed d = true → decode d (encode i) = .ok i

/-- A word has one meaning: what decodes is the word of that command, and the command is legal (R48, R51). -/
def Obligations.EncodeDecode : Prop :=
  ∀ (d : DP) (w : Word) (i : Instr), decode d w = .ok i → encode i = w ∧ i.wellFormed d = true

/-- The decoder of R48 against the mask and match columns of opcode_table.json (the paragraph after R51): a word is a legal
command exactly when it matches a row and meets the row's constraints, and no two rows match the same word. -/
def Obligations.LegalWordsMatchTheTable : Prop :=
  ∀ (d : DP) (w : Word),
    ((∃ i, decode d w = .ok i) ↔ ∃ op : Op, w &&& op.mask = op.pattern ∧ (op.build (split w)).wellFormed d = true) ∧
    (∀ op op' : Op, w &&& op.mask = op.pattern → w &&& op'.mask = op'.pattern → op = op')

/-- Words written out from the encoding vectors of 95_test_vectors.md section 3, on `P256`. -/
def Obligations.WrittenOutWords : Prop :=
  decode DP.p256 0x10820100 = .ok (.fadd .n 2 0 1) ∧ decode DP.p256 0x13000100 = .ok (.feq .p 0 1) ∧
  decode DP.p256 0x20830004 = .ok (.fld .n 3 4) ∧ decode DP.p256 0x23010002 = .ok (.pst 1 2) ∧
  decode DP.p256 0x35031200 = .ok (.padd 3 1 2) ∧ decode DP.p256 0x40021000 = .ok (.smul 2 1 0) ∧
  decode DP.p256 0x51023100 = .ok (.sign 2 3 1 0) ∧ decode DP.p256 0x52023100 = .ok (.verify 2 3 1 0) ∧
  decode DP.p256 0x00000000 = .error .unassignedOpcode ∧ decode DP.p256 0x10020101 = .error .fieldNotZero ∧
  decode DP.p256 0x40021800 = .error .registerIndex ∧ decode DP.p256 0x51022310 = .error .sameDestination ∧
  decode DP.p256 0x220001C1 = .error .outsideBuffer

/-- R48, R51: a word that is no legal command, written to `CMD`, changes nothing but `ERR`, which becomes 6: no register, no byte
of `XB`, and not `T`. Every word whose `OPC` is none of the 21 values is one. -/
def Obligations.IllegalWordOnlyWritesErr : Prop :=
  (∀ (s : State) (w : Word) (rest : List Event), s.busy = none → s.env = .cmd w :: rest → (∀ i, decode s.cfg.dp w ≠ .ok i) →
    ∃ t, step s = .next t ∧ Ended t 6 ∧ Unchanged (s.setEnv rest) t [] [] 0 0 ∧ t.t = s.t ∧ t.rng = s.rng) ∧
  (∀ (d : DP) (w : Word), (∀ op : Op, op.opc ≠ w.extractLsb' 24 8) → ∀ i, decode d w ≠ .ok i)

/-- The model's own choice (log 10): a term of `Instr` that is no legal command, which the decoder never gives, raises
`IllegalCommand` when it is executed, as its word does (R48 steps 5 and 6). -/
def Obligations.IllFormedTermsAreIllegalCommands : Prop :=
  ∀ (i : Instr) (s : State), i.wellFormed s.cfg.dp = false → Raises i s false .illegalCommand

/-! ## The field commands -/

/-- R60: `FADD`. -/
def Obligations.FaddResult : Prop :=
  ∀ (s : State) (m : Modulus) (rd ra rb : FReg),
    (∀ d, decode d (packR 0x10 m.bit (indexField rd) (indexField ra) (indexField rb) 0) = .ok (.fadd m rd ra rb)) ∧
    (s.getF ra < s.modulus m → s.getF rb < s.modulus m →
      ∃ t, Completes (.fadd m rd ra rb) s t [rd] [] 0 0 ∧ t.getF rd = (s.getF ra + s.getF rb) % s.modulus m) ∧
    (s.modulus m ≤ s.getF ra ∨ s.modulus m ≤ s.getF rb → Raises (.fadd m rd ra rb) s false .outOfRangeInput)

/-- R61: `FSUB`, `fa` minus `fb`. -/
def Obligations.FsubResult : Prop :=
  ∀ (s : State) (m : Modulus) (rd ra rb : FReg),
    (∀ d, decode d (packR 0x11 m.bit (indexField rd) (indexField ra) (indexField rb) 0) = .ok (.fsub m rd ra rb)) ∧
    (s.getF ra < s.modulus m → s.getF rb < s.modulus m →
      ∃ t, Completes (.fsub m rd ra rb) s t [rd] [] 0 0 ∧
        t.getF rd = if s.getF rb ≤ s.getF ra then s.getF ra - s.getF rb else s.getF ra + s.modulus m - s.getF rb) ∧
    (s.modulus m ≤ s.getF ra ∨ s.modulus m ≤ s.getF rb → Raises (.fsub m rd ra rb) s false .outOfRangeInput)

/-- R62: `FNEG`; the negation of 0 is 0. -/
def Obligations.FnegResult : Prop :=
  ∀ (s : State) (m : Modulus) (rd ra : FReg),
    (∀ d, decode d (packR 0x12 m.bit (indexField rd) (indexField ra) 0 0) = .ok (.fneg m rd ra)) ∧
    (s.getF ra < s.modulus m →
      ∃ t, Completes (.fneg m rd ra) s t [rd] [] 0 0 ∧
        t.getF rd = if s.getF ra = 0 then 0 else s.modulus m - s.getF ra) ∧
    (s.modulus m ≤ s.getF ra → Raises (.fneg m rd ra) s false .outOfRangeInput)

/-- R63: `FEQ`; an out-of-range operand raises and clears `T`. -/
def Obligations.FeqResult : Prop :=
  ∀ (s : State) (m : Modulus) (ra rb : FReg),
    (∀ d, decode d (packR 0x13 m.bit 0 (indexField ra) (indexField rb) 0) = .ok (.feq m ra rb)) ∧
    (s.getF ra < s.modulus m → s.getF rb < s.modulus m → Answers (.feq m ra rb) s (decide (s.getF ra = s.getF rb))) ∧
    (s.modulus m ≤ s.getF ra ∨ s.modulus m ≤ s.getF rb → Raises (.feq m ra rb) s true .outOfRangeInput)

/-- R67: `FMUL`, the exact product reduced. -/
def Obligations.FmulResult : Prop :=
  ∀ (s : State) (m : Modulus) (rd ra rb : FReg),
    (∀ d, decode d (packR 0x18 m.bit (indexField rd) (indexField ra) (indexField rb) 0) = .ok (.fmul m rd ra rb)) ∧
    (s.getF ra < s.modulus m → s.getF rb < s.modulus m →
      ∃ t, Completes (.fmul m rd ra rb) s t [rd] [] 0 0 ∧ t.getF rd = s.getF ra * s.getF rb % s.modulus m) ∧
    (s.modulus m ≤ s.getF ra ∨ s.modulus m ≤ s.getF rb → Raises (.fmul m rd ra rb) s false .outOfRangeInput)

/-- R70: `FINV`. The result is `a^(m−2) mod m` (R69); the range is tested before zero. -/
def Obligations.FinvResult : Prop :=
  ∀ (s : State) (m : Modulus) (rd ra : FReg),
    (∀ d, decode d (packR 0x1C m.bit (indexField rd) (indexField ra) 0 0) = .ok (.finv m rd ra)) ∧
    (s.getF ra < s.modulus m → s.getF ra ≠ 0 →
      ∃ t, Completes (.finv m rd ra) s t [rd] [] 0 0 ∧ t.getF rd = s.getF ra ^ (s.modulus m - 2) % s.modulus m) ∧
    (s.modulus m ≤ s.getF ra → Raises (.finv m rd ra) s false .outOfRangeInput) ∧
    (s.getF ra < s.modulus m → s.getF ra = 0 → Raises (.finv m rd ra) s false .notInvertible)

/-- R56 to R59: the functions of the unit `modular_field_adder`. -/
def Obligations.FieldAdderFunctions : Prop :=
  ∀ m a b : Nat,
    (m ≤ a ∨ m ≤ b → fadd m a b = .error .outOfRangeInput ∧ fsub m a b = .error .outOfRangeInput ∧
      feq m a b = .error .outOfRangeInput) ∧
    (m ≤ a → fneg m a = .error .outOfRangeInput) ∧
    (a < m → b < m →
      fadd m a b = .ok ((a + b) % m) ∧ (a + b) % m = (if a + b < m then a + b else a + b - m) ∧
      fsub m a b = .ok ((a + m - b) % m) ∧ (a + m - b) % m = (if b ≤ a then a - b else a + m - b) ∧
      feq m a b = .ok (decide (a = b))) ∧
    (a < m → fneg m a = .ok ((m - a) % m) ∧ (m - a) % m = (if a = 0 then 0 else m - a) ∧ (m - a) % m < m ∧
      ∀ r, r < m → (fadd m a r = .ok 0 ↔ r = (m - a) % m))

/-- R69, the part the spec marks as general knowledge: on a valid `DP` the value of `finv` is the one inverse of the operand in
`[1, m)`. -/
def Obligations.FinvIsTheInverse : Prop :=
  ∀ (d : DP) (m : Modulus) (a : Nat), d.Valid → a < d.modulus m → a ≠ 0 →
    ∃ r, finv (d.modulus m) a = .ok r ∧ 1 ≤ r ∧ r < d.modulus m ∧ a * r % d.modulus m = 1 ∧
      ∀ r', r' < d.modulus m → a * r' % d.modulus m = 1 → r' = r

/-! ## The transfers -/

/-- R36: `MemRead` is the big-endian sum. -/
def Obligations.MemReadIsBigEndian : Prop :=
  ∀ (x : Memory) (addr n : Nat),
    x.read addr n = ∑ j ∈ Finset.range n, (x.get (addr + j)).toNat * 256 ^ (n - 1 - j)

/-- R37: `MemWrite` writes exactly `n` bytes, the most significant at the lowest address. -/
def Obligations.MemWriteIsBigEndian : Prop :=
  ∀ (x : Memory) (addr n v : Nat), x.wf = true → v < 2 ^ (8 * n) →
    (x.write addr n v).wf = true ∧
    (∀ j, j < n → (x.write addr n v).get (addr + j) = BitVec.ofNat 8 (v / 256 ^ (n - 1 - j) % 256)) ∧
    (∀ a, a < addr ∨ addr + n ≤ a → (x.write addr n v).get a = x.get a)

/-- R72: `FLD`. A transfer outside `XB` or a bad register index is an illegal command. -/
def Obligations.FldResult : Prop :=
  ∀ (s : State) (m : Modulus) (rd : FReg) (off : Offset),
    (∀ d : DP, off.toNat + d.fieldLen m ≤ d.xbSize → decode d (packB 0x20 m.bit (indexField rd) off) = .ok (.fld m rd off)) ∧
    (∀ d : DP, d.xbSize < off.toNat + d.fieldLen m → ∀ i, decode d (packB 0x20 m.bit (indexField rd) off) ≠ .ok i) ∧
    (∀ (d : DP) (b : BitVec 4), 7 < b.toNat → ∀ i, decode d (packB 0x20 m.bit b off) ≠ .ok i) ∧
    (off.toNat + s.cfg.dp.fieldLen m ≤ s.cfg.dp.xbSize →
      (m = .p → s.load (effectiveAddress off) s.cfg.dp.lp < s.cfg.dp.p) →
      ∃ t, Completes (.fld m rd off) s t [rd] [] 0 0 ∧ t.getF rd = s.load (effectiveAddress off) (s.cfg.dp.fieldLen m)) ∧
    (off.toNat + s.cfg.dp.fieldLen m ≤ s.cfg.dp.xbSize → m = .p →
      s.cfg.dp.p ≤ s.load (effectiveAddress off) s.cfg.dp.lp → Raises (.fld m rd off) s false .outOfRangeInput)

/-- R73: `FST`. The stored bytes are the big-endian bytes of the register at the effective address. -/
def Obligations.FstResult : Prop :=
  ∀ (s : State) (m : Modulus) (rs : FReg) (off : Offset), s.xb.wf = true →
    (∀ d : DP, off.toNat + d.fieldLen m ≤ d.xbSize → decode d (packB 0x21 m.bit (indexField rs) off) = .ok (.fst m rs off)) ∧
    (∀ d : DP, d.xbSize < off.toNat + d.fieldLen m → ∀ i, decode d (packB 0x21 m.bit (indexField rs) off) ≠ .ok i) ∧
    (∀ (d : DP) (b : BitVec 4), 7 < b.toNat → ∀ i, decode d (packB 0x21 m.bit b off) ≠ .ok i) ∧
    (off.toNat + s.cfg.dp.fieldLen m ≤ s.cfg.dp.xbSize →
      s.getF rs < (if m = .p then s.cfg.dp.p else 2 ^ (8 * s.cfg.dp.ln)) →
      ∃ t, Completes (.fst m rs off) s t [] [] (effectiveAddress off) (s.cfg.dp.fieldLen m) ∧
        ∀ j, j < s.cfg.dp.fieldLen m →
          t.xb.get (effectiveAddress off + j) = BitVec.ofNat 8 (s.getF rs / 256 ^ (s.cfg.dp.fieldLen m - 1 - j) % 256)) ∧
    (off.toNat + s.cfg.dp.fieldLen m ≤ s.cfg.dp.xbSize →
      (if m = .p then s.cfg.dp.p else 2 ^ (8 * s.cfg.dp.ln)) ≤ s.getF rs → Raises (.fst m rs off) s false .outOfRangeInput)

/-- R74: `PLD`. The curve equation is not tested; the pair `(0, 0)` loads as an affine point. -/
def Obligations.PldResult : Prop :=
  ∀ (s : State) (rd : PReg) (off : Offset),
    (∀ d : DP, off.toNat + 2 * d.lp ≤ d.xbSize → decode d (packB 0x22 false (indexField rd) off) = .ok (.pld rd off)) ∧
    (∀ d : DP, d.xbSize < off.toNat + 2 * d.lp → ∀ i, decode d (packB 0x22 false (indexField rd) off) ≠ .ok i) ∧
    (∀ (d : DP) (m : Bool) (b : BitVec 4), m = true ∨ 3 < b.toNat → ∀ i, decode d (packB 0x22 m b off) ≠ .ok i) ∧
    (off.toNat + 2 * s.cfg.dp.lp ≤ s.cfg.dp.xbSize →
      s.load (effectiveAddress off) s.cfg.dp.lp < s.cfg.dp.p →
      s.load (effectiveAddress off + s.cfg.dp.lp) s.cfg.dp.lp < s.cfg.dp.p →
      ∃ t, Completes (.pld rd off) s t [] [rd] 0 0 ∧
        t.getP rd = .affine (s.load (effectiveAddress off) s.cfg.dp.lp) (s.load (effectiveAddress off + s.cfg.dp.lp) s.cfg.dp.lp)) ∧
    (off.toNat + 2 * s.cfg.dp.lp ≤ s.cfg.dp.xbSize →
      s.cfg.dp.p ≤ s.load (effectiveAddress off) s.cfg.dp.lp ∨
        s.cfg.dp.p ≤ s.load (effectiveAddress off + s.cfg.dp.lp) s.cfg.dp.lp →
      Raises (.pld rd off) s false .outOfRangeInput)

/-- R75: `PST`. `x` at the lower addresses, then `y`; Infinity has no encoding. -/
def Obligations.PstResult : Prop :=
  ∀ (s : State) (rs : PReg) (off : Offset), s.xb.wf = true →
    (∀ d : DP, off.toNat + 2 * d.lp ≤ d.xbSize → decode d (packB 0x23 false (indexField rs) off) = .ok (.pst rs off)) ∧
    (∀ d : DP, d.xbSize < off.toNat + 2 * d.lp → ∀ i, decode d (packB 0x23 false (indexField rs) off) ≠ .ok i) ∧
    (∀ (d : DP) (m : Bool) (b : BitVec 4), m = true ∨ 3 < b.toNat → ∀ i, decode d (packB 0x23 m b off) ≠ .ok i) ∧
    (∀ x y, off.toNat + 2 * s.cfg.dp.lp ≤ s.cfg.dp.xbSize → s.getP rs = .affine x y →
      ∃ t, Completes (.pst rs off) s t [] [] (effectiveAddress off) (2 * s.cfg.dp.lp) ∧
        (∀ j, j < s.cfg.dp.lp →
          t.xb.get (effectiveAddress off + j) = BitVec.ofNat 8 (x / 256 ^ (s.cfg.dp.lp - 1 - j) % 256)) ∧
        (∀ j, j < s.cfg.dp.lp →
          t.xb.get (effectiveAddress off + s.cfg.dp.lp + j) = BitVec.ofNat 8 (y / 256 ^ (s.cfg.dp.lp - 1 - j) % 256))) ∧
    (off.toNat + 2 * s.cfg.dp.lp ≤ s.cfg.dp.xbSize → s.getP rs = .infinity → Raises (.pst rs off) s false .noValidEncoding)

/-- R76: `WIPE`. -/
def Obligations.WipeResult : Prop :=
  ∀ (s : State) (rd : FReg),
    (∀ d, decode d (packR 0x60 false (indexField rd) 0 0 0) = .ok (.wipe rd)) ∧
    (∃ t, Completes (.wipe rd) s t [rd] [] 0 0 ∧ t.getF rd = 0)

/-- R36, R37, R72, R73: what `FST` stores, `FLD` with the same modulus and offset loads back. -/
def Obligations.StoredScalarLoadsBack : Prop :=
  ∀ (s t : State) (m : Modulus) (rs rd : FReg) (off : Offset), s.xb.wf = true →
    exec (.fst m rs off) s = .next t → t.err = 0 →
    ∃ u, exec (.fld m rd off) t = .next u ∧ u.err = 0 ∧ u.getF rd = s.getF rs

/-- R38, R74, R75: what `PST` stores, `PLD` at the same offset loads back, if the coordinates are in range (R23). -/
def Obligations.StoredPointLoadsBack : Prop :=
  ∀ (s t : State) (rs rd : PReg) (off : Offset), s.xb.wf = true → (s.getP rs).inRange s.cfg.dp.p = true →
    exec (.pst rs off) s = .next t → t.err = 0 →
    ∃ u, exec (.pld rd off) t = .next u ∧ u.err = 0 ∧ u.getP rd = s.getP rs

/-! ## The point commands -/

/-- R79: `PINF`. -/
def Obligations.PinfResult : Prop :=
  ∀ (s : State) (rd : PReg),
    (∀ d, decode d (packR 0x30 false (indexField rd) 0 0 0) = .ok (.pinf rd)) ∧
    (∃ t, Completes (.pinf rd) s t [] [rd] 0 0 ∧ t.getP rd = .infinity ∧ (t.getP rd).fields = (true, 0, 0))

/-- R80: `PISINF` looks at the tag alone; `Affine(0, 0)` is not Infinity. -/
def Obligations.PisinfResult : Prop :=
  ∀ (s : State) (ra : PReg),
    (∀ d, decode d (packR 0x31 false 0 (indexField ra) 0 0) = .ok (.pisinf ra)) ∧
    (s.getP ra = .infinity → Answers (.pisinf ra) s true) ∧
    (∀ x y, s.getP ra = .affine x y → Answers (.pisinf ra) s false)

/-- R81, R77: `PONC` answers whether `y² = x³ + a·x + b` modulo `p`; Infinity is on the curve; the command never raises. The
coordinates are in range by R23. -/
def Obligations.PoncResult : Prop :=
  ∀ (s : State) (ra : PReg), s.cfg.dp.Valid →
    (∀ d, decode d (packR 0x32 false 0 (indexField ra) 0 0) = .ok (.ponc ra)) ∧
    (s.getP ra = .infinity → Answers (.ponc ra) s true) ∧
    (∀ x y, s.getP ra = .affine x y → x < s.cfg.dp.p → y < s.cfg.dp.p →
      Answers (.ponc ra) s (decide (y ^ 2 % s.cfg.dp.p = (x ^ 3 + s.cfg.dp.a * x + s.cfg.dp.b) % s.cfg.dp.p)))

/-- R82, R78: `PNEG` keeps `x` and negates `y`. -/
def Obligations.PnegResult : Prop :=
  ∀ (s : State) (rd ra : PReg),
    (∀ d, decode d (packR 0x33 false (indexField rd) (indexField ra) 0 0) = .ok (.pneg rd ra)) ∧
    (s.getP ra = .infinity → ∃ t, Completes (.pneg rd ra) s t [] [rd] 0 0 ∧ t.getP rd = .infinity) ∧
    (∀ x y, s.getP ra = .affine x y → y < s.cfg.dp.p →
      ∃ t, Completes (.pneg rd ra) s t [] [rd] 0 0 ∧ t.getP rd = .affine x (if y = 0 then 0 else s.cfg.dp.p - y))

/-- R84: the three cases of doubling, the slope and the coordinates said by the equations they solve modulo `p`. -/
def Obligations.DoublingFormulas : Prop :=
  ∀ d : DP, d.Valid →
    pdbl d .infinity = .ok .infinity ∧
    (∀ x, pdbl d (.affine x 0) = .ok .infinity) ∧
    (∀ x y, x < d.p → y < d.p → y ≠ 0 →
      ∃ lam x3 y3, pdbl d (.affine x y) = .ok (.affine x3 y3) ∧ x3 < d.p ∧ y3 < d.p ∧
        lam * (2 * y) % d.p = (3 * x ^ 2 + d.a) % d.p ∧
        (x3 + 2 * x) % d.p = lam ^ 2 % d.p ∧
        (y3 + y + lam * x3) % d.p = lam * x % d.p)

/-- R85: `PDBL` writes the double; for coordinates in range (R23) no error is possible. It writes what `PADD` of the point with
itself writes. -/
def Obligations.PdblResult : Prop :=
  ∀ (s : State) (rd ra : PReg), s.cfg.dp.Valid → (s.getP ra).inRange s.cfg.dp.p = true →
    (∀ d, decode d (packR 0x34 false (indexField rd) (indexField ra) 0 0) = .ok (.pdbl rd ra)) ∧
    (∃ t w, Completes (.pdbl rd ra) s t [] [rd] 0 0 ∧ pdbl s.cfg.dp (s.getP ra) = .ok w ∧ t.getP rd = w ∧
      (s.getP ra = .infinity → w = .infinity) ∧
      (∀ x, s.getP ra = .affine x 0 → w = .infinity) ∧
      (∃ u, Completes (.padd rd ra ra) s u [] [rd] 0 0 ∧ u.getP rd = w))

/-- R87: the five cases of addition, in their order; the slope and the coordinates of the last one said by the equations they solve
modulo `p`. -/
def Obligations.AdditionCases : Prop :=
  ∀ d : DP, d.Valid →
    (∀ w, padd d .infinity w = .ok w) ∧
    (∀ v, padd d v .infinity = .ok v) ∧
    (∀ x y1 y2, y1 ≠ y2 → padd d (.affine x y1) (.affine x y2) = .ok .infinity) ∧
    (∀ v, padd d v v = pdbl d v) ∧
    (∀ x1 y1 x2 y2, x1 < d.p → y1 < d.p → x2 < d.p → y2 < d.p → x1 ≠ x2 →
      ∃ lam x3 y3, padd d (.affine x1 y1) (.affine x2 y2) = .ok (.affine x3 y3) ∧ x3 < d.p ∧ y3 < d.p ∧
        (lam * x2 + y1) % d.p = (lam * x1 + y2) % d.p ∧
        (x3 + x1 + x2) % d.p = lam ^ 2 % d.p ∧
        (y3 + y1 + lam * x3) % d.p = lam * x1 % d.p)

/-- R88: `PADD` writes the sum; for coordinates in range (R23) no error is possible. Adding Infinity changes nothing, a point and
its negation sum to Infinity, and equal operands are doubled. -/
def Obligations.PaddResult : Prop :=
  ∀ (s : State) (rd ra rb : PReg), s.cfg.dp.Valid → (s.getP ra).inRange s.cfg.dp.p = true →
    (s.getP rb).inRange s.cfg.dp.p = true →
    (∀ d, decode d (packR 0x35 false (indexField rd) (indexField ra) (indexField rb) 0) = .ok (.padd rd ra rb)) ∧
    (∃ t w, Completes (.padd rd ra rb) s t [] [rd] 0 0 ∧ padd s.cfg.dp (s.getP ra) (s.getP rb) = .ok w ∧ t.getP rd = w ∧
      (s.getP rb = .infinity → w = s.getP ra) ∧ (s.getP ra = .infinity → w = s.getP rb) ∧
      (pneg s.cfg.dp (s.getP ra) = .ok (s.getP rb) → w = .infinity) ∧
      (s.getP ra = s.getP rb → pdbl s.cfg.dp (s.getP ra) = .ok w))

/-- R77, R78, R84, R87: on reduced operands no error leaves a point function, results are reduced (R23), and results of operands on
the curve are on the curve; addition is commutative on or off the curve. -/
def Obligations.GroupLawIsClosed : Prop :=
  ∀ (d : DP) (v w : PointValue), d.Valid → v.inRange d.p = true → w.inRange d.p = true →
    (∃ b, onCurve d v = .ok b) ∧
    (∃ u, pneg d v = .ok u ∧ u.inRange d.p = true ∧ (onCurve d v = .ok true → onCurve d u = .ok true)) ∧
    (∃ u, pdbl d v = .ok u ∧ u.inRange d.p = true ∧ (onCurve d v = .ok true → onCurve d u = .ok true)) ∧
    (∃ u, padd d v w = .ok u ∧ padd d w v = .ok u ∧ u.inRange d.p = true ∧
      (onCurve d v = .ok true → onCurve d w = .ok true → onCurve d u = .ok true))

/-! ## Scalar multiplication -/

/-- R94, R90: `SMUL` tests the range of `k`, then `k = 0`, then the curve, and writes the result of the loop of R91. -/
def Obligations.SmulResult : Prop :=
  ∀ (s : State) (rd ra : PReg) (rk : FReg),
    (∀ d, decode d (packR 0x40 false (indexField rd) (indexField ra) (indexField rk) 0) = .ok (.smul rd ra rk)) ∧
    (2 ^ s.cfg.dp.nb ≤ s.getF rk → Raises (.smul rd ra rk) s false .outOfRangeInput) ∧
    (s.getF rk = 0 → ∃ t, Completes (.smul rd ra rk) s t [] [rd] 0 0 ∧ t.getP rd = .infinity) ∧
    (s.getF rk < 2 ^ s.cfg.dp.nb → s.getF rk ≠ 0 → onCurve s.cfg.dp (s.getP ra) = .ok false →
      Raises (.smul rd ra rk) s false .pointNotOnCurve) ∧
    (s.getF rk < 2 ^ s.cfg.dp.nb → s.getF rk ≠ 0 → s.cfg.dp.Valid → (s.getP ra).inRange s.cfg.dp.p = true →
      onCurve s.cfg.dp (s.getP ra) = .ok true →
      ∃ t w, Completes (.smul rd ra rk) s t [] [rd] 0 0 ∧ t.getP rd = w ∧
        smulLoop s.cfg.dp (s.getF rk) (s.getP ra) s.cfg.dp.nb .infinity = .ok w)

/-- R93: the multiples 0 and 1, the homomorphism for every point of the curve (`G` is one), the `k`-fold sum, and the order of
`G`, so that no `k·G` with `1 ≤ k < n` is Infinity (R98). Beyond `2^NB` the product raises. -/
def Obligations.ScalarMultiplicationLaws : Prop :=
  ∀ d : DP, d.Valid →
    (∀ v, smul d 0 v = .ok .infinity) ∧
    (∀ v, v.inRange d.p = true → onCurve d v = .ok true →
      smul d 1 v = .ok v ∧
      (∀ i j, i + j < 2 ^ d.nb →
        ∃ x y z, smul d i v = .ok x ∧ smul d j v = .ok y ∧ smul d (i + j) v = .ok z ∧ padd d x y = .ok z) ∧
      (∀ i j, 2 ^ d.nb ≤ i + j → smul d (i + j) v = .error .outOfRangeInput) ∧
      (∀ k, k < 2 ^ d.nb → ∃ w, smul d k v = .ok w ∧ multiple d v k = .ok w)) ∧
    smul d d.n (basePoint d) = .ok .infinity ∧
    (∀ k, k < 2 ^ d.nb → smul d k (basePoint d) = smul d (k % d.n) (basePoint d)) ∧
    (∀ k, 1 ≤ k → k < d.n → ∃ x y, smul d k (basePoint d) = .ok (.affine x y))

/-! ## Key generation, signing, verification -/

/-- R98: `KEYGEN`. The drawn scalar and its public point, which is on the curve, or `EntropyExhausted`. -/
def Obligations.KeygenResult : Prop :=
  ∀ (s : State) (rd : FReg) (rq : PReg), s.cfg.Valid →
    (∀ d, decode d (packR 0x50 false (indexField rd) (indexField rq) 0 0) = .ok (.keygen rd rq)) ∧
    (∀ k rest, DrawsScalar s.cfg s.rng k rest →
      ∃ t q, CompletesDrawing (.keygen rd rq) s t [rd] [rq] rest ∧ t.getF rd = k ∧ t.getP rq = q ∧
        smul s.cfg.dp k (basePoint s.cfg.dp) = .ok q ∧ 1 ≤ k ∧ k ≤ s.cfg.dp.n - 1 ∧
        onCurve s.cfg.dp q = .ok true) ∧
    (∀ rest, DrawGivesUp s.cfg s.rng rest → RaisesDrawing (.keygen rd rq) s .entropyExhausted rest)

/-- R101, R100: `SIGN`. The private scalar is tested before any request; equal destinations are an illegal command; the result is
in the Signature type. -/
def Obligations.SignResult : Prop :=
  ∀ (s : State) (rr rs re rd : FReg), s.cfg.Valid →
    (∀ d, rr ≠ rs → decode d (packR 0x51 false (indexField rr) (indexField rs) (indexField re) (indexField rd)) =
      .ok (.sign rr rs re rd)) ∧
    (∀ d i, rr = rs → decode d (packR 0x51 false (indexField rr) (indexField rs) (indexField re) (indexField rd)) ≠ .ok i) ∧
    (rr ≠ rs → s.getF rd = 0 ∨ s.cfg.dp.n ≤ s.getF rd → Raises (.sign rr rs re rd) s false .outOfRangeInput) ∧
    (∀ r sig rest, rr ≠ rs → 1 ≤ s.getF rd → s.getF rd < s.cfg.dp.n →
      SignReturns s.cfg (s.getF re % s.cfg.dp.n) (s.getF rd) s.rng r sig rest →
      ∃ t, CompletesDrawing (.sign rr rs re rd) s t [rr, rs] [] rest ∧ t.getF rr = r ∧ t.getF rs = sig ∧
        1 ≤ r ∧ r ≤ s.cfg.dp.n - 1 ∧ 1 ≤ sig ∧ sig ≤ s.cfg.dp.n - 1) ∧
    (∀ rest, rr ≠ rs → 1 ≤ s.getF rd → s.getF rd < s.cfg.dp.n →
      SignGivesUp s.cfg (s.getF re % s.cfg.dp.n) (s.getF rd) s.rng rest →
      RaisesDrawing (.sign rr rs re rd) s .entropyExhausted rest)

/-- R96, R105, R120 and log 3: `KEYGEN` and `SIGN` that have used every answer there is and need one more wait with `BUSY = 1`. That
the answers stand in a list, and that the block waits at its end, is the model's choice. -/
def Obligations.CommandsWaitForAnswers : Prop :=
  ∀ s : State, s.cfg.Valid →
    (∀ rd rq, DrawWaits s.cfg s.rng → ∃ t, exec (.keygen rd rq) s = .next t ∧ Waits (.keygen rd rq) s t) ∧
    (∀ rr rs re rd, rr ≠ rs → 1 ≤ s.getF rd → s.getF rd < s.cfg.dp.n →
      SignWaits s.cfg (s.getF re % s.cfg.dp.n) (s.getF rd) s.rng →
      ∃ t, exec (.sign rr rs re rd) s = .next t ∧ Waits (.sign rr rs re rd) s t)

/-- R103, R102: `VERIFY`. The range of the signature first, then the public point, then the equation; a rejection is an answer. -/
def Obligations.VerifyResult : Prop :=
  ∀ (s : State) (rr rs re : FReg) (rq : PReg),
    (∀ d, decode d (packR 0x52 false (indexField rr) (indexField rs) (indexField re) (indexField rq)) =
      .ok (.verify rr rs re rq)) ∧
    (¬ (1 ≤ s.getF rr ∧ s.getF rr < s.cfg.dp.n ∧ 1 ≤ s.getF rs ∧ s.getF rs < s.cfg.dp.n) →
      Raises (.verify rr rs re rq) s true .invalidSignatureRange) ∧
    (1 ≤ s.getF rr → s.getF rr < s.cfg.dp.n → 1 ≤ s.getF rs → s.getF rs < s.cfg.dp.n →
      s.getP rq = .infinity ∨ onCurve s.cfg.dp (s.getP rq) = .ok false →
      Raises (.verify rr rs re rq) s true .pointNotOnCurve) ∧
    (1 ≤ s.getF rr → s.getF rr < s.cfg.dp.n → 1 ≤ s.getF rs → s.getF rs < s.cfg.dp.n → s.cfg.dp.Valid →
      s.getP rq ≠ .infinity → (s.getP rq).inRange s.cfg.dp.p = true → onCurve s.cfg.dp (s.getP rq) = .ok true →
      ∃ w v1 v2 v b, finv s.cfg.dp.n (s.getF rs) = .ok w ∧
        smul s.cfg.dp (s.getF re % s.cfg.dp.n * w % s.cfg.dp.n) (basePoint s.cfg.dp) = .ok v1 ∧
        smul s.cfg.dp (s.getF rr * w % s.cfg.dp.n) (s.getP rq) = .ok v2 ∧ padd s.cfg.dp v1 v2 = .ok v ∧
        (b = true ↔ ∃ x y, v = .affine x y ∧ x % s.cfg.dp.n = s.getF rr) ∧
        Answers (.verify rr rs re rq) s b)

/-- R106: what `SIGN` returns for the private scalar of a key pair that `KEYGEN` made, `VERIFY` accepts for the same digest with
the public point of the pair, whatever the RNG answered. -/
def Obligations.SignedMessageVerifies : Prop :=
  ∀ (g g' s t u : State) (kd rr rs re rd vr vs ve : FReg) (kq vq : PReg), g.cfg.Valid →
    exec (.keygen kd kq) g = .next g' → g'.busy = none → g'.err = 0 →
    s.cfg = g.cfg → s.getF rd = g'.getF kd →
    exec (.sign rr rs re rd) s = .next t → t.busy = none → t.err = 0 →
    u.cfg = g.cfg → u.getF vr = t.getF rr → u.getF vs = t.getF rs → u.getF ve = s.getF re → u.getP vq = g'.getP kq →
    Answers (.verify vr vs ve vq) u true

/-- R99: `VERIFY` and `SIGN` use the digest modulo `n` only: two congruent digests verify alike and sign alike. -/
def Obligations.CongruentDigestsAreAlike : Prop :=
  ∀ (s s' : State) (rr rs re rd : FReg) (rq : PReg),
    s'.cfg = s.cfg → s'.rng = s.rng → s'.getF re % s.cfg.dp.n = s.getF re % s.cfg.dp.n →
    (s'.getF rr = s.getF rr → s'.getF rs = s.getF rs → s'.getP rq = s.getP rq →
      ∃ t t', exec (.verify rr rs re rq) s = .next t ∧ exec (.verify rr rs re rq) s' = .next t' ∧ t'.t = t.t ∧ t'.err = t.err) ∧
    (s'.getF rd = s.getF rd →
      ∃ t t', exec (.sign rr rs re rd) s = .next t ∧ exec (.sign rr rs re rd) s' = .next t' ∧ t'.busy = t.busy ∧
        t'.rng = t.rng ∧ (t.busy = none → t'.err = t.err ∧ (t.err = 0 → t'.getF rr = t.getF rr ∧ t'.getF rs = t.getF rs)))

/-- R96, R97, R100: every list of RNG answers makes a draw, and an attempt to sign, return, give up or wait. -/
def Obligations.EveryAnswerListDecides : Prop :=
  ∀ (c : Config) (a : List RngAnswer), c.Valid →
    ((∃ k rest, DrawsScalar c a k rest) ∨ (∃ rest, DrawGivesUp c a rest) ∨ DrawWaits c a) ∧
    (∀ e sk, e < c.dp.n → 1 ≤ sk → sk < c.dp.n →
      (∃ r sig rest, SignReturns c e sk a r sig rest) ∨ (∃ rest, SignGivesUp c e sk a rest) ∨ SignWaits c e sk a)

/-- R105: against an RNG that only answers values outside `[1, n−1]`, or for `SIGN` values `k` with `x(k·G) mod n = 0`, the command
never completes: `BUSY` stays 1 and nothing is written, and with no more moves of the outside world the state stays. -/
def Obligations.UnusableAnswersNeverEnd : Prop :=
  ∀ s : State, s.cfg.Valid →
    (∀ rd rq, (∀ a ∈ s.rng, ∃ v, a = .value v ∧ ¬ (1 ≤ v ∧ v ≤ s.cfg.dp.n - 1)) →
      ∃ t, exec (.keygen rd rq) s = .next t ∧ Waits (.keygen rd rq) s t) ∧
    (∀ rr rs re rd, rr ≠ rs → 1 ≤ s.getF rd → s.getF rd < s.cfg.dp.n →
      (∀ a ∈ s.rng, ∃ v, a = .value v ∧ (¬ (1 ≤ v ∧ v ≤ s.cfg.dp.n - 1) ∨
        ∃ x y, smul s.cfg.dp v (basePoint s.cfg.dp) = .ok (.affine x y) ∧ x % s.cfg.dp.n = 0)) →
      ∃ t, exec (.sign rr rs re rd) s = .next t ∧ Waits (.sign rr rs re rd) s t) ∧
    (s.busy ≠ none → s.rng = [] → s.env = [] → step s = .next s)

/-- R96, R120 and log 3: a command that waited after the answers `a` and goes on, with the answers `b` or with the answer `x` that
a step brings, comes to the state it would have come to with all of them at hand, up to the unspecified `TMP` and the count of
free values. -/
def Obligations.LateAnswersMakeNoDifference : Prop :=
  ∀ (s u : State) (c : Running) (a : List RngAnswer), exec c.instr { s with rng := a } = .next u → u.busy = some c →
    (∀ b v, resume c { u with rng := b } = .next v →
      ∃ w, exec c.instr { s with rng := a ++ b } = .next w ∧ w.upToFree = v.upToFree) ∧
    (∀ x rest v, step { u with env := .rngAnswer x :: rest } = .next v →
      ∃ w, exec c.instr { s with rng := a ++ [x], env := rest } = .next w ∧ w.upToFree = v.upToFree)

/-- R104, R31: whenever a command completes, started or resumed, by success or by any error, every hidden register is zero. -/
def Obligations.SecretsAreWiped : Prop :=
  (∀ (i : Instr) (s t : State), exec i s = .next t → t.busy = none → t.hid = Hidden.zero) ∧
  (∀ (c : Running) (s t : State), resume c s = .next t → t.busy = none → t.hid = Hidden.zero)

/-! ## Whole-machine rules -/

/-- 93_implementation_defined.md, after U13: a legal command has exactly one outcome, or waits for the RNG. No command faults or is
refused; only `KEYGEN` and `SIGN` wait (R105). -/
def Obligations.EveryCommandEndsOrWaits : Prop :=
  ∀ (i : Instr) (s : State), ∃ t, exec i s = .next t ∧
    (t.busy = none ∨ ∃ c : Running, c.instr = i ∧ Waits c s t)

/-- R114: what a command that ends leaves. With an error: `ERR` the code, `T` cleared by a predicate command unless the error is
`IllegalCommand`, hidden registers zero, `BUSY` 0, nothing else written. Without: `ERR` 0, hidden registers zero, `BUSY` 0. -/
def Obligations.ErroringCommandWritesNothing : Prop :=
  ∀ (i : Instr) (s t : State), exec i s = .next t → t.busy = none →
    (Ended t 0 ∨ ∃ e : ErrorKind, Ended t e.code) ∧
    (∀ e : ErrorKind, t.err = e.code → Ended t e.code ∧ Unchanged s t [] [] 0 0 ∧
      t.t = if isPredicate i = true ∧ e ≠ .illegalCommand then false else s.t)

/-- R21, R22, R24, R29, R30: what a command may write at all: its destination registers, the bytes it stores to, `T` for a predicate
command, and answers taken from the front for `KEYGEN` and `SIGN`. -/
def Obligations.OnlyDestinationsChange : Prop :=
  ∀ (i : Instr) (s t : State), s.xb.wf = true → exec i s = .next t →
    Unchanged s t (scalarDests i) (pointDests i) (storedBytes s.cfg.dp i).1 (storedBytes s.cfg.dp i).2 ∧
    (isPredicate i = false → t.t = s.t) ∧
    (∃ taken, s.rng = taken ++ t.rng) ∧
    (i.op ≠ .keygen → i.op ≠ .sign → t.rng = s.rng)

/-- R112: a legal command on a state that keeps the invariants ends only with an error of its filled cells. -/
def Obligations.OnlyListedErrors : Prop :=
  ∀ (i : Instr) (s t : State) (e : ErrorKind), s.cfg.Valid → s.Inv → i.wellFormed s.cfg.dp = true →
    exec i s = .next t → t.busy = none → t.err = e.code → e ∈ possibleErrors i

/-- R31, R34, R96: no command lets a hidden register out. A command that starts has the same effect whatever they held; neither
`STATUS` nor a byte of `XB` shows them; and a command that waited and goes on reads none of them but `TRY`: with the same `TRY` it
ends in the very same state, or waits again in the same state up to what the hidden registers other than `TRY` hold. -/
def Obligations.HiddenRegistersAreNoOperands : Prop :=
  (∀ (i : Instr) (s : State) (h : Hidden), exec i { s with hid := h } = exec i s) ∧
  (∀ (s : State) (h : Hidden) (a : Nat),
    ({ s with hid := h } : State).status = s.status ∧ ({ s with hid := h } : State).hostRead a = s.hostRead a) ∧
  (∀ (c : Running) (s : State) (h : Hidden), h.tries = s.hid.tries →
    ∃ t t', resume c s = .next t ∧ resume c { s with hid := h } = .next t' ∧ t' = { t with hid := t'.hid } ∧
      t'.hid.tries = t.hid.tries ∧ (t.busy = none → t' = t))

/-- R24, R25: no command reads `T` or `ERR`: registers, buffer, completion code and the answers left do not depend on them, nor
does the answer of a predicate command that is not an illegal command. -/
def Obligations.FlagsAreNoOperands : Prop :=
  ∀ (i : Instr) (s t : State) (b : Bool) (e : BitVec 4), exec i s = .next t →
    ∃ t', exec i { s with t := b, err := e } = .next t' ∧ t'.f = t.f ∧ t'.pt = t.pt ∧ t'.xb = t.xb ∧ t'.rng = t.rng ∧
      t'.busy = t.busy ∧ t'.hid = t.hid ∧ (t.busy = none → t'.err = t.err) ∧ (t.busy ≠ none → t'.err = e) ∧
      (isPredicate i = true → t.err ≠ ErrorKind.illegalCommand.code → t'.t = t.t) ∧ (isPredicate i = false → t'.t = b)

/-- R32: the constant table is written by nothing. -/
def Obligations.ConstantTableIsNeverWritten : Prop :=
  ∀ (s t : State), step s = .next t → t.cfg = s.cfg

/-- R25: `ERR` is written when a command completes and at reset, never 8 to 15, and by nothing else: not while a command runs, not
by a host access, not by an answer of the RNG that comes to an idle block, which is kept and changes nothing else (log 3). -/
def Obligations.ErrIsWrittenAtCompletion : Prop :=
  (∀ (s t : State), step s = .next t → t.err ≠ s.err → t.busy = none) ∧
  (∀ (i : Instr) (s t : State), exec i s = .next t → t.busy = none → t.err.toNat < 8) ∧
  (∀ (s t : State) (rest : List Event) (a : Nat) (v : Byte), s.busy = none → s.env = .xbWrite a v :: rest →
    step s = .next t → t.err = s.err) ∧
  (∀ (s : State) (rest : List Event) (x : RngAnswer), s.busy = none → s.env = .rngAnswer x :: rest →
    step s = .next ((s.setEnv rest).deliver x) ∧ ((s.setEnv rest).deliver x).err = s.err)

/-- R26: the status word is a view of `ERR`, `T` and `BUSY`, in every state; a command that has not completed leaves `ERR` and `T`
at the values of the previous one, so that only bit 5 differs when it starts, and no step changes them unless it leaves `BUSY` at 0. -/
def Obligations.StatusWordLayout : Prop :=
  (∀ s : State, s.status.toNat = s.err.toNat + (if s.t = true then 16 else 0) + (if s.busy = none then 0 else 32)) ∧
  (∀ (i : Instr) (s t : State), s.busy = none → exec i s = .next t → t.busy ≠ none → t.status.toNat = s.status.toNat + 32) ∧
  (∀ s t : State, step s = .next t → t.busy ≠ none → t.err = s.err ∧ t.t = s.t)

/-- R33, R130: reset, as the state the machine starts in and as a move in every state, whatever command runs and whatever RNG answers
there are: a command that ran is abandoned. The constant table stays. -/
def Obligations.ResetValues : Prop :=
  (∀ i, State.reset.getF i = 0) ∧ (∀ i, State.reset.getP i = .infinity) ∧ State.reset.t = false ∧ State.reset.err = 0 ∧
  State.reset.busy = none ∧ (∀ a, State.reset.xb.get a = 0) ∧ State.reset.hid = Hidden.zero ∧
  (∀ (s : State) (rest : List Event), s.env = .reset :: rest →
    ∃ t, step s = .next t ∧ (∀ i, t.getF i = 0) ∧ (∀ i, t.getP i = .infinity ∧ (t.getP i).fields = (true, 0, 0)) ∧ t.t = false ∧
      t.err = 0 ∧ t.busy = none ∧ (∀ a, t.xb.get a = 0) ∧ t.hid = Hidden.zero ∧ t.cfg = s.cfg)

/-- R27, R28 and log 7: a word written to `CMD` of an idle block runs the command it decodes to, and `withFetchWord` presents a word
so; an RNG answer makes the command that waits go on; reset is made in every state and leaves the inputs; with no move to make the
state stays. That the moves stand in a list, one a step, is the model's choice (log 5). -/
def Obligations.StepRunsTheDecodedWord : Prop :=
  (∀ (s : State) (w : Word) (rest : List Event) (i : Instr), s.busy = none → s.env = .cmd w :: rest →
    decode s.cfg.dp w = .ok i → step s = exec i (s.setEnv rest)) ∧
  (∀ (s : State) (nbits w : Nat) (i : Instr), decode s.cfg.dp (BitVec.ofNat 32 w) = .ok i →
    step (s.withFetchWord nbits w) = exec i { s with busy := none }) ∧
  (∀ (s : State) (c : Running) (x : RngAnswer) (rest : List Event), s.busy = some c → s.env = .rngAnswer x :: rest →
    step s = resume c ((s.setEnv rest).deliver x)) ∧
  (∀ (s : State) (rest : List Event), s.env = .reset :: rest → step s = .next (s.setEnv rest).applyReset) ∧
  (∀ s : State, s.env = [] → step s = .next s)

/-- R41: while `BUSY = 0` the host writes and reads the bytes of `XB`, and a write changes that byte alone. An access beyond the
buffer has no meaning in the spec; that the model faults there is its own choice (log 11). -/
def Obligations.HostAccessesToTheBuffer : Prop :=
  ∀ (s : State) (a : Nat) (v : Byte) (rest : List Event), s.xb.wf = true → s.busy = none →
    (a < s.cfg.dp.xbSize → s.env = .xbWrite a v :: rest →
      ∃ t, step s = .next t ∧ t.xb.get a = v ∧ Unchanged (s.setEnv rest) t [] [] a 1 ∧ t.t = s.t ∧ t.err = s.err ∧
        t.busy = none ∧ t.hid = s.hid ∧ t.rng = s.rng ∧ t.hostRead a = .next v) ∧
    (a < s.cfg.dp.xbSize → s.hostRead a = .next (s.xb.get a)) ∧
    (s.cfg.dp.xbSize ≤ a → s.env = .xbWrite a v :: rest → step s = .fault (.noSuchByte a)) ∧
    (s.cfg.dp.xbSize ≤ a → s.hostRead a = .fault (.noSuchByte a))

/-- R42 and U6: while `BUSY = 1` a host access to `CMD` or `XB` is outside the contract; the model refuses it (log 6). -/
def Obligations.AccessesWhileBusyAreRefused : Prop :=
  ∀ (s : State) (c : Running) (rest : List Event), s.busy = some c →
    (∀ w, s.env = .cmd w :: rest → step s = .refused .hostAccessWhileBusy) ∧
    (∀ a v, s.env = .xbWrite a v :: rest → step s = .refused .hostAccessWhileBusy) ∧
    (∀ a, s.hostRead a = .refused .hostAccessWhileBusy)

/-- R21, R23, R25, R29, R31, R96, R120: every step of the machine keeps the invariant. -/
def Obligations.StepKeepsTheInvariant : Prop :=
  ∀ (s t : State), s.Inv → step s = .next t → t.Inv

/-- The state after reset has the invariant (R33). -/
def Obligations.ResetHasTheInvariant : Prop :=
  State.reset.Inv
end

