-- ==== Sys2Proof/Laws/Encoding.lean ====
section
/-! SUPPORT. The fields of a packed word are the fields it was packed from, and register indices survive their 4-bit field. -/

namespace Sys2Proof

/-- The bits of a format-R word (R46). -/
theorem getLsbD_packR (opc : BitVec 8) (m : Bool) (rd ra rb rc : BitVec 4) (j : Nat) :
    (packR opc m rd ra rb rc).getLsbD j =
      if j < 4 then false
      else if j < 8 then rc.getLsbD (j - 4)
      else if j < 12 then rb.getLsbD (j - 8)
      else if j < 16 then ra.getLsbD (j - 12)
      else if j < 20 then rd.getLsbD (j - 16)
      else if j < 23 then false
      else if j < 24 then m
      else opc.getLsbD (j - 24) := by
  have h : (packR opc m rd ra rb rc).getLsbD j =
      BitVec.getLsbD (w := 8 + 1 + 3 + 4 + 4 + 4 + 4 + 4)
        (opc ++ BitVec.ofBool m ++ 0#3 ++ rd ++ ra ++ rb ++ rc ++ 0#4) j := rfl
  rw [h]
  simp only [BitVec.getLsbD_append, BitVec.getLsbD_ofBool, BitVec.getLsbD_zero]
  simp only [Nat.sub_sub, Nat.reduceAdd]
  split_ifs <;> first | rfl | omega | simp_all

/-- The bits of a format-B word (R47). -/
theorem getLsbD_packB (opc : BitVec 8) (m : Bool) (rd : BitVec 4) (off : Offset) (j : Nat) :
    (packB opc m rd off).getLsbD j =
      if j < 16 then off.getLsbD j
      else if j < 20 then rd.getLsbD (j - 16)
      else if j < 23 then false
      else if j < 24 then m
      else opc.getLsbD (j - 24) := by
  have h : (packB opc m rd off).getLsbD j =
      BitVec.getLsbD (w := 8 + 1 + 3 + 4 + 16) (opc ++ BitVec.ofBool m ++ 0#3 ++ rd ++ off) j := rfl
  rw [h]
  simp only [BitVec.getLsbD_append, BitVec.getLsbD_ofBool, BitVec.getLsbD_zero]
  simp only [Nat.sub_sub, Nat.reduceAdd]
  split_ifs <;> first | rfl | omega | simp_all

/-- The fields of a format-R word are those it was packed from; its reserved fields are zero. -/
theorem split_packR (opc : BitVec 8) (m : Bool) (rd ra rb rc : BitVec 4) :
    split (packR opc m rd ra rb rc) =
      { opc := opc, m := m, rsv := 0, rd := rd, ra := ra, rb := rb, rc := rc, z := 0
        off := (packR opc m rd ra rb rc).extractLsb' 0 16 } := by
  simp only [split, Fields.mk.injEq, and_true]
  refine ⟨?_, ?_, ?_, ?_, ?_, ?_, ?_, ?_⟩
  · refine BitVec.eq_of_getLsbD_eq fun i hi => ?_
    simp [getLsbD_packR, hi, show ¬ 24 + i < 4 by omega, show ¬ 24 + i < 8 by omega, show ¬ 24 + i < 12 by omega,
      show ¬ 24 + i < 16 by omega, show ¬ 24 + i < 20 by omega, show ¬ 24 + i < 23 by omega]
  · rw [getLsbD_packR]; simp
  · refine BitVec.eq_of_getLsbD_eq fun i hi => ?_
    simp [getLsbD_packR, hi, show ¬ 20 + i < 4 by omega, show ¬ 20 + i < 8 by omega, show ¬ 20 + i < 12 by omega,
      show ¬ 20 + i < 16 by omega, show 20 + i < 23 by omega]
  · refine BitVec.eq_of_getLsbD_eq fun i hi => ?_
    simp [getLsbD_packR, hi, show ¬ 16 + i < 4 by omega, show ¬ 16 + i < 8 by omega, show ¬ 16 + i < 12 by omega,
      show 16 + i < 20 by omega]
  · refine BitVec.eq_of_getLsbD_eq fun i hi => ?_
    simp [getLsbD_packR, hi, show ¬ 12 + i < 4 by omega, show ¬ 12 + i < 8 by omega, show 12 + i < 16 by omega]
  · refine BitVec.eq_of_getLsbD_eq fun i hi => ?_
    simp [getLsbD_packR, hi, show ¬ 8 + i < 4 by omega, show 8 + i < 12 by omega]
  · refine BitVec.eq_of_getLsbD_eq fun i hi => ?_
    simp [getLsbD_packR, hi, show ¬ 4 + i < 4 by omega, show 4 + i < 8 by omega]
  · refine BitVec.eq_of_getLsbD_eq fun i hi => ?_
    simp [getLsbD_packR, hi]

/-- The fields of a format-B word that its format has are those it was packed from. -/
theorem split_packB (opc : BitVec 8) (m : Bool) (rd : BitVec 4) (off : Offset) :
    let x := split (packB opc m rd off)
    x.opc = opc ∧ x.m = m ∧ x.rsv = 0 ∧ x.rd = rd ∧ x.off = off := by
  simp only [split]
  refine ⟨?_, ?_, ?_, ?_, ?_⟩
  · refine BitVec.eq_of_getLsbD_eq fun i hi => ?_
    simp [getLsbD_packB, hi, show ¬ 24 + i < 16 by omega, show ¬ 24 + i < 20 by omega, show ¬ 24 + i < 23 by omega]
  · rw [getLsbD_packB]; simp
  · refine BitVec.eq_of_getLsbD_eq fun i hi => ?_
    simp [getLsbD_packB, hi, show ¬ 20 + i < 16 by omega, show 20 + i < 23 by omega]
  · refine BitVec.eq_of_getLsbD_eq fun i hi => ?_
    simp [getLsbD_packB, hi, show 16 + i < 20 by omega]
  · refine BitVec.eq_of_getLsbD_eq fun i hi => ?_
    simp [getLsbD_packB, hi]

/-- A word is packed from its own fields, in either format. -/
theorem packR_split (w : Word) (hr : (split w).rsv = 0) (hz : (split w).z = 0) :
    packR (split w).opc (split w).m (split w).rd (split w).ra (split w).rb (split w).rc = w := by
  have hr' : ∀ i, i < 3 → w.getLsbD (20 + i) = false := fun i hi => by
    have := congrArg (BitVec.getLsbD · i) hr
    simpa [split, hi] using this
  have hz' : ∀ i, i < 4 → w.getLsbD i = false := fun i hi => by
    have := congrArg (BitVec.getLsbD · i) hz
    simpa [split, hi] using this
  refine BitVec.eq_of_getLsbD_eq fun i hi => ?_
  rw [getLsbD_packR]
  simp only [split, BitVec.getLsbD_extractLsb']
  split_ifs
  · exact (hz' i (by omega)).symm
  · simp [show i - 4 < 4 by omega, show 4 + (i - 4) = i by omega]
  · simp [show i - 8 < 4 by omega, show 8 + (i - 8) = i by omega]
  · simp [show i - 12 < 4 by omega, show 12 + (i - 12) = i by omega]
  · simp [show i - 16 < 4 by omega, show 16 + (i - 16) = i by omega]
  · have := hr' (i - 20) (by omega)
    rw [show 20 + (i - 20) = i by omega] at this
    exact this.symm
  · simp [show i = 23 by omega]
  · simp [show i - 24 < 8 by omega, show 24 + (i - 24) = i by omega]

theorem packB_split (w : Word) (hr : (split w).rsv = 0) :
    packB (split w).opc (split w).m (split w).rd (split w).off = w := by
  have hr' : ∀ i, i < 3 → w.getLsbD (20 + i) = false := fun i hi => by
    have := congrArg (BitVec.getLsbD · i) hr
    simpa [split, hi] using this
  refine BitVec.eq_of_getLsbD_eq fun i hi => ?_
  rw [getLsbD_packB]
  simp only [split, BitVec.getLsbD_extractLsb']
  split_ifs
  · simp [show i < 16 by omega]
  · simp [show i - 16 < 4 by omega, show 16 + (i - 16) = i by omega]
  · have := hr' (i - 20) (by omega)
    rw [show 20 + (i - 20) = i by omega] at this
    exact this.symm
  · simp [show i = 23 by omega]
  · simp [show i - 24 < 8 by omega, show 24 + (i - 24) = i by omega]

/-! ### Register indices and the modulus bit -/

@[simp] theorem fIndex_indexField (i : FReg) : fIndex (indexField i) = i := by revert i; decide

@[simp] theorem pIndex_indexField (i : PReg) : pIndex (indexField i) = i := by revert i; decide

@[simp] theorem indexField_fIndex {b : BitVec 4} (h : b.toNat < 8) : indexField (fIndex b) = b := by revert b; decide

@[simp] theorem indexField_pIndex {b : BitVec 4} (h : b.toNat < 4) : indexField (pIndex b) = b := by revert b; decide

@[simp] theorem f_inRange_indexField (i : FReg) : Cell.f.inRange (indexField i) = true := by revert i; decide

@[simp] theorem pt_inRange_indexField (i : PReg) : Cell.pt.inRange (indexField i) = true := by revert i; decide

@[simp] theorem Cell.clear_f (b : BitVec 4) : Cell.f.clear b = true := rfl
@[simp] theorem Cell.clear_pt (b : BitVec 4) : Cell.pt.clear b = true := rfl
@[simp] theorem Cell.clear_absent (b : BitVec 4) : Cell.absent.clear b = true := rfl
@[simp] theorem Cell.clear_zero (b : BitVec 4) : Cell.zero.clear b = true ↔ b = 0 := by simp [Cell.clear]
@[simp] theorem Cell.inRange_absent (b : BitVec 4) : Cell.absent.inRange b = true := rfl
@[simp] theorem Cell.inRange_zero (b : BitVec 4) : Cell.zero.inRange b = true := rfl

@[simp] theorem modulusOf_bit (m : Modulus) : modulusOf m.bit = m := by cases m <;> rfl

@[simp] theorem bit_modulusOf (b : Bool) : (modulusOf b).bit = b := by cases b <;> rfl

/-! ### Opcodes -/

/-- Every opcode byte names its row (R48 step 2). -/
@[simp] theorem ofOpc_opc (op : Op) : Op.ofOpc op.opc = some op := by cases op <;> decide

/-- An opcode byte that names a row is that row's. -/
theorem opc_of_ofOpc {b : BitVec 8} {op : Op} (h : Op.ofOpc b = some op) : op.opc = b := by
  have := List.find?_some h
  simpa using this

@[simp] theorem op_build (op : Op) (x : Fields) : (op.build x).op = op := by cases op <;> rfl

/-- The mask of a row selects bits as the table of opcode_table.json says: every mask has its pattern's bits. -/
theorem pattern_and_mask (op : Op) : op.pattern &&& op.mask = op.pattern := by cases op <;> decide

/-! ### What the decoder answers -/

/-- Everything the decoder can accept: a named row whose steps 3 to 6 pass (R48). -/
theorem decode_eq_ok {d : DP} {w : Word} {i : Instr} (h : decode d w = .ok i) :
    ∃ op, Op.ofOpc (split w).opc = some op ∧ op.row.fieldsClear (split w) = true ∧ op.row.indicesInRange (split w) = true ∧
      i = op.build (split w) ∧ i.destinationsDiffer = true ∧ i.insideBuffer d = true := by
  unfold decode at h
  cases hop : Op.ofOpc (split w).opc with
  | none => simp [hop] at h
  | some op =>
    simp only [hop] at h
    split at h
    · cases h
    split at h
    · cases h
    split at h
    · cases h
    split at h
    · cases h
    simp only [Except.ok.injEq] at h
    subst h
    simp_all

/-- A word whose row's steps 3 to 6 pass is accepted. -/
theorem decode_of_steps {d : DP} {w : Word} {op : Op} (hop : (split w).opc = op.opc)
    (h3 : op.row.fieldsClear (split w) = true) (h4 : op.row.indicesInRange (split w) = true)
    (h5 : (op.build (split w)).destinationsDiffer = true) (h6 : (op.build (split w)).insideBuffer d = true) :
    decode d w = .ok (op.build (split w)) := by
  simp [decode, hop, h3, h4, h5, h6]

/-- What a format-R word decodes to. -/
theorem decode_packR {d : DP} {op : Op} {i : Instr} {m : Bool} {rd ra rb rc : BitVec 4}
    (hb : op.build (split (packR op.opc m rd ra rb rc)) = i)
    (h3 : op.row.fieldsClear (split (packR op.opc m rd ra rb rc)) = true)
    (h4 : op.row.indicesInRange (split (packR op.opc m rd ra rb rc)) = true)
    (h5 : i.destinationsDiffer = true) (h6 : i.insideBuffer d = true) : decode d (packR op.opc m rd ra rb rc) = .ok i := by
  subst hb
  exact decode_of_steps (by rw [split_packR]) h3 h4 h5 h6

/-- What a format-B word decodes to. -/
theorem decode_packB {d : DP} {op : Op} {i : Instr} {m : Bool} {rd : BitVec 4} {off : Offset}
    (hf : op.row.fmt = .b) (hm : op.row.mAny = true ∨ m = false)
    (hb : ∀ x : Fields, x.m = m → x.rd = rd → x.off = off → op.build x = i)
    (h3 : op.row.rd.clear rd = true ∧ op.row.ra = .absent ∧ op.row.rb = .absent ∧ op.row.rc = .absent)
    (h4 : op.row.rd.inRange rd = true)
    (h5 : i.destinationsDiffer = true) (h6 : i.insideBuffer d = true) : decode d (packB op.opc m rd off) = .ok i := by
  obtain ⟨h1,h2,h3',h4',h5'⟩ := split_packB op.opc m rd off
  have hb' := hb _ h2 h4' h5'
  rw [← hb'] at h5 h6 ⊢
  refine decode_of_steps h1 ?_ ?_ h5 h6
  · simp [OpRow.fieldsClear, h3, hf, h3', h4', h2]; tauto
  · simp [OpRow.indicesInRange, h4, h3, h4']

/-! ### The mask columns of opcode_table.json -/

/-- Two words in equal parts are equal part by part. -/
theorem append_eq_iff {w v : Nat} {a b : BitVec w} {c d : BitVec v} : a ++ c = b ++ d ↔ a = b ∧ c = d := by
  constructor
  · intro h
    constructor
    · have := congrArg (BitVec.extractLsb' v w) h
      simpa [BitVec.extractLsb'_append_eq_left] using this
    · have := congrArg (BitVec.extractLsb' 0 v) h
      simpa [BitVec.extractLsb'_append_eq_right] using this
  · rintro ⟨rfl, rfl⟩; rfl

/-- A word is its eight format-R fields (R46). -/
theorem word_eq_fields (w : Word) :
    w = (split w).opc ++ BitVec.ofBool (split w).m ++ (split w).rsv ++ (split w).rd ++ (split w).ra ++ (split w).rb ++ (split w).rc
      ++ (split w).z := by
  refine BitVec.eq_of_getLsbD_eq fun i hi => ?_
  simp only [split, BitVec.getLsbD_append, BitVec.getLsbD_extractLsb', BitVec.getLsbD_ofBool]
  split_ifs
  all_goals (rw [decide_eq_true (by omega), Bool.true_and]; congr 1; omega)

/-- A mask test is a test of each field. -/
theorem mask_word_iff (w : Word) (o o' : BitVec 8) (m m' : Bool) (r r' : BitVec 3) (a b c d e a' b' c' d' e' : BitVec 4) :
    w &&& (o ++ BitVec.ofBool m ++ r ++ a ++ b ++ c ++ d ++ e) = (o' ++ BitVec.ofBool m' ++ r' ++ a' ++ b' ++ c' ++ d' ++ e')
      ↔ ((split w).opc &&& o = o' ∧ ((split w).m && m) = m' ∧ (split w).rsv &&& r = r' ∧ (split w).rd &&& a = a' ∧ (split w).ra &&& b = b' ∧
        (split w).rb &&& c = c' ∧ (split w).rc &&& d = d' ∧ (split w).z &&& e = e') := by
  conv => lhs; rw [word_eq_fields w]
  repeat rw [BitVec.and_append]
  repeat rw [append_eq_iff]
  have : ∀ x y z : Bool, BitVec.ofBool x &&& BitVec.ofBool y = BitVec.ofBool z ↔ (x && y) = z := by decide
  rw [this]; tauto


/-- The mask bits of a register field in the column "mask". -/
def Cell.maskBits : Cell → BitVec 4
  | .f => 8
  | .pt => 12
  | .zero => 15
  | .absent => 0

theorem Cell.maskBits_iff (c : Cell) (x : BitVec 4) : x &&& c.maskBits = 0#4 ↔ c.clear x = true ∧ c.inRange x = true := by
  revert x; cases c <;> decide

theorem mask_eq (op : Op) : op.mask = 0xFF#8 ++ BitVec.ofBool (!op.row.mAny) ++ 7#3 ++ op.row.rd.maskBits ++ op.row.ra.maskBits ++
    op.row.rb.maskBits ++ op.row.rc.maskBits ++ (if op.row.fmt = .b then 0#4 else 15#4) := by
  cases op <;> decide

theorem pattern_eq (op : Op) : op.pattern = op.opc ++ BitVec.ofBool false ++ 0#3 ++ 0#4 ++ 0#4 ++ 0#4 ++ 0#4 ++ 0#4 := by
  cases op <;> decide

/-- The mask and match columns of a row are its opcode and steps 3 and 4 of R48. -/
theorem table_iff (w : Word) (op : Op) :
    w &&& op.mask = op.pattern ↔
      (split w).opc = op.opc ∧ op.row.fieldsClear (split w) = true ∧ op.row.indicesInRange (split w) = true := by
  have h8 : (split w).opc &&& 255#8 = (split w).opc := BitVec.and_allOnes
  have h3 : (split w).rsv &&& 7#3 = (split w).rsv := BitVec.and_allOnes
  have hm : ((split w).m && !op.row.mAny) = false ↔ (op.row.mAny || !(split w).m) = true := by
    cases (split w).m <;> cases op.row.mAny <;> simp
  have hz : (split w).z &&& (if op.row.fmt = .b then 0#4 else 15#4) = 0#4 ↔ (op.row.fmt == .b || (split w).z == 0) = true := by
    cases op.row.fmt
    · have : (split w).z &&& 15#4 = (split w).z := BitVec.and_allOnes
      simp [this]
    · simp
  rw [mask_eq, pattern_eq, mask_word_iff, h8, h3, hm, hz]
  simp only [OpRow.fieldsClear, OpRow.indicesInRange, Bool.and_eq_true, Cell.maskBits_iff, BitVec.ofNat_eq_ofNat, beq_iff_eq]
  tauto

end Sys2Proof
end

