-- ==== Sys2Proof/Laws/Memory.lean ====
section
/-! SUPPORT. The exchange buffer as data: reads after writes, every operation keeps the canonical form and the bound, and the
closed forms of R36 and R37. -/

namespace Sys2Proof.Machine

namespace Memory

/-- What a cons cell of a canonical memory says of the rest. -/
theorem wf_cons_iff (a : Nat) (v : Byte) (m : Memory) :
    Memory.wf ((a, v) :: m) = true ↔ v ≠ unlisted ∧ (∀ c ∈ m, a < c.1) ∧ Memory.wf m = true := by
  induction m generalizing a v with
  | nil => simp [Memory.wf]
  | cons c m ih =>
    obtain ⟨b, w⟩ := c
    have hb := ih b w
    constructor
    · intro h
      simp only [Memory.wf, Bool.and_eq_true, bne_iff_ne, decide_eq_true_eq] at h
      refine ⟨h.1.1, ?_, h.2⟩
      intro c hc
      rcases List.mem_cons.mp hc with rfl | hc
      · exact h.1.2
      · exact Nat.lt_trans h.1.2 ((hb.mp h.2).2.1 c hc)
    · rintro ⟨hv, hlt, hm⟩
      simp only [Memory.wf, Bool.and_eq_true, bne_iff_ne, decide_eq_true_eq]
      exact ⟨⟨hv, hlt (b, w) (by simp)⟩, hm⟩

theorem get_of_lt {m : Memory} {a : Nat} (h : ∀ c ∈ m, a < c.1) : m.get a = unlisted := by
  induction m with
  | nil => rfl
  | cons c m ih =>
    obtain ⟨b, w⟩ := c
    have hb : a < b := h (b, w) (by simp)
    simp only [Memory.get, if_neg (Nat.ne_of_lt hb)]
    exact ih fun c hc => h c (by simp [hc])

/-- Every cell of a store comes from the memory or is the byte stored. -/
theorem mem_set {m : Memory} {a : Nat} {v : Byte} {c : Host.Cell} (h : c ∈ m.set a v) : c ∈ m ∨ c = (a, v) := by
  induction m with
  | nil =>
    by_cases hv : v = unlisted <;> simp_all [Memory.set]
  | cons d m ih =>
    obtain ⟨b, w⟩ := d
    simp only [Memory.set] at h
    split at h
    · split at h
      · exact .inl h
      · rcases List.mem_cons.mp h with h | h
        · exact .inr h
        · exact .inl h
    · split at h
      · split at h
        · exact .inl (by simp [h])
        · rcases List.mem_cons.mp h with h | h
          · exact .inr h
          · exact .inl (by simp [h])
      · rcases List.mem_cons.mp h with h | h
        · exact .inl (by simp [h])
        · rcases ih h with h | h
          · exact .inl (by simp [h])
          · exact .inr h

/-- A store keeps the canonical form. -/
theorem wf_set {m : Memory} (h : m.wf = true) (a : Nat) (v : Byte) : (m.set a v).wf = true := by
  induction m with
  | nil => by_cases hv : v = unlisted <;> simp [Memory.set, hv, Memory.wf]
  | cons d m ih =>
    obtain ⟨b, w⟩ := d
    obtain ⟨hw, hlt, hm⟩ := (wf_cons_iff b w m).mp h
    simp only [Memory.set]
    split
    · rename_i hab
      split
      · exact h
      · rename_i hv
        refine (wf_cons_iff a v _).mpr ⟨hv, ?_, h⟩
        intro c hc
        rcases List.mem_cons.mp hc with rfl | hc
        · exact hab
        · exact Nat.lt_trans hab (hlt c hc)
    · rename_i hab
      split
      · rename_i hEq
        subst hEq
        split
        · exact hm
        · rename_i hv
          exact (wf_cons_iff a v m).mpr ⟨hv, hlt, hm⟩
      · rename_i hne
        refine (wf_cons_iff b w _).mpr ⟨hw, ?_, ih hm⟩
        intro c hc
        rcases mem_set hc with hc | rfl
        · exact hlt c hc
        · show b < a
          omega

/-- Read after a store of one byte: the byte stored there, the old byte elsewhere. -/
theorem get_set {m : Memory} (h : m.wf = true) (a b : Nat) (v : Byte) :
    (m.set a v).get b = if b = a then v else m.get b := by
  induction m with
  | nil =>
    by_cases hv : v = unlisted <;> by_cases hb : b = a <;> simp [Memory.set, Memory.get, hv, hb]
  | cons d m ih =>
    obtain ⟨c, w⟩ := d
    obtain ⟨hw, hlt, hm⟩ := (wf_cons_iff c w m).mp h
    simp only [Memory.set]
    split
    · rename_i hac
      split
      · rename_i hv
        by_cases hb : b = a
        · subst hb
          simp only [if_true, hv]
          refine get_of_lt fun e he => ?_
          rcases List.mem_cons.mp he with rfl | he
          · exact hac
          · exact Nat.lt_trans hac (hlt e he)
        · simp [hb]
      · simp only [Memory.get]
    · rename_i hac
      split
      · rename_i hEq
        subst hEq
        split
        · rename_i hv
          by_cases hb : b = a
          · subst hb
            simp only [if_true, hv]
            exact get_of_lt hlt
          · simp [Memory.get, hb]
        · by_cases hb : b = a <;> simp [Memory.get, hb]
      · rename_i hne
        simp only [Memory.get, ih hm]
        by_cases hbc : b = c
        · subst hbc
          simp [Ne.symm hne]
        · simp [hbc]

theorem below_set {m : Memory} {a bound : Nat} (h : m.below bound = true) (ha : a < bound) (v : Byte) :
    (m.set a v).below bound = true := by
  simp only [Memory.below, List.all_eq_true, decide_eq_true_eq] at h ⊢
  intro c hc
  rcases mem_set hc with hc | rfl
  · exact h c hc
  · exact ha

/-! ### Accesses of several bytes -/

/-- A wide store keeps the canonical form. -/
theorem wf_write {m : Memory} (h : m.wf = true) (addr n v : Nat) : (m.write addr n v).wf = true := by
  induction n generalizing v with
  | zero => exact h
  | succ n ih => exact wf_set (ih _) _ _

theorem below_write {m : Memory} {addr n bound : Nat} (h : m.below bound = true) (hb : addr + n ≤ bound) (v : Nat) :
    (m.write addr n v).below bound = true := by
  induction n generalizing v with
  | zero => exact h
  | succ n ih => exact below_set (ih (by omega) _) (by omega) _

/-- R37: byte `addr + j` becomes `(v div 256^(n−1−j)) mod 256`, and no other byte changes. -/
theorem get_write {m : Memory} (h : m.wf = true) (addr n v a : Nat) :
    (m.write addr n v).get a =
      if addr ≤ a ∧ a < addr + n then BitVec.ofNat 8 (v / 256 ^ (n - 1 - (a - addr)) % 256) else m.get a := by
  induction n generalizing v with
  | zero =>
    rw [if_neg (by omega)]
    rfl
  | succ n ih =>
    simp only [Memory.write, get_set (wf_write h addr n (v / 256)), ih]
    by_cases ha : a = addr + n
    · subst ha
      simp
    · by_cases hin : addr ≤ a ∧ a < addr + n
      · have h1 : addr ≤ a ∧ a < addr + (n + 1) := by omega
        have h2 : n + 1 - 1 - (a - addr) = (n - 1 - (a - addr)) + 1 := by omega
        simp only [if_neg ha, if_pos hin, if_pos h1, h2]
        rw [Nat.pow_succ, Nat.mul_comm, Nat.div_div_eq_div_mul]
      · have h1 : ¬ (addr ≤ a ∧ a < addr + (n + 1)) := by omega
        simp only [if_neg ha, if_neg hin, if_neg h1]

/-- A wide store leaves the bytes outside it alone. -/
theorem get_write_outside {m : Memory} (h : m.wf = true) {addr n a : Nat} (ha : a < addr ∨ addr + n ≤ a) (v : Nat) :
    (m.write addr n v).get a = m.get a := by
  rw [get_write h, if_neg (by omega)]

/-- A wide read sees only its own bytes. -/
theorem read_congr {m m' : Memory} {addr n : Nat} (h : ∀ j, j < n → m.get (addr + j) = m'.get (addr + j)) :
    m.read addr n = m'.read addr n := by
  induction n with
  | zero => rfl
  | succ n ih =>
    simp only [Memory.read]
    rw [ih fun j hj => h j (by omega), h n (by omega)]

/-- A wide read is below `256^n`. -/
theorem read_lt (m : Memory) (addr n : Nat) : m.read addr n < 256 ^ n := by
  induction n with
  | zero => simp [Memory.read]
  | succ n ih =>
    have hb : (m.get (addr + n)).toNat < 256 := (m.get (addr + n)).isLt
    simp only [Memory.read, Nat.pow_succ]
    omega

/-- Read after a write of the same bytes gives the value written. -/
theorem read_write_self {m : Memory} (h : m.wf = true) (addr n v : Nat) : (m.write addr n v).read addr n = v % 256 ^ n := by
  induction n generalizing v with
  | zero => simp [Memory.read, Nat.mod_one]
  | succ n ih =>
    have hlow : (m.write addr (n + 1) v).read addr n = (m.write addr n (v / 256)).read addr n := by
      refine read_congr fun j hj => ?_
      simp only [Memory.write, get_set (wf_write h addr n (v / 256))]
      rw [if_neg (by omega)]
    have hlast : ((m.write addr (n + 1) v).get (addr + n)).toNat = v % 256 := by
      simp only [Memory.write, get_set (wf_write h addr n (v / 256)), if_true]
      simp
    simp only [Memory.read]
    rw [hlow, hlast, ih, Nat.pow_succ, Nat.mul_comm (256 ^ n) 256, Nat.mod_mul]
    omega

/-- A read of bytes that a write does not touch gives what it gave before. -/
theorem read_write_disjoint {m : Memory} (h : m.wf = true) {addr n addr' n' : Nat} (hd : addr' + n' ≤ addr ∨ addr + n ≤ addr')
    (v : Nat) : (m.write addr n v).read addr' n' = m.read addr' n' :=
  read_congr fun j hj => get_write_outside h (by omega) v

end Memory

end Sys2Proof.Machine
end

