-- ==== Sys2Proof/Laws/State.lean ====
section
/-! SUPPORT. One lemma per field per update of the state, true by `rfl`, so that no later proof unfolds an update; and what a
register read gives after a register write. -/

namespace Sys2Proof.Machine

variable (s : State)

/-! ### `setF` -/

@[simp] theorem State.setF_cfg (i : FReg) (v : Nat) : (s.setF i v).cfg = s.cfg := rfl
@[simp] theorem State.setF_f (i : FReg) (v : Nat) : (s.setF i v).f = s.f.set i v := rfl
@[simp] theorem State.setF_pt (i : FReg) (v : Nat) : (s.setF i v).pt = s.pt := rfl
@[simp] theorem State.setF_t (i : FReg) (v : Nat) : (s.setF i v).t = s.t := rfl
@[simp] theorem State.setF_err (i : FReg) (v : Nat) : (s.setF i v).err = s.err := rfl
@[simp] theorem State.setF_busy (i : FReg) (v : Nat) : (s.setF i v).busy = s.busy := rfl
@[simp] theorem State.setF_xb (i : FReg) (v : Nat) : (s.setF i v).xb = s.xb := rfl
@[simp] theorem State.setF_hid (i : FReg) (v : Nat) : (s.setF i v).hid = s.hid := rfl
@[simp] theorem State.setF_rng (i : FReg) (v : Nat) : (s.setF i v).rng = s.rng := rfl
@[simp] theorem State.setF_env (i : FReg) (v : Nat) : (s.setF i v).env = s.env := rfl
@[simp] theorem State.setF_freeCtr (i : FReg) (v : Nat) : (s.setF i v).freeCtr = s.freeCtr := rfl
@[simp] theorem State.setF_getP (i : FReg) (v : Nat) (j : PReg) : (s.setF i v).getP j = s.getP j := rfl

/-! ### `setP` -/

@[simp] theorem State.setP_cfg (i : PReg) (v : PointValue) : (s.setP i v).cfg = s.cfg := rfl
@[simp] theorem State.setP_f (i : PReg) (v : PointValue) : (s.setP i v).f = s.f := rfl
@[simp] theorem State.setP_pt (i : PReg) (v : PointValue) : (s.setP i v).pt = s.pt.set i v := rfl
@[simp] theorem State.setP_t (i : PReg) (v : PointValue) : (s.setP i v).t = s.t := rfl
@[simp] theorem State.setP_err (i : PReg) (v : PointValue) : (s.setP i v).err = s.err := rfl
@[simp] theorem State.setP_busy (i : PReg) (v : PointValue) : (s.setP i v).busy = s.busy := rfl
@[simp] theorem State.setP_xb (i : PReg) (v : PointValue) : (s.setP i v).xb = s.xb := rfl
@[simp] theorem State.setP_hid (i : PReg) (v : PointValue) : (s.setP i v).hid = s.hid := rfl
@[simp] theorem State.setP_rng (i : PReg) (v : PointValue) : (s.setP i v).rng = s.rng := rfl
@[simp] theorem State.setP_env (i : PReg) (v : PointValue) : (s.setP i v).env = s.env := rfl
@[simp] theorem State.setP_freeCtr (i : PReg) (v : PointValue) : (s.setP i v).freeCtr = s.freeCtr := rfl
@[simp] theorem State.setP_getF (i : PReg) (v : PointValue) (j : FReg) : (s.setP i v).getF j = s.getF j := rfl

/-! ### `setT` -/

@[simp] theorem State.setT_cfg (b : Bool) : (s.setT b).cfg = s.cfg := rfl
@[simp] theorem State.setT_f (b : Bool) : (s.setT b).f = s.f := rfl
@[simp] theorem State.setT_pt (b : Bool) : (s.setT b).pt = s.pt := rfl
@[simp] theorem State.setT_t (b : Bool) : (s.setT b).t = b := rfl
@[simp] theorem State.setT_err (b : Bool) : (s.setT b).err = s.err := rfl
@[simp] theorem State.setT_busy (b : Bool) : (s.setT b).busy = s.busy := rfl
@[simp] theorem State.setT_xb (b : Bool) : (s.setT b).xb = s.xb := rfl
@[simp] theorem State.setT_hid (b : Bool) : (s.setT b).hid = s.hid := rfl
@[simp] theorem State.setT_rng (b : Bool) : (s.setT b).rng = s.rng := rfl
@[simp] theorem State.setT_env (b : Bool) : (s.setT b).env = s.env := rfl
@[simp] theorem State.setT_freeCtr (b : Bool) : (s.setT b).freeCtr = s.freeCtr := rfl
@[simp] theorem State.setT_getF (b : Bool) (j : FReg) : (s.setT b).getF j = s.getF j := rfl
@[simp] theorem State.setT_getP (b : Bool) (j : PReg) : (s.setT b).getP j = s.getP j := rfl

/-! ### `store` -/

@[simp] theorem State.store_cfg (addr n v : Nat) : (s.store addr n v).cfg = s.cfg := rfl
@[simp] theorem State.store_f (addr n v : Nat) : (s.store addr n v).f = s.f := rfl
@[simp] theorem State.store_pt (addr n v : Nat) : (s.store addr n v).pt = s.pt := rfl
@[simp] theorem State.store_t (addr n v : Nat) : (s.store addr n v).t = s.t := rfl
@[simp] theorem State.store_err (addr n v : Nat) : (s.store addr n v).err = s.err := rfl
@[simp] theorem State.store_busy (addr n v : Nat) : (s.store addr n v).busy = s.busy := rfl
@[simp] theorem State.store_xb (addr n v : Nat) : (s.store addr n v).xb = s.xb.write addr n v := rfl
@[simp] theorem State.store_hid (addr n v : Nat) : (s.store addr n v).hid = s.hid := rfl
@[simp] theorem State.store_rng (addr n v : Nat) : (s.store addr n v).rng = s.rng := rfl
@[simp] theorem State.store_env (addr n v : Nat) : (s.store addr n v).env = s.env := rfl
@[simp] theorem State.store_freeCtr (addr n v : Nat) : (s.store addr n v).freeCtr = s.freeCtr := rfl
@[simp] theorem State.store_getF (addr n v : Nat) (j : FReg) : (s.store addr n v).getF j = s.getF j := rfl
@[simp] theorem State.store_getP (addr n v : Nat) (j : PReg) : (s.store addr n v).getP j = s.getP j := rfl

/-! ### `setRng` -/

@[simp] theorem State.setRng_cfg (rest : List RngAnswer) : (s.setRng rest).cfg = s.cfg := rfl
@[simp] theorem State.setRng_f (rest : List RngAnswer) : (s.setRng rest).f = s.f := rfl
@[simp] theorem State.setRng_pt (rest : List RngAnswer) : (s.setRng rest).pt = s.pt := rfl
@[simp] theorem State.setRng_t (rest : List RngAnswer) : (s.setRng rest).t = s.t := rfl
@[simp] theorem State.setRng_err (rest : List RngAnswer) : (s.setRng rest).err = s.err := rfl
@[simp] theorem State.setRng_busy (rest : List RngAnswer) : (s.setRng rest).busy = s.busy := rfl
@[simp] theorem State.setRng_xb (rest : List RngAnswer) : (s.setRng rest).xb = s.xb := rfl
@[simp] theorem State.setRng_hid (rest : List RngAnswer) : (s.setRng rest).hid = s.hid := rfl
@[simp] theorem State.setRng_rng (rest : List RngAnswer) : (s.setRng rest).rng = rest := rfl
@[simp] theorem State.setRng_env (rest : List RngAnswer) : (s.setRng rest).env = s.env := rfl
@[simp] theorem State.setRng_freeCtr (rest : List RngAnswer) : (s.setRng rest).freeCtr = s.freeCtr := rfl
@[simp] theorem State.setRng_getF (rest : List RngAnswer) (j : FReg) : (s.setRng rest).getF j = s.getF j := rfl
@[simp] theorem State.setRng_getP (rest : List RngAnswer) (j : PReg) : (s.setRng rest).getP j = s.getP j := rfl

/-! ### `setEnv` -/

@[simp] theorem State.setEnv_cfg (rest : List Event) : (s.setEnv rest).cfg = s.cfg := rfl
@[simp] theorem State.setEnv_f (rest : List Event) : (s.setEnv rest).f = s.f := rfl
@[simp] theorem State.setEnv_pt (rest : List Event) : (s.setEnv rest).pt = s.pt := rfl
@[simp] theorem State.setEnv_t (rest : List Event) : (s.setEnv rest).t = s.t := rfl
@[simp] theorem State.setEnv_err (rest : List Event) : (s.setEnv rest).err = s.err := rfl
@[simp] theorem State.setEnv_busy (rest : List Event) : (s.setEnv rest).busy = s.busy := rfl
@[simp] theorem State.setEnv_xb (rest : List Event) : (s.setEnv rest).xb = s.xb := rfl
@[simp] theorem State.setEnv_hid (rest : List Event) : (s.setEnv rest).hid = s.hid := rfl
@[simp] theorem State.setEnv_rng (rest : List Event) : (s.setEnv rest).rng = s.rng := rfl
@[simp] theorem State.setEnv_env (rest : List Event) : (s.setEnv rest).env = rest := rfl
@[simp] theorem State.setEnv_freeCtr (rest : List Event) : (s.setEnv rest).freeCtr = s.freeCtr := rfl
@[simp] theorem State.setEnv_getF (rest : List Event) (j : FReg) : (s.setEnv rest).getF j = s.getF j := rfl
@[simp] theorem State.setEnv_getP (rest : List Event) (j : PReg) : (s.setEnv rest).getP j = s.getP j := rfl

/-! ### `complete` -/

@[simp] theorem State.complete_cfg : (s.complete).cfg = s.cfg := rfl
@[simp] theorem State.complete_f : (s.complete).f = s.f := rfl
@[simp] theorem State.complete_pt : (s.complete).pt = s.pt := rfl
@[simp] theorem State.complete_t : (s.complete).t = s.t := rfl
@[simp] theorem State.complete_err : (s.complete).err = 0 := rfl
@[simp] theorem State.complete_busy : (s.complete).busy = none := rfl
@[simp] theorem State.complete_xb : (s.complete).xb = s.xb := rfl
@[simp] theorem State.complete_hid : (s.complete).hid = Hidden.zero := rfl
@[simp] theorem State.complete_rng : (s.complete).rng = s.rng := rfl
@[simp] theorem State.complete_env : (s.complete).env = s.env := rfl
@[simp] theorem State.complete_freeCtr : (s.complete).freeCtr = s.freeCtr := rfl
@[simp] theorem State.complete_getF (j : FReg) : (s.complete).getF j = s.getF j := rfl
@[simp] theorem State.complete_getP (j : PReg) : (s.complete).getP j = s.getP j := rfl

/-! ### `raise` -/

@[simp] theorem State.raise_cfg (pred : Bool) (e : ErrorKind) : (s.raise pred e).cfg = s.cfg := rfl
@[simp] theorem State.raise_f (pred : Bool) (e : ErrorKind) : (s.raise pred e).f = s.f := rfl
@[simp] theorem State.raise_pt (pred : Bool) (e : ErrorKind) : (s.raise pred e).pt = s.pt := rfl
@[simp] theorem State.raise_t (pred : Bool) (e : ErrorKind) : (s.raise pred e).t = if pred && decide (e ≠ .illegalCommand) then false else s.t := rfl
@[simp] theorem State.raise_err (pred : Bool) (e : ErrorKind) : (s.raise pred e).err = e.code := rfl
@[simp] theorem State.raise_busy (pred : Bool) (e : ErrorKind) : (s.raise pred e).busy = none := rfl
@[simp] theorem State.raise_xb (pred : Bool) (e : ErrorKind) : (s.raise pred e).xb = s.xb := rfl
@[simp] theorem State.raise_hid (pred : Bool) (e : ErrorKind) : (s.raise pred e).hid = Hidden.zero := rfl
@[simp] theorem State.raise_rng (pred : Bool) (e : ErrorKind) : (s.raise pred e).rng = s.rng := rfl
@[simp] theorem State.raise_env (pred : Bool) (e : ErrorKind) : (s.raise pred e).env = s.env := rfl
@[simp] theorem State.raise_freeCtr (pred : Bool) (e : ErrorKind) : (s.raise pred e).freeCtr = s.freeCtr := rfl
@[simp] theorem State.raise_getF (pred : Bool) (e : ErrorKind) (j : FReg) : (s.raise pred e).getF j = s.getF j := rfl
@[simp] theorem State.raise_getP (pred : Bool) (e : ErrorKind) (j : PReg) : (s.raise pred e).getP j = s.getP j := rfl

/-! ### `wait` -/

@[simp] theorem State.wait_cfg (c : Running) (h : Hidden) : (s.wait c h).cfg = s.cfg := rfl
@[simp] theorem State.wait_f (c : Running) (h : Hidden) : (s.wait c h).f = s.f := rfl
@[simp] theorem State.wait_pt (c : Running) (h : Hidden) : (s.wait c h).pt = s.pt := rfl
@[simp] theorem State.wait_t (c : Running) (h : Hidden) : (s.wait c h).t = s.t := rfl
@[simp] theorem State.wait_err (c : Running) (h : Hidden) : (s.wait c h).err = s.err := rfl
@[simp] theorem State.wait_busy (c : Running) (h : Hidden) : (s.wait c h).busy = some c := rfl
@[simp] theorem State.wait_xb (c : Running) (h : Hidden) : (s.wait c h).xb = s.xb := rfl
@[simp] theorem State.wait_hid (c : Running) (h : Hidden) : (s.wait c h).hid = { h with tmp := Config.freeTmp s.freeCtr } := rfl
@[simp] theorem State.wait_rng (c : Running) (h : Hidden) : (s.wait c h).rng = [] := rfl
@[simp] theorem State.wait_env (c : Running) (h : Hidden) : (s.wait c h).env = s.env := rfl
@[simp] theorem State.wait_freeCtr (c : Running) (h : Hidden) : (s.wait c h).freeCtr = s.freeCtr + 1 := rfl
@[simp] theorem State.wait_getF (c : Running) (h : Hidden) (j : FReg) : (s.wait c h).getF j = s.getF j := rfl
@[simp] theorem State.wait_getP (c : Running) (h : Hidden) (j : PReg) : (s.wait c h).getP j = s.getP j := rfl

/-! ### `beginDraws` -/

@[simp] theorem State.beginDraws_cfg : (s.beginDraws).cfg = s.cfg := rfl
@[simp] theorem State.beginDraws_f : (s.beginDraws).f = s.f := rfl
@[simp] theorem State.beginDraws_pt : (s.beginDraws).pt = s.pt := rfl
@[simp] theorem State.beginDraws_t : (s.beginDraws).t = s.t := rfl
@[simp] theorem State.beginDraws_err : (s.beginDraws).err = s.err := rfl
@[simp] theorem State.beginDraws_busy : (s.beginDraws).busy = s.busy := rfl
@[simp] theorem State.beginDraws_xb : (s.beginDraws).xb = s.xb := rfl
@[simp] theorem State.beginDraws_hid : (s.beginDraws).hid = Hidden.zero := rfl
@[simp] theorem State.beginDraws_rng : (s.beginDraws).rng = s.rng := rfl
@[simp] theorem State.beginDraws_env : (s.beginDraws).env = s.env := rfl
@[simp] theorem State.beginDraws_freeCtr : (s.beginDraws).freeCtr = s.freeCtr := rfl
@[simp] theorem State.beginDraws_getF (j : FReg) : (s.beginDraws).getF j = s.getF j := rfl
@[simp] theorem State.beginDraws_getP (j : PReg) : (s.beginDraws).getP j = s.getP j := rfl

/-! ### `deliver` -/

@[simp] theorem State.deliver_cfg (a : RngAnswer) : (s.deliver a).cfg = s.cfg := rfl
@[simp] theorem State.deliver_f (a : RngAnswer) : (s.deliver a).f = s.f := rfl
@[simp] theorem State.deliver_pt (a : RngAnswer) : (s.deliver a).pt = s.pt := rfl
@[simp] theorem State.deliver_t (a : RngAnswer) : (s.deliver a).t = s.t := rfl
@[simp] theorem State.deliver_err (a : RngAnswer) : (s.deliver a).err = s.err := rfl
@[simp] theorem State.deliver_busy (a : RngAnswer) : (s.deliver a).busy = s.busy := rfl
@[simp] theorem State.deliver_xb (a : RngAnswer) : (s.deliver a).xb = s.xb := rfl
@[simp] theorem State.deliver_hid (a : RngAnswer) : (s.deliver a).hid = s.hid := rfl
@[simp] theorem State.deliver_rng (a : RngAnswer) : (s.deliver a).rng = s.rng ++ [a] := rfl
@[simp] theorem State.deliver_env (a : RngAnswer) : (s.deliver a).env = s.env := rfl
@[simp] theorem State.deliver_freeCtr (a : RngAnswer) : (s.deliver a).freeCtr = s.freeCtr := rfl
@[simp] theorem State.deliver_getF (a : RngAnswer) (j : FReg) : (s.deliver a).getF j = s.getF j := rfl
@[simp] theorem State.deliver_getP (a : RngAnswer) (j : PReg) : (s.deliver a).getP j = s.getP j := rfl

/-! ### `present` -/

@[simp] theorem State.present_cfg (w : Word) : (s.present w).cfg = s.cfg := rfl
@[simp] theorem State.present_f (w : Word) : (s.present w).f = s.f := rfl
@[simp] theorem State.present_pt (w : Word) : (s.present w).pt = s.pt := rfl
@[simp] theorem State.present_t (w : Word) : (s.present w).t = s.t := rfl
@[simp] theorem State.present_err (w : Word) : (s.present w).err = s.err := rfl
@[simp] theorem State.present_busy (w : Word) : (s.present w).busy = none := rfl
@[simp] theorem State.present_xb (w : Word) : (s.present w).xb = s.xb := rfl
@[simp] theorem State.present_hid (w : Word) : (s.present w).hid = s.hid := rfl
@[simp] theorem State.present_rng (w : Word) : (s.present w).rng = s.rng := rfl
@[simp] theorem State.present_env (w : Word) : (s.present w).env = .cmd w :: s.env := rfl
@[simp] theorem State.present_freeCtr (w : Word) : (s.present w).freeCtr = s.freeCtr := rfl
@[simp] theorem State.present_getF (w : Word) (j : FReg) : (s.present w).getF j = s.getF j := rfl
@[simp] theorem State.present_getP (w : Word) (j : PReg) : (s.present w).getP j = s.getP j := rfl

/-! ### `applyReset` -/

@[simp] theorem State.applyReset_cfg : (s.applyReset).cfg = s.cfg := rfl
@[simp] theorem State.applyReset_f : (s.applyReset).f = Vector.replicate 8 0 := rfl
@[simp] theorem State.applyReset_pt : (s.applyReset).pt = Vector.replicate 4 .infinity := rfl
@[simp] theorem State.applyReset_t : (s.applyReset).t = false := rfl
@[simp] theorem State.applyReset_err : (s.applyReset).err = 0 := rfl
@[simp] theorem State.applyReset_busy : (s.applyReset).busy = none := rfl
@[simp] theorem State.applyReset_xb : (s.applyReset).xb = [] := rfl
@[simp] theorem State.applyReset_hid : (s.applyReset).hid = Hidden.zero := rfl
@[simp] theorem State.applyReset_rng : (s.applyReset).rng = s.rng := rfl
@[simp] theorem State.applyReset_env : (s.applyReset).env = s.env := rfl
@[simp] theorem State.applyReset_freeCtr : (s.applyReset).freeCtr = s.freeCtr := rfl

/-! ### Reads after writes -/

theorem State.setF_getF (i j : FReg) (v : Nat) : (s.setF i v).getF j = if i = j then v else s.getF j := by
  simp [State.getF, State.setF, Vector.getElem_set, Fin.ext_iff]

@[simp] theorem State.setF_getF_self (i : FReg) (v : Nat) : (s.setF i v).getF i = v := by
  simp [State.setF_getF]

theorem State.setF_getF_ne {i j : FReg} (h : i ≠ j) (v : Nat) : (s.setF i v).getF j = s.getF j := by
  simp [State.setF_getF, h]

theorem State.setP_getP (i j : PReg) (v : PointValue) : (s.setP i v).getP j = if i = j then v else s.getP j := by
  simp [State.getP, State.setP, Vector.getElem_set, Fin.ext_iff]

@[simp] theorem State.setP_getP_self (i : PReg) (v : PointValue) : (s.setP i v).getP i = v := by
  simp [State.setP_getP]

theorem State.setP_getP_ne {i j : PReg} (h : i ≠ j) (v : PointValue) : (s.setP i v).getP j = s.getP j := by
  simp [State.setP_getP, h]

@[simp] theorem State.applyReset_getF (i : FReg) : s.applyReset.getF i = 0 := by
  simp [State.getF, State.applyReset, State.reset]

@[simp] theorem State.applyReset_getP (i : PReg) : s.applyReset.getP i = .infinity := by
  simp [State.getP, State.applyReset, State.reset]

/-- Two states with the same fields are the same state. -/
theorem State.ext' {s t : State} (hc : s.cfg = t.cfg) (hf : s.f = t.f) (hp : s.pt = t.pt) (ht : s.t = t.t) (he : s.err = t.err)
    (hb : s.busy = t.busy) (hx : s.xb = t.xb) (hh : s.hid = t.hid) (hr : s.rng = t.rng) (hv : s.env = t.env)
    (hq : s.freeCtr = t.freeCtr) : s = t := by
  cases s; cases t; simp_all

end Sys2Proof.Machine
end

