-- ==== Sys2Proof/Laws/Ops.lean ====
section
/-! SUPPORT. What the shared operations that end a command can do: `finish` (R114) and `finishDraws`. -/

namespace Sys2Proof.Machine

@[simp] theorem finish_ok (pred : Bool) (s t : State) : finish pred s (.ok t) = .next t.complete := rfl

@[simp] theorem finish_error (pred : Bool) (s : State) (e : ErrorKind) : finish pred s (.error e) = .next (s.raise pred e) := rfl

/-- All that `finish` can answer: a completed state or the error state of R114. -/
theorem finish_cases {pred : Bool} {s u : State} {r : Except ErrorKind State} (h : finish pred s r = .next u) :
    (∃ t, r = .ok t ∧ u = t.complete) ∨ (∃ e, r = .error e ∧ u = s.raise pred e) := by
  cases r with
  | ok t => exact .inl ⟨t, rfl, by simpa using h.symm⟩
  | error e => exact .inr ⟨e, rfl, by simpa using h.symm⟩

/-- `finish` always answers a next state. -/
theorem finish_total (pred : Bool) (s : State) (r : Except ErrorKind State) : ∃ u, finish pred s r = .next u := by
  cases r <;> exact ⟨_, rfl⟩

@[simp] theorem finishDraws_done {α : Type} (s : State) (c : Running) (write : State → α → State) (a : α)
    (rest : List RngAnswer) : finishDraws s c write (.done a rest) = .next (write (s.setRng rest) a).complete := rfl

@[simp] theorem finishDraws_failed {α : Type} (s : State) (c : Running) (write : State → α → State) (e : ErrorKind)
    (rest : List RngAnswer) : finishDraws s c write (.failed e rest) = .next ((s.setRng rest).raise false e) := rfl

@[simp] theorem finishDraws_waiting {α : Type} (s : State) (c : Running) (write : State → α → State) (h : Hidden) :
    finishDraws s c write (.waiting h) = .next (s.wait c h) := rfl

/-- All that `finishDraws` can answer: completed with its writes, the error state, or waiting. -/
theorem finishDraws_cases {α : Type} {s u : State} {c : Running} {write : State → α → State} {r : RngResult α}
    (h : finishDraws s c write r = .next u) :
    (∃ a rest, r = .done a rest ∧ u = (write (s.setRng rest) a).complete) ∨
    (∃ e rest, r = .failed e rest ∧ u = (s.setRng rest).raise false e) ∨
    (∃ hid, r = .waiting hid ∧ u = s.wait c hid) := by
  cases r with
  | done a rest => exact .inl ⟨a, rest, rfl, by simpa using h.symm⟩
  | failed e rest => exact .inr (.inl ⟨e, rest, rfl, by simpa using h.symm⟩)
  | waiting hid => exact .inr (.inr ⟨hid, rfl, by simpa using h.symm⟩)

/-- `finishDraws` always answers a next state. -/
theorem finishDraws_total {α : Type} (s : State) (c : Running) (write : State → α → State) (r : RngResult α) :
    ∃ u, finishDraws s c write r = .next u := by
  cases r <;> exact ⟨_, rfl⟩

/-- From a successful sequence of field operations, the first one succeeded. -/
theorem bind_ok {α β : Type} {x : Except ErrorKind α} {g : α → Except ErrorKind β} {b : β} (h : (x >>= g) = .ok b) :
    ∃ a, x = .ok a ∧ g a = .ok b := by
  cases x with
  | ok a => exact ⟨a, rfl, h⟩
  | error e => cases h

@[simp] theorem ok_bind {α β : Type} (a : α) (g : α → Except ErrorKind β) : ((Except.ok a : Except ErrorKind α) >>= g) = g a := rfl

@[simp] theorem error_bind {α β : Type} (e : ErrorKind) (g : α → Except ErrorKind β) :
    ((Except.error e : Except ErrorKind α) >>= g) = .error e := rfl

/-! ### The frame of a command that ends -/

/-- Completing adds nothing to what the writes of a command changed. -/
theorem Unchanged.complete {s t : State} {fs : List FReg} {ps : List PReg} {addr len : Nat}
    (h : Unchanged s t fs ps addr len) : Unchanged s t.complete fs ps addr len :=
  ⟨h.scalars, h.points, h.buffer, h.config, h.moves⟩

theorem unchanged_self (s : State) (fs : List FReg) (ps : List PReg) (addr len : Nat) : Unchanged s s fs ps addr len :=
  ⟨fun _ _ => rfl, fun _ _ => rfl, fun _ _ => rfl, rfl, rfl⟩

theorem unchanged_setF (s : State) (i : FReg) (v : Nat) (ps : List PReg) (addr len : Nat) :
    Unchanged s (s.setF i v) [i] ps addr len :=
  ⟨fun _ hj => s.setF_getF_ne (fun h => hj (by simp [h])) v, fun _ _ => rfl, fun _ _ => rfl, rfl, rfl⟩

theorem unchanged_setP (s : State) (i : PReg) (v : PointValue) (fs : List FReg) (addr len : Nat) :
    Unchanged s (s.setP i v) fs [i] addr len :=
  ⟨fun _ _ => rfl, fun _ hj => s.setP_getP_ne (fun h => hj (by simp [h])) v, fun _ _ => rfl, rfl, rfl⟩

theorem unchanged_setT (s : State) (b : Bool) : Unchanged s (s.setT b) [] [] 0 0 :=
  ⟨fun _ _ => rfl, fun _ _ => rfl, fun _ _ => rfl, rfl, rfl⟩

theorem unchanged_raise (s : State) (pred : Bool) (e : ErrorKind) : Unchanged s (s.raise pred e) [] [] 0 0 :=
  ⟨fun _ _ => rfl, fun _ _ => rfl, fun _ _ => rfl, rfl, rfl⟩

theorem ended_complete (t : State) : Ended t.complete 0 := ⟨rfl, rfl, rfl⟩

theorem ended_raise (s : State) (pred : Bool) (e : ErrorKind) : Ended (s.raise pred e) e.code := ⟨rfl, rfl, rfl⟩

/-- A command whose meaning ends in an error through `finish` raises it (R114). -/
theorem raises_of_exec {i : Instr} {s : State} {pred : Bool} {e : ErrorKind} (h : exec i s = .next (s.raise pred e)) :
    Raises i s pred e :=
  ⟨_, h, ended_raise s pred e, unchanged_raise s pred e, rfl, by
    cases pred <;> by_cases he : e = .illegalCommand <;> simp [he]⟩

end Sys2Proof.Machine
end

