-- ==== Sys2Proof/Laws/Rng.lean ====
section
/-! SUPPORT. The loop of draws and attempts on the answer lists of R96 and R97: what it does on a draw that returns a scalar,
that gives up, that waits, and that every list is one of these. -/

namespace Sys2Proof.Machine

variable {α : Type} {c : Config} (attempt : Nat → Hidden → Except ErrorKind (Attempt α))

/-- Failed requests below the bound only count (R96). -/
theorem rngLoop_fails (j : Nat) (a : List RngAnswer) (h : Hidden) (hj : h.tries + j < c.entropyTries) :
    rngLoop c attempt (List.replicate j .fail ++ a) h = rngLoop c attempt a { h with tries := h.tries + j } := by
  induction j generalizing h with
  | zero => rfl
  | succ j ih =>
    have hne : h.tries + 1 ≠ c.entropyTries := by omega
    have h1 : ({ h with tries := h.tries + 1 } : Hidden).tries + j < c.entropyTries := by simp only; omega
    simp only [List.replicate_succ, List.cons_append, rngLoop, hne, if_false]
    rw [ih _ h1]
    congr 2
    simp only; omega

/-- The `ENTROPY_TRIES`-th failed request in a row ends the command (R96). -/
theorem rngLoop_exhausted (j : Nat) (rest : List RngAnswer) (h : Hidden) (hj : h.tries + (j + 1) = c.entropyTries) :
    rngLoop c attempt (List.replicate (j + 1) .fail ++ rest) h = .failed .entropyExhausted rest := by
  rw [List.replicate_succ', List.append_assoc, rngLoop_fails attempt j _ h (by omega)]
  simp [rngLoop, ← hj]; omega

theorem inScalarRange_iff {n v : Nat} : inScalarRange n v = true ↔ 1 ≤ v ∧ v < n := by simp [inScalarRange]

/-- A draw that ends with a value outside the range begins again (R97). -/
theorem rngLoop_redrawn {j v : Nat} (a : List RngAnswer) (h : Hidden) (hj : h.tries + j < c.entropyTries)
    (hv : ¬ (1 ≤ v ∧ v < c.dp.n)) :
    rngLoop c attempt (List.replicate j .fail ++ .value v :: a) h = rngLoop c attempt a { h with tries := 0 } := by
  have hr : inScalarRange c.dp.n v = false := by
    rw [Bool.eq_false_iff, ne_eq, inScalarRange_iff]; exact hv
  rw [rngLoop_fails attempt j _ h hj]
  simp [rngLoop, hr]

/-- A draw that returns a scalar runs one attempt with it. -/
theorem rngLoop_draws {a rest : List RngAnswer} {k : Nat} (hd : DrawsScalar c a k rest) (h : Hidden) (h0 : h.tries = 0) :
    rngLoop c attempt a h = match attempt k { h with tries := 0 } with
      | .error e => .failed e rest
      | .ok (.done r) => .done r rest
      | .ok (.restart h') => rngLoop c attempt rest h' := by
  induction hd generalizing h with
  | @accepted j k rest hj hk =>
    rw [rngLoop_fails attempt j _ h (by omega)]
    rw [rngLoop, inScalarRange_iff.mpr hk, if_pos rfl]
    all_goals rcases attempt k { h with tries := 0 } with e | (r | h') <;> rfl
  | @redrawn j v k more rest hj hv _ ih =>
    rw [rngLoop_redrawn attempt more h (by omega) hv, ih _ rfl]

/-- A draw that gives up ends the command (R96). -/
theorem rngLoop_givesUp {a rest : List RngAnswer} (hd : DrawGivesUp c a rest) (ht : 1 ≤ c.entropyTries) (h : Hidden)
    (h0 : h.tries = 0) : rngLoop c attempt a h = .failed .entropyExhausted rest := by
  induction hd generalizing h with
  | @exhausted rest =>
    obtain ⟨j, hj⟩ : ∃ j, c.entropyTries = j + 1 := ⟨c.entropyTries - 1, by omega⟩
    rw [hj]
    exact rngLoop_exhausted attempt j rest h (by omega)
  | @redrawn j v more rest hj hv _ ih =>
    rw [rngLoop_redrawn attempt more h (by omega) hv, ih _ rfl]

/-- A draw without enough answers waits, `TRY` counting its failed requests (R96, R120). -/
theorem rngLoop_waits {a : List RngAnswer} (hd : DrawWaits c a) (h : Hidden) (h0 : h.tries = 0) :
    ∃ j, j < c.entropyTries ∧ rngLoop c attempt a h = .waiting { h with tries := j } := by
  induction hd generalizing h with
  | @pending j hj =>
    have := rngLoop_fails (c := c) attempt j [] h (by omega)
    rw [List.append_nil] at this
    exact ⟨j, hj, by rw [this, rngLoop, h0, Nat.zero_add]⟩
  | @redrawn j v more hj hv _ ih =>
    rw [rngLoop_redrawn attempt more h (by omega) hv]
    exact ih _ rfl

/-- Every list begins with failed requests, below the bound and then a value, below the bound and then nothing, or at it. -/
theorem answers_cases (a : List RngAnswer) (t : Nat) :
    (∃ j v more, j < t ∧ a = List.replicate j .fail ++ .value v :: more) ∨ (∃ rest, a = List.replicate t .fail ++ rest) ∨
      (∃ j, j < t ∧ a = List.replicate j .fail) := by
  induction t generalizing a with
  | zero => exact .inr (.inl ⟨a, rfl⟩)
  | succ t ih =>
    match a with
    | [] => exact .inr (.inr ⟨0, by omega, rfl⟩)
    | .value v :: more => exact .inl ⟨0, v, more, by omega, rfl⟩
    | .fail :: a =>
      obtain ⟨j, v, more, hj, rfl⟩ | ⟨rest, rfl⟩ | ⟨j, hj, rfl⟩ := ih a
      · exact .inl ⟨j + 1, v, more, by omega, rfl⟩
      · exact .inr (.inl ⟨rest, rfl⟩)
      · exact .inr (.inr ⟨j + 1, by omega, rfl⟩)

/-- Every list of answers makes the draw return, give up or wait (R96, R97). -/
theorem draw_cases (c : Config) (a : List RngAnswer) :
    (∃ k rest, DrawsScalar c a k rest) ∨ (∃ rest, DrawGivesUp c a rest) ∨ DrawWaits c a := by
  induction hn : a.length using Nat.strong_induction_on generalizing a with
  | _ n ih =>
    obtain ⟨j, v, more, hj, rfl⟩ | ⟨rest, rfl⟩ | ⟨j, hj, rfl⟩ := answers_cases a c.entropyTries
    · by_cases hv : 1 ≤ v ∧ v < c.dp.n
      · exact .inl ⟨v, more, .accepted hj hv⟩
      · obtain ⟨k, rest, h⟩ | ⟨rest, h⟩ | h := ih more.length (by subst hn; simp; omega) more rfl
        · exact .inl ⟨k, rest, .redrawn hj hv h⟩
        · exact .inr (.inl ⟨rest, .redrawn hj hv h⟩)
        · exact .inr (.inr (.redrawn hj hv h))
    · exact .inr (.inl ⟨rest, .exhausted⟩)
    · exact .inr (.inr (.pending hj))

/-- The drawn scalar is in `[1, n−1]` (R97). -/
theorem DrawsScalar.range {a rest : List RngAnswer} {k : Nat} (h : DrawsScalar c a k rest) : 1 ≤ k ∧ k < c.dp.n := by
  induction h with
  | accepted _ hk => exact hk
  | redrawn _ _ _ ih => exact ih

/-- A draw takes at least one answer. -/
theorem DrawsScalar.length_lt {a rest : List RngAnswer} {k : Nat} (h : DrawsScalar c a k rest) : rest.length < a.length := by
  induction h with
  | accepted _ _ => simp; omega
  | redrawn _ _ _ ih => simp; omega

/-- A draw takes its answers from the front. -/
theorem DrawsScalar.suffix {a rest : List RngAnswer} {k : Nat} (h : DrawsScalar c a k rest) : ∃ pre, a = pre ++ rest := by
  induction h with
  | @accepted j k rest _ _ => exact ⟨List.replicate j .fail ++ [.value k], by simp⟩
  | @redrawn j v k more rest _ _ _ ih =>
    obtain ⟨pre, rfl⟩ := ih
    exact ⟨List.replicate j .fail ++ .value v :: pre, by simp⟩

/-! ### Answers that come later -/

/-- A command that waited after the answers `a` goes on with `b` as if it had had `a ++ b` (R96, R120). -/
theorem rngLoop_append {a : List RngAnswer} {h h' : Hidden} (hw : rngLoop c attempt a h = .waiting h') (b : List RngAnswer) :
    rngLoop c attempt (a ++ b) h = rngLoop c attempt b h' := by
  induction a generalizing h with
  | nil => simp only [rngLoop, RngResult.waiting.injEq] at hw; rw [hw, List.nil_append]
  | cons x a ih =>
    cases x with
    | fail =>
      simp only [rngLoop, List.cons_append] at hw ⊢
      split at hw
      · cases hw
      · rename_i hne; rw [if_neg hne]; exact ih hw
    | value v =>
      simp only [rngLoop, List.cons_append] at hw ⊢
      split at hw
      · rename_i hr
        rw [if_pos hr]
        cases hat : attempt v { h with tries := 0 } with
        | error e => simp [hat] at hw
        | ok r =>
          cases r with
          | done r => simp [hat] at hw
          | restart h'' => simp only [hat] at hw ⊢; exact ih hw
      · rename_i hr; rw [if_neg hr]; exact ih hw

/-- A result or error takes the answers it needs from the front and leaves the others. -/
theorem rngLoop_suffix {a rest : List RngAnswer} {h : Hidden} (hr : (∃ r, rngLoop c attempt a h = .done r rest) ∨
    (∃ e, rngLoop c attempt a h = .failed e rest)) : ∃ pre, a = pre ++ rest := by
  induction a generalizing h with
  | nil => simp [rngLoop] at hr
  | cons x a ih =>
    cases x with
    | fail =>
      simp only [rngLoop] at hr
      split at hr
      · simp at hr; exact ⟨[.fail], by simp [hr]⟩
      · obtain ⟨pre, rfl⟩ := ih hr; exact ⟨.fail :: pre, rfl⟩
    | value v =>
      simp only [rngLoop] at hr
      split at hr
      · cases hat : attempt v { h with tries := 0 } with
        | error e => simp [hat] at hr; exact ⟨[.value v], by simp [hr]⟩
        | ok r =>
          cases r with
          | done r => simp [hat] at hr; exact ⟨[.value v], by simp [hr]⟩
          | restart h'' => simp only [hat] at hr; obtain ⟨pre, rfl⟩ := ih hr; exact ⟨.value v :: pre, rfl⟩
      · obtain ⟨pre, rfl⟩ := ih hr; exact ⟨.value v :: pre, rfl⟩

/-- While a command waits, fewer than `ENTROPY_TRIES` requests in a row have failed (R96), if no attempt breaks that. -/
theorem rngLoop_tries {a : List RngAnswer} {h h' : Hidden} (h0 : h.tries < c.entropyTries)
    (hat : ∀ k g g', attempt k g = .ok (.restart g') → g'.tries = g.tries)
    (hw : rngLoop c attempt a h = .waiting h') : h'.tries < c.entropyTries := by
  induction a generalizing h with
  | nil => simp only [rngLoop, RngResult.waiting.injEq] at hw; rwa [← hw]
  | cons x a ih =>
    cases x with
    | fail =>
      simp only [rngLoop] at hw
      split at hw
      · cases hw
      · exact ih (by simp only; omega) hw
    | value v =>
      simp only [rngLoop] at hw
      split at hw
      · cases hv : attempt v { h with tries := 0 } with
        | error e => simp [hv] at hw
        | ok r =>
          cases r with
          | done r => simp [hv] at hw
          | restart h'' =>
            simp only [hv] at hw
            refine ih ?_ hw
            rw [hat _ _ _ hv]; simp only; omega
      · exact ih (by simp only; omega) hw

end Sys2Proof.Machine
end

