-- ==== Sys2Proof/Laws/Exec.lean ====
section
/-! SUPPORT. What a command can do, said once for all commands: it completes having written only what it may write, it raises,
or it waits (`exec_cases`), and does the same when it goes on after waiting (`resume_cases`); and how a meaning that ends in `finish` completes or answers. -/

namespace Sys2Proof.Machine

/-- A meaning that ends in `finish` with its writes done completes. -/
theorem completes_of {i : Instr} {s t : State} {pred : Bool} {fs : List FReg} {ps : List PReg} {addr len : Nat}
    (h : exec i s = finish pred s (.ok t)) (hu : Unchanged s t fs ps addr len) (ht : t.t = s.t) (hr : t.rng = s.rng) :
    Completes i s t.complete fs ps addr len :=
  ⟨h, ended_complete t, hu.complete, ht, hr⟩

/-- A predicate command that ends in `finish` with its answer in `T` answers. -/
theorem answers_of {i : Instr} {s : State} {pred b : Bool} (h : exec i s = finish pred s (.ok (s.setT b))) : Answers i s b :=
  ⟨_, h, ended_complete _, (unchanged_setT s b).complete, rfl, rfl⟩

theorem unchanged_store {s : State} (hw : s.xb.wf = true) (addr n v : Nat) : Unchanged s (s.store addr n v) [] [] addr n :=
  ⟨fun _ _ => rfl, fun _ _ => rfl, fun _ ha => Memory.get_write_outside hw ha v, rfl, rfl⟩

theorem unchanged_store_store {s : State} (hw : s.xb.wf = true) (addr n v w : Nat) :
    Unchanged s ((s.store addr n v).store (addr + n) n w) [] [] addr (2 * n) := by
  refine ⟨fun _ _ => rfl, fun _ _ => rfl, fun a ha => ?_, rfl, rfl⟩
  simp only [State.store_xb]
  rw [Memory.get_write_outside (Memory.wf_write hw _ _ _) (by omega), Memory.get_write_outside hw (by omega)]

theorem unchanged_drawn (s : State) (g : Hidden) (rest : List RngAnswer) :
    Unchanged s (State.setRng { s with hid := g } rest) [] [] 0 0 :=
  ⟨fun _ _ => rfl, fun _ _ => rfl, fun _ _ => rfl, rfl, rfl⟩

theorem unchanged_writeKeyPair {s t : State} (h : Unchanged s t [] [] 0 0) (rd : FReg) (rq : PReg) (r : Nat × PointValue) :
    Unchanged s (writeKeyPair rd rq t r) [rd] [rq] 0 0 := by
  refine ⟨fun j hj => ?_, fun j hj => ?_, h.buffer, h.config, h.moves⟩
  · rw [List.mem_singleton] at hj
    rw [writeKeyPair, State.setP_getF, State.setF_getF_ne _ (Ne.symm hj), h.scalars j (by simp)]
  · rw [List.mem_singleton] at hj
    rw [writeKeyPair, State.setP_getP_ne _ (Ne.symm hj), State.setF_getP, h.points j (by simp)]

theorem unchanged_writeSignature {s t : State} (h : Unchanged s t [] [] 0 0) (rr rs : FReg) (r : Nat × Nat) :
    Unchanged s (writeSignature rr rs t r) [rr, rs] [] 0 0 := by
  refine ⟨fun j hj => ?_, h.points, h.buffer, h.config, h.moves⟩
  simp only [List.mem_cons, List.not_mem_nil, or_false, not_or] at hj
  rw [writeSignature, State.setF_getF_ne _ (Ne.symm hj.2), State.setF_getF_ne _ (Ne.symm hj.1), h.scalars j (by simp)]

/-- The three ways a command ends. -/
inductive Ending (i : Instr) (s : State) : State → Prop where
  /-- It completes: `u` has its writes done. -/
  | completed {u : State}
      (writes : s.xb.wf = true → Unchanged s u (scalarDests i) (pointDests i) (storedBytes s.cfg.dp i).1 (storedBytes s.cfg.dp i).2)
      (inputs : u.cfg = s.cfg ∧ u.env = s.env) (flag : isPredicate i = false → u.t = s.t) (taken : ∃ pre, s.rng = pre ++ u.rng)
      (noDraw : i.op ≠ .keygen → i.op ≠ .sign → u.rng = s.rng) : Ending i s u.complete
  /-- It raises. -/
  | raised {e : ErrorKind} {rest : List RngAnswer} (taken : ∃ pre, s.rng = pre ++ rest)
      (noDraw : i.op ≠ .keygen → i.op ≠ .sign → rest = s.rng) : Ending i s ((s.setRng rest).raise (isPredicate i) e)
  /-- It waits for an RNG answer. -/
  | waiting {c : Running} {h : Hidden} (hc : c.instr = i) : Ending i s (s.beginDraws.wait c h)

/-- The ending of a meaning that ends in `finish`. -/
theorem Ending.of_finish {i : Instr} {s t : State} {r : Except ErrorKind State} (h : finish (isPredicate i) s r = .next t)
    (hok : ∀ u, r = .ok u → (s.xb.wf = true → Unchanged s u (scalarDests i) (pointDests i) (storedBytes s.cfg.dp i).1 (storedBytes s.cfg.dp i).2)
      ∧ (isPredicate i = false → u.t = s.t) ∧ u.rng = s.rng ∧ u.cfg = s.cfg ∧ u.env = s.env) : Ending i s t := by
  rcases finish_cases h with ⟨u, hr, rfl⟩ | ⟨e, -, rfl⟩
  · obtain ⟨h1, h2, h3, h4⟩ := hok u hr
    exact .completed h1 h4 h2 ⟨[], by rw [h3, List.nil_append]⟩ fun _ _ => h3
  · exact .raised (rest := s.rng) ⟨[], rfl⟩ fun _ _ => rfl

/-- The ending of a meaning that draws, whatever the hidden registers `g` held when it started or went on. -/
theorem Ending.of_finishDraws {α : Type} {i : Instr} {s t : State} {c : Running} {write : State → α → State}
    {att : Nat → Hidden → Except ErrorKind (Attempt α)} {g h0 : Hidden} (hi : c.instr = i) (hp : isPredicate i = false)
    (hop : i.op = .keygen ∨ i.op = .sign)
    (h : finishDraws { s with hid := g } c write (rngLoop s.cfg att s.rng h0) = .next t)
    (hw : ∀ rest a, Unchanged s (write (State.setRng { s with hid := g } rest) a) (scalarDests i) (pointDests i)
      (storedBytes s.cfg.dp i).1 (storedBytes s.cfg.dp i).2 ∧ (write (State.setRng { s with hid := g } rest) a).t = s.t ∧
      (write (State.setRng { s with hid := g } rest) a).rng = rest) : Ending i s t := by
  have hno : i.op ≠ .keygen → i.op ≠ .sign → False := fun h1 h2 => hop.elim h1 h2
  rcases finishDraws_cases h with ⟨a, rest, hr, rfl⟩ | ⟨e, rest, hr, rfl⟩ | ⟨hid, -, rfl⟩
  · obtain ⟨h1, h2, h3⟩ := hw rest a
    exact .completed (fun _ => h1) ⟨h1.config, h1.moves⟩ (fun _ => h2) (by rw [h3]; exact rngLoop_suffix att (.inl ⟨a, hr⟩)) fun a b => (hno a b).elim
  · have := Ending.raised (i := i) (s := s) (e := e) (rngLoop_suffix att (.inr ⟨e, hr⟩)) fun a b => (hno a b).elim
    rwa [hp] at this
  · exact .waiting hi

/-- What any command can do. -/
theorem exec_cases {i : Instr} {s t : State} (h : exec i s = .next t) : Ending i s t := by
  cases i
  case fadd m rd ra rb =>
    refine .of_finish h fun u hu => ?_
    obtain ⟨v, -, hu⟩ := bind_ok hu
    cases hu
    exact ⟨fun _ => unchanged_setF .., fun _ => rfl, rfl, rfl, rfl⟩
  case fsub m rd ra rb =>
    refine .of_finish h fun u hu => ?_
    obtain ⟨v, -, hu⟩ := bind_ok hu
    cases hu
    exact ⟨fun _ => unchanged_setF .., fun _ => rfl, rfl, rfl, rfl⟩
  case fneg m rd ra =>
    refine .of_finish h fun u hu => ?_
    obtain ⟨v, -, hu⟩ := bind_ok hu
    cases hu
    exact ⟨fun _ => unchanged_setF .., fun _ => rfl, rfl, rfl, rfl⟩
  case feq m ra rb =>
    refine .of_finish h fun u hu => ?_
    obtain ⟨v, -, hu⟩ := bind_ok hu
    cases hu
    exact ⟨fun _ => unchanged_setT .., nofun, rfl, rfl, rfl⟩
  case fmul m rd ra rb =>
    refine .of_finish h fun u hu => ?_
    obtain ⟨v, -, hu⟩ := bind_ok hu
    cases hu
    exact ⟨fun _ => unchanged_setF .., fun _ => rfl, rfl, rfl, rfl⟩
  case finv m rd ra =>
    refine .of_finish h fun u hu => ?_
    obtain ⟨v, -, hu⟩ := bind_ok hu
    cases hu
    exact ⟨fun _ => unchanged_setF .., fun _ => rfl, rfl, rfl, rfl⟩
  case fld m rd off =>
    refine .of_finish h fun u hu => ?_
    dsimp only at hu
    split_ifs at hu
    cases hu
    exact ⟨fun _ => unchanged_setF .., fun _ => rfl, rfl, rfl, rfl⟩
  case fst m rs off =>
    refine .of_finish h fun u hu => ?_
    cases m <;> (dsimp only at hu; split_ifs at hu; cases hu; exact ⟨fun hw => unchanged_store hw .., fun _ => rfl, rfl, rfl, rfl⟩)
  case pld rd off =>
    refine .of_finish h fun u hu => ?_
    dsimp only at hu
    split_ifs at hu
    cases hu
    exact ⟨fun _ => unchanged_setP .., fun _ => rfl, rfl, rfl, rfl⟩
  case pst rs off =>
    refine .of_finish h fun u hu => ?_
    split_ifs at hu
    cases hp : s.getP rs with
    | infinity => simp [hp] at hu
    | affine x y =>
      simp only [hp, Except.ok.injEq] at hu
      subst hu
      exact ⟨fun hw => unchanged_store_store hw .., fun _ => rfl, rfl, rfl, rfl⟩
  case pinf rd =>
    refine .of_finish (r := .ok (s.setP rd .infinity)) h fun u hu => ?_
    cases hu
    exact ⟨fun _ => unchanged_setP .., fun _ => rfl, rfl, rfl, rfl⟩
  case pisinf ra =>
    refine .of_finish (r := .ok (s.setT (s.getP ra).isInfinity)) h fun u hu => ?_
    cases hu
    exact ⟨fun _ => unchanged_setT .., nofun, rfl, rfl, rfl⟩
  case ponc ra =>
    refine .of_finish h fun u hu => ?_
    obtain ⟨v, -, hu⟩ := bind_ok hu
    cases hu
    exact ⟨fun _ => unchanged_setT .., nofun, rfl, rfl, rfl⟩
  case pneg rd ra =>
    refine .of_finish h fun u hu => ?_
    obtain ⟨v, -, hu⟩ := bind_ok hu
    cases hu
    exact ⟨fun _ => unchanged_setP .., fun _ => rfl, rfl, rfl, rfl⟩
  case pdbl rd ra =>
    refine .of_finish h fun u hu => ?_
    obtain ⟨v, -, hu⟩ := bind_ok hu
    cases hu
    exact ⟨fun _ => unchanged_setP .., fun _ => rfl, rfl, rfl, rfl⟩
  case padd rd ra rb =>
    refine .of_finish h fun u hu => ?_
    obtain ⟨v, -, hu⟩ := bind_ok hu
    cases hu
    exact ⟨fun _ => unchanged_setP .., fun _ => rfl, rfl, rfl, rfl⟩
  case smul rd ra rk =>
    refine .of_finish h fun u hu => ?_
    obtain ⟨v, -, hu⟩ := bind_ok hu
    cases hu
    exact ⟨fun _ => unchanged_setP .., fun _ => rfl, rfl, rfl, rfl⟩
  case keygen rd rq =>
    exact .of_finishDraws (c := .keygen rd rq) (g := Hidden.zero) rfl rfl (.inl rfl) h fun rest a =>
      ⟨unchanged_writeKeyPair (unchanged_drawn s _ rest) rd rq a, rfl, rfl⟩
  case sign rr rs re rd =>
    have hself : ∀ e, Ending (.sign rr rs re rd) s (s.raise false e) := fun e =>
      .raised (i := .sign rr rs re rd) (rest := s.rng) ⟨[], rfl⟩ fun _ _ => rfl
    simp only [exec, execSign, runSign] at h
    split_ifs at h
    · cases h; exact hself _
    · cases h; exact hself _
    · exact .of_finishDraws (c := .sign rr rs re rd) (g := Hidden.zero) rfl rfl (.inr rfl) h fun rest a =>
        ⟨unchanged_writeSignature (unchanged_drawn s _ rest) rr rs a, rfl, rfl⟩
  case verify rr rs re rq =>
    refine .of_finish h fun u hu => ?_
    obtain ⟨v, -, hu⟩ := bind_ok hu
    cases hu
    exact ⟨fun _ => unchanged_setT .., nofun, rfl, rfl, rfl⟩
  case wipe rd =>
    refine .of_finish (r := .ok (s.setF rd 0)) h fun u hu => ?_
    cases hu
    exact ⟨fun _ => unchanged_setF .., fun _ => rfl, rfl, rfl, rfl⟩

/-- What a command that waited can do when it goes on: the same. -/
theorem resume_cases {c : Running} {s t : State} (h : resume c s = .next t) : Ending c.instr s t := by
  cases c with
  | keygen rd rq =>
    exact .of_finishDraws (c := .keygen rd rq) (g := s.hid) rfl rfl (.inl rfl) h fun rest a =>
      ⟨unchanged_writeKeyPair (unchanged_drawn s _ rest) rd rq a, rfl, rfl⟩
  | sign rr rs re rd =>
    simp only [resume, runSign] at h
    split_ifs at h
    · cases h
      exact .raised (i := .sign rr rs re rd) (rest := s.rng) ⟨[], rfl⟩ fun _ _ => rfl
    · exact .of_finishDraws (c := .sign rr rs re rd) (g := s.hid) rfl rfl (.inr rfl) h fun rest a =>
        ⟨unchanged_writeSignature (unchanged_drawn s _ rest) rr rs a, rfl, rfl⟩

/-- Every command that goes on answers a next state. -/
theorem resume_total (c : Running) (s : State) : ∃ t, resume c s = .next t := by
  cases c with
  | keygen => exact finishDraws_total ..
  | sign =>
    simp only [resume, runSign]
    split_ifs
    · exact ⟨_, rfl⟩
    · exact finishDraws_total ..

/-- Every command answers a next state. -/
theorem exec_total (i : Instr) (s : State) : ∃ t, exec i s = .next t := by
  cases i
  case keygen => exact finishDraws_total ..
  case sign rr rs re rd =>
    simp only [exec, execSign, runSign]
    split_ifs
    · exact ⟨_, rfl⟩
    · exact ⟨_, rfl⟩
    · exact finishDraws_total ..
  case pinf => exact ⟨_, rfl⟩
  case pisinf => exact ⟨_, rfl⟩
  case wipe => exact ⟨_, rfl⟩
  all_goals exact finish_total ..

end Sys2Proof.Machine
end

