-- ==== Sys2Proof/Laws/Field.lean ====
section
/-! SUPPORT. The three field units: when each function answers, what it answers, that results are reduced, and that `powMod` is
the closed form of R69. -/

namespace Sys2Proof.Machine

/-! ### Bit lengths -/

/-- R6: `v < 2^bitlen(v)`. -/
theorem lt_two_pow_bitlen (v : Nat) : v < 2 ^ bitlen v := by
  unfold bitlen
  split
  · simp_all
  · exact Nat.lt_log2_self

/-- R6: `bitlen(v)` is the least such number. -/
theorem bitlen_le_iff (v t : Nat) : bitlen v ≤ t ↔ v < 2 ^ t := by
  constructor
  · intro h
    exact Nat.lt_of_lt_of_le (lt_two_pow_bitlen v) (Nat.pow_le_pow_right (by decide) h)
  · intro h
    unfold bitlen
    split
    · omega
    · rename_i hv
      exact (Nat.log2_lt hv).mpr h

/-- A value below `2^bitlen(m)` fits in `ceil(bitlen(m)/8)` bytes. -/
theorem lt_pow_bytes (m : Nat) : m < 2 ^ (8 * ((bitlen m + 7) / 8)) :=
  (bitlen_le_iff m _).mp (by omega)

theorem p_lt_two_pow_regBits (d : DP) : d.p < 2 ^ d.regBits :=
  Nat.lt_of_lt_of_le (lt_pow_bytes d.p) (Nat.pow_le_pow_right (by decide) (by simp [DP.regBits, DP.regBytes, DP.lp]))

theorem n_lt_two_pow_regBits (d : DP) : d.n < 2 ^ d.regBits :=
  Nat.lt_of_lt_of_le (lt_pow_bytes d.n) (Nat.pow_le_pow_right (by decide) (by simp [DP.regBits, DP.regBytes, DP.ln]))

theorem modulus_lt_two_pow_regBits (d : DP) (m : Modulus) : d.modulus m < 2 ^ d.regBits := by
  cases m
  · exact p_lt_two_pow_regBits d
  · exact n_lt_two_pow_regBits d

/-! ### The functions -/

theorem fadd_of_lt {m a b : Nat} (ha : a < m) (hb : b < m) : fadd m a b = .ok ((a + b) % m) := by
  simp [fadd, Nat.not_le.mpr ha, Nat.not_le.mpr hb]

theorem fsub_of_lt {m a b : Nat} (ha : a < m) (hb : b < m) : fsub m a b = .ok ((a + m - b) % m) := by
  simp [fsub, Nat.not_le.mpr ha, Nat.not_le.mpr hb]

theorem fneg_of_lt {m a : Nat} (ha : a < m) : fneg m a = .ok ((m - a) % m) := by
  simp [fneg, Nat.not_le.mpr ha]

theorem feq_of_lt {m a b : Nat} (ha : a < m) (hb : b < m) : feq m a b = .ok (decide (a = b)) := by
  simp [feq, Nat.not_le.mpr ha, Nat.not_le.mpr hb]

theorem fmul_of_lt {m a b : Nat} (ha : a < m) (hb : b < m) : fmul m a b = .ok (a * b % m) := by
  simp [fmul, Nat.not_le.mpr ha, Nat.not_le.mpr hb]

theorem finv_of_lt {m a : Nat} (ha : a < m) (h0 : a ≠ 0) : finv m a = .ok (powMod m a (m - 2)) := by
  simp [finv, Nat.not_le.mpr ha, h0]

theorem fadd_eq_ok {m a b v : Nat} (h : fadd m a b = .ok v) : a < m ∧ b < m ∧ v = (a + b) % m := by
  unfold fadd at h; split at h
  · cases h
  · simp only [Except.ok.injEq] at h; omega

theorem fsub_eq_ok {m a b v : Nat} (h : fsub m a b = .ok v) : a < m ∧ b < m ∧ v = (a + m - b) % m := by
  unfold fsub at h; split at h
  · cases h
  · simp only [Except.ok.injEq] at h; omega

theorem fneg_eq_ok {m a v : Nat} (h : fneg m a = .ok v) : a < m ∧ v = (m - a) % m := by
  unfold fneg at h; split at h
  · cases h
  · simp only [Except.ok.injEq] at h; omega

theorem fmul_eq_ok {m a b v : Nat} (h : fmul m a b = .ok v) : a < m ∧ b < m ∧ v = a * b % m := by
  unfold fmul at h; split at h
  · cases h
  · simp only [Except.ok.injEq] at h; omega

theorem finv_eq_ok {m a v : Nat} (h : finv m a = .ok v) : a < m ∧ a ≠ 0 ∧ v = powMod m a (m - 2) := by
  unfold finv at h; split at h
  · cases h
  · split at h
    · cases h
    · simp only [Except.ok.injEq] at h; omega

/-! ### The closed form of the inverse -/

theorem powModLoop_eq (m a e i acc : Nat) :
    powModLoop m a e i acc % m = acc ^ 2 ^ i * a ^ (e % 2 ^ i) % m := by
  induction i generalizing acc with
  | zero => simp [powModLoop, Nat.mod_one]
  | succ i ih =>
    have hsplit : e % 2 ^ (i + 1) = e % 2 ^ i + 2 ^ i * (e / 2 ^ i % 2) := by rw [Nat.pow_succ, Nat.mod_mul]
    have hsq : acc ^ 2 ^ (i + 1) = (acc * acc) ^ 2 ^ i := by
      rw [Nat.pow_succ, Nat.mul_comm, Nat.pow_mul, Nat.pow_two]
    simp only [powModLoop]
    split
    · rename_i hb
      have h1 : acc * acc % m * a % m ≡ acc * acc * a [MOD m] :=
        (Nat.mod_modEq _ _).trans ((Nat.mod_modEq _ _).mul_right a)
      rw [ih, hsplit, hb, Nat.mul_one, hsq, Nat.pow_add, Nat.mul_comm (a ^ _), ← Nat.mul_assoc, ← Nat.mul_pow]
      exact (h1.pow _).mul_right _
    · rename_i hb
      have hb0 : e / 2 ^ i % 2 = 0 := by omega
      rw [ih, hsplit, hb0, Nat.mul_zero, Nat.add_zero, hsq]
      exact ((Nat.mod_modEq _ _).pow _).mul_right _

theorem powModLoop_lt {m : Nat} (hm : 0 < m) (a e i : Nat) {acc : Nat} (h : acc < m) : powModLoop m a e i acc < m := by
  induction i generalizing acc with
  | zero => exact h
  | succ i ih =>
    simp only [powModLoop]
    split <;> exact ih (Nat.mod_lt _ hm)

/-- `powMod` is the closed form `a^e mod m` (R69). -/
theorem powMod_eq (m a e : Nat) : powMod m a e = a ^ e % m := by
  rcases Nat.eq_zero_or_pos m with rfl | hm
  · have key : ∀ i acc, powModLoop 0 a e i acc = acc ^ 2 ^ i * a ^ (e % 2 ^ i) := by
      intro i acc
      have := powModLoop_eq 0 a e i acc
      simpa [Nat.mod_zero] using this
    simp [powMod, key, Nat.mod_eq_of_lt (lt_two_pow_bitlen e)]
  · have hlt : powMod m a e < m := powModLoop_lt hm a e _ (Nat.mod_lt _ hm)
    have h := powModLoop_eq m a e (bitlen e) (1 % m)
    rw [Nat.mod_eq_of_lt (lt_two_pow_bitlen e), Nat.mul_mod, Nat.pow_mod, Nat.mod_mod, ← Nat.pow_mod, Nat.one_pow,
      ← Nat.mul_mod, Nat.one_mul] at h
    rwa [← powMod, Nat.mod_eq_of_lt hlt] at h

theorem powMod_lt {m : Nat} (hm : 0 < m) (a e : Nat) : powMod m a e < m := by
  rw [powMod_eq]; exact Nat.mod_lt _ hm

/-- R69, for a prime modulus: the value is an inverse. -/
theorem mul_powMod_eq_one {m a : Nat} (hm : m.Prime) (ha : a < m) (h0 : a ≠ 0) : a * powMod m a (m - 2) % m = 1 := by
  have hm2 : 2 ≤ m := hm.two_le
  have hco : Nat.Coprime a m := (hm.coprime_iff_not_dvd.mpr fun hd => absurd (Nat.le_of_dvd (by omega) hd) (by omega)).symm
  have hf : a ^ (m - 1) ≡ 1 [MOD m] := by
    have := Nat.ModEq.pow_totient hco
    rwa [Nat.totient_prime hm] at this
  rw [powMod_eq, Nat.mul_mod, Nat.mod_mod, ← Nat.mul_mod, ← Nat.pow_succ', show (m - 2).succ = m - 1 by omega]
  rw [hf, Nat.mod_eq_of_lt (by omega)]

/-! ### Results are reduced (R10, R21) -/

theorem fadd_lt {m a b v : Nat} (h : fadd m a b = .ok v) : v < m := by
  obtain ⟨ha, -, rfl⟩ := fadd_eq_ok h; exact Nat.mod_lt _ (by omega)

theorem fsub_lt {m a b v : Nat} (h : fsub m a b = .ok v) : v < m := by
  obtain ⟨ha, -, rfl⟩ := fsub_eq_ok h; exact Nat.mod_lt _ (by omega)

theorem fneg_lt {m a v : Nat} (h : fneg m a = .ok v) : v < m := by
  obtain ⟨ha, rfl⟩ := fneg_eq_ok h; exact Nat.mod_lt _ (by omega)

theorem fmul_lt {m a b v : Nat} (h : fmul m a b = .ok v) : v < m := by
  obtain ⟨ha, -, rfl⟩ := fmul_eq_ok h; exact Nat.mod_lt _ (by omega)

theorem finv_lt {m a v : Nat} (h : finv m a = .ok v) : v < m := by
  obtain ⟨ha, -, rfl⟩ := finv_eq_ok h; exact powMod_lt (by omega) _ _

end Sys2Proof.Machine
end

