-- ==== Sys2Proof/Laws/Point.lean ====
section
/-! SUPPORT. Points: results of the point units have reduced coordinates (R23), and for a valid `DP` and reduced operands no error
leaves a point unit (R77, R83, R86). -/

namespace Sys2Proof.Machine

open PointValue (infinity affine)

@[simp] theorem inRange_infinity (p : Nat) : PointValue.inRange p .infinity = true := rfl

@[simp] theorem inRange_affine (p x y : Nat) : PointValue.inRange p (.affine x y) = true ↔ x < p ∧ y < p := by
  simp [PointValue.inRange]

/-! ### Results are in range, for any `DP` -/

theorem pneg_inRange {d : DP} {v w : PointValue} (h : pneg d v = .ok w) (hv : v.inRange d.p = true) : w.inRange d.p = true := by
  cases v with
  | infinity => cases h; rfl
  | affine x y =>
    obtain ⟨y', hy, h⟩ := bind_ok h
    cases h
    simpa using ⟨((inRange_affine _ _ _).mp hv).1, fneg_lt hy⟩

theorem pdbl_inRange {d : DP} {v w : PointValue} (h : pdbl d v = .ok w) : w.inRange d.p = true := by
  cases v with
  | infinity => cases h; rfl
  | affine x y =>
    simp only [pdbl] at h
    split at h
    · cases h; rfl
    · obtain ⟨xx, -, h⟩ := bind_ok h
      obtain ⟨xx3, -, h⟩ := bind_ok h
      obtain ⟨num, -, h⟩ := bind_ok h
      obtain ⟨den, -, h⟩ := bind_ok h
      obtain ⟨inv, -, h⟩ := bind_ok h
      obtain ⟨lam, -, h⟩ := bind_ok h
      obtain ⟨lam2, -, h⟩ := bind_ok h
      obtain ⟨t, -, h⟩ := bind_ok h
      obtain ⟨x3, hx3, h⟩ := bind_ok h
      obtain ⟨dx, -, h⟩ := bind_ok h
      obtain ⟨ldx, -, h⟩ := bind_ok h
      obtain ⟨y3, hy3, h⟩ := bind_ok h
      cases h
      simpa using ⟨fsub_lt hx3, fsub_lt hy3⟩

theorem padd_inRange {d : DP} {v w u : PointValue} (h : padd d v w = .ok u) (hv : v.inRange d.p = true)
    (hw : w.inRange d.p = true) : u.inRange d.p = true := by
  cases v with
  | infinity => cases h; exact hw
  | affine x1 y1 =>
    cases w with
    | infinity => cases h; exact hv
    | affine x2 y2 =>
      simp only [padd] at h
      split at h
      · cases h; rfl
      · split at h
        · exact pdbl_inRange h
        · obtain ⟨num, -, h⟩ := bind_ok h
          obtain ⟨den, -, h⟩ := bind_ok h
          obtain ⟨inv, -, h⟩ := bind_ok h
          obtain ⟨lam, -, h⟩ := bind_ok h
          obtain ⟨lam2, -, h⟩ := bind_ok h
          obtain ⟨t, -, h⟩ := bind_ok h
          obtain ⟨x3, hx3, h⟩ := bind_ok h
          obtain ⟨dx, -, h⟩ := bind_ok h
          obtain ⟨ldx, -, h⟩ := bind_ok h
          obtain ⟨y3, hy3, h⟩ := bind_ok h
          cases h
          simpa using ⟨fsub_lt hx3, fsub_lt hy3⟩

theorem smulLoop_inRange {d : DP} {k : Nat} {v : PointValue} (hv : v.inRange d.p = true) {i : Nat} {acc w : PointValue}
    (h : smulLoop d k v i acc = .ok w) (ha : acc.inRange d.p = true) : w.inRange d.p = true := by
  induction i generalizing acc with
  | zero => cases h; exact ha
  | succ i ih =>
    obtain ⟨dbl, hd, h⟩ := bind_ok h
    split at h
    · obtain ⟨sum, hs, h⟩ := bind_ok h
      exact ih h (padd_inRange hs (pdbl_inRange hd) hv)
    · exact ih h (pdbl_inRange hd)

theorem smul_inRange {d : DP} {k : Nat} {v w : PointValue} (h : smul d k v = .ok w) (hv : v.inRange d.p = true) :
    w.inRange d.p = true := by
  unfold smul at h
  split at h
  · cases h
  · split at h
    · cases h; rfl
    · obtain ⟨on, -, h⟩ := bind_ok h
      cases on with
      | true => exact smulLoop_inRange hv h rfl
      | false => cases h

/-! ### The point units do not raise -/

section Valid

variable {d : DP}

/-- `2·y` is not zero modulo an odd prime (R84 step 3). -/
theorem double_mod_ne_zero (hp : d.p.Prime) (h3 : 3 < d.p) {y : Nat} (hy : y < d.p) (h0 : y ≠ 0) : (y + y) % d.p ≠ 0 := by
  intro h
  have hd : d.p ∣ 2 * y := by rw [Nat.two_mul]; exact Nat.dvd_of_mod_eq_zero h
  rcases (hp.dvd_mul).mp hd with hd | hd
  · exact absurd (Nat.le_of_dvd (by omega) hd) (by omega)
  · exact absurd (Nat.le_of_dvd (by omega) hd) (by omega)

/-- `x2 − x1` is not zero modulo `p` for different reduced coordinates (R87 case 5). -/
theorem diff_mod_ne_zero {p x1 x2 : Nat} (h1 : x1 < p) (h2 : x2 < p) (hne : x1 ≠ x2) : (x2 + p - x1) % p ≠ 0 := by
  rcases Nat.lt_or_ge x2 x1 with h | h
  · rw [Nat.mod_eq_of_lt (by omega)]; omega
  · rw [show x2 + p - x1 = (x2 - x1) + p by omega, Nat.add_mod_right, Nat.mod_eq_of_lt (by omega)]; omega

/-- R77: `on_curve` never raises, and what it answers. -/
theorem onCurve_affine (ha : d.a < d.p) (hb : d.b < d.p) {x y : Nat} (hx : x < d.p) (hy : y < d.p) :
    onCurve d (.affine x y) = .ok (decide (y ^ 2 % d.p = (x ^ 3 + d.a * x + d.b) % d.p)) := by
  have hp : 0 < d.p := by omega
  have m := fun v => Nat.mod_lt v hp
  simp only [onCurve, fmul_of_lt hy hy, fmul_of_lt hx hx, fmul_of_lt (m _) hx, fmul_of_lt ha hx, fadd_of_lt (m _) (m _),
    fadd_of_lt (m _) hb, ok_bind]
  have h1 : (x * x % d.p * x % d.p + d.a * x % d.p) % d.p + d.b ≡ x ^ 3 + d.a * x + d.b [MOD d.p] := by
    refine Nat.ModEq.add_right _ ((Nat.mod_modEq _ _).trans (Nat.ModEq.add ?_ (Nat.mod_modEq _ _)))
    refine (Nat.mod_modEq _ _).trans ?_
    rw [show x ^ 3 = x * x * x by ring]
    exact (Nat.mod_modEq _ _).mul_right _
  rw [show ((x * x % d.p * x % d.p + d.a * x % d.p) % d.p + d.b) % d.p = (x ^ 3 + d.a * x + d.b) % d.p from h1, Nat.pow_two]

/-- The values of `pdbl` in step 3 of R84, as naturals. -/
def dblLam (d : DP) (x y : Nat) : Nat :=
  (3 * (x * x % d.p) % d.p + d.a) % d.p * powMod d.p ((y + y) % d.p) (d.p - 2) % d.p

def dblX (d : DP) (x y : Nat) : Nat :=
  ((dblLam d x y * dblLam d x y % d.p + d.p - x) % d.p + d.p - x) % d.p

def dblY (d : DP) (x y : Nat) : Nat :=
  (dblLam d x y * ((x + d.p - dblX d x y) % d.p) % d.p + d.p - y) % d.p

/-- R83, R84: `pdbl` of a reduced affine pair with `y ≠ 0` answers the chord-and-tangent formulas. -/
theorem pdbl_affine (hp : d.p.Prime) (h3 : 3 < d.p) (ha : d.a < d.p) {x y : Nat} (hx : x < d.p) (hy : y < d.p) (h0 : y ≠ 0) :
    pdbl d (.affine x y) = .ok (.affine (dblX d x y) (dblY d x y)) := by
  have hp0 : 0 < d.p := by omega
  have m := fun v => Nat.mod_lt v hp0
  have hden := double_mod_ne_zero hp h3 hy h0
  simp only [pdbl, if_neg h0, fmul_of_lt hx hx, fmul_of_lt h3 (m _), fadd_of_lt (m _) ha, fadd_of_lt hy hy,
    finv_of_lt (m _) hden, fmul_of_lt (m _) (powMod_lt hp0 _ _), fmul_of_lt (m _) (m _), fsub_of_lt (m _) hx,
    fsub_of_lt hx (m _), fsub_of_lt (m _) hy, ok_bind]
  rfl

/-- The values of `padd` in case 5 of R87, as naturals. -/
def addLam (d : DP) (x1 y1 x2 y2 : Nat) : Nat :=
  (y2 + d.p - y1) % d.p * powMod d.p ((x2 + d.p - x1) % d.p) (d.p - 2) % d.p

def addX (d : DP) (x1 y1 x2 y2 : Nat) : Nat :=
  ((addLam d x1 y1 x2 y2 * addLam d x1 y1 x2 y2 % d.p + d.p - x1) % d.p + d.p - x2) % d.p

def addY (d : DP) (x1 y1 x2 y2 : Nat) : Nat :=
  (addLam d x1 y1 x2 y2 * ((x1 + d.p - addX d x1 y1 x2 y2) % d.p) % d.p + d.p - y1) % d.p

/-- R86, R87 case 5. -/
theorem padd_affine {x1 y1 x2 y2 : Nat} (hx1 : x1 < d.p) (hy1 : y1 < d.p) (hx2 : x2 < d.p) (hy2 : y2 < d.p) (hne : x1 ≠ x2) :
    padd d (.affine x1 y1) (.affine x2 y2) = .ok (.affine (addX d x1 y1 x2 y2) (addY d x1 y1 x2 y2)) := by
  have hp0 : 0 < d.p := by omega
  have m := fun v => Nat.mod_lt v hp0
  have hden := diff_mod_ne_zero hx1 hx2 hne
  simp only [padd, hne, false_and, if_false, fsub_of_lt hy2 hy1, fsub_of_lt hx2 hx1, finv_of_lt (m _) hden,
    fmul_of_lt (m _) (powMod_lt hp0 _ _), fmul_of_lt (m _) (m _), fsub_of_lt (m _) hx1, fsub_of_lt (m _) hx2,
    fsub_of_lt hx1 (m _), fsub_of_lt (m _) hy1, ok_bind]
  rfl

/-- R83: the doubler never answers with an error. -/
theorem pdbl_total (hp : d.p.Prime) (h3 : 3 < d.p) (ha : d.a < d.p) {v : PointValue} (hv : v.inRange d.p = true) :
    ∃ w, pdbl d v = .ok w := by
  cases v with
  | infinity => exact ⟨_, rfl⟩
  | affine x y =>
    obtain ⟨hx, hy⟩ := (inRange_affine _ _ _).mp hv
    by_cases h0 : y = 0
    · exact ⟨.infinity, by simp [pdbl, h0]⟩
    · exact ⟨_, pdbl_affine hp h3 ha hx hy h0⟩

/-- R86: the adder never answers with an error. -/
theorem padd_total (hp : d.p.Prime) (h3 : 3 < d.p) (ha : d.a < d.p) {v w : PointValue} (hv : v.inRange d.p = true)
    (hw : w.inRange d.p = true) : ∃ u, padd d v w = .ok u := by
  cases v with
  | infinity => exact ⟨_, rfl⟩
  | affine x1 y1 =>
    cases w with
    | infinity => exact ⟨_, rfl⟩
    | affine x2 y2 =>
      obtain ⟨hx1, hy1⟩ := (inRange_affine _ _ _).mp hv
      obtain ⟨hx2, hy2⟩ := (inRange_affine _ _ _).mp hw
      by_cases hx : x1 = x2
      · by_cases hy : y1 = y2
        · obtain ⟨u, hu⟩ := pdbl_total hp h3 ha hv
          exact ⟨u, by simp [padd, hx, hy] at hu ⊢; exact hu⟩
        · exact ⟨.infinity, by simp [padd, hx, hy]⟩
      · exact ⟨_, padd_affine hx1 hy1 hx2 hy2 hx⟩

/-- R91: `smul_loop` cannot raise. -/
theorem smulLoop_total (hp : d.p.Prime) (h3 : 3 < d.p) (ha : d.a < d.p) (k : Nat) {v : PointValue}
    (hv : v.inRange d.p = true) (i : Nat) {acc : PointValue} (hacc : acc.inRange d.p = true) :
    ∃ w, smulLoop d k v i acc = .ok w := by
  induction i generalizing acc with
  | zero => exact ⟨_, rfl⟩
  | succ i ih =>
    obtain ⟨dbl, hd⟩ := pdbl_total hp h3 ha hacc
    simp only [smulLoop, hd, ok_bind]
    split
    · obtain ⟨sum, hs⟩ := padd_total hp h3 ha (pdbl_inRange hd) hv
      simp only [hs, ok_bind]
      exact ih (padd_inRange hs (pdbl_inRange hd) hv)
    · exact ih (pdbl_inRange hd)

end Valid

end Sys2Proof.Machine
end

