-- ==== Sys2Proof/Laws/GroupLaw.lean ====
section
/-! SUPPORT. The point units compute the group law of the curve `y² = x³ + a·x + b` over `ZMod p` (Mathlib's affine points), for
a valid `DP`: `pneg` is negation, `pdbl` and `padd` are addition, `smul` is the multiple (R93). -/

namespace Sys2Proof.Machine

open WeierstrassCurve WeierstrassCurve.Affine

/-- The curve of an instance over `ZMod p` (R5). -/
def curve (d : DP) : Affine (ZMod d.p) where
  a₁ := 0
  a₂ := 0
  a₃ := 0
  a₄ := d.a
  a₆ := d.b

/-- A point value denotes a point of the group: reduced coordinates of that point, or Infinity for the identity (R22, R23). -/
def Denotes (d : DP) : PointValue → (curve d).Point → Prop
  | .infinity, .zero => True
  | .affine x y, .some X Y _ => x < d.p ∧ y < d.p ∧ (x : ZMod d.p) = X ∧ (y : ZMod d.p) = Y
  | .infinity, .some _ _ _ => False
  | .affine _ _, .zero => False

section Casts

variable {p : Nat}

theorem cast_mod (v : Nat) : ((v % p : Nat) : ZMod p) = (v : ZMod p) := ZMod.natCast_mod v p

theorem cast_subMod {a b : Nat} (hb : b < p) : (((a + p - b) % p : Nat) : ZMod p) = (a : ZMod p) - (b : ZMod p) := by
  rw [cast_mod, Nat.cast_sub (by omega), Nat.cast_add, ZMod.natCast_self, add_zero]

theorem cast_inj_of_lt {a b : Nat} (ha : a < p) (hb : b < p) (h : (a : ZMod p) = (b : ZMod p)) : a = b := by
  have := (ZMod.natCast_eq_natCast_iff' a b p).mp h
  rwa [Nat.mod_eq_of_lt ha, Nat.mod_eq_of_lt hb] at this

/-- R69: the inverter's value is the field inverse. -/
theorem cast_powMod [Fact p.Prime] {a : Nat} (ha : a < p) (h0 : a ≠ 0) : ((powMod p a (p - 2) : Nat) : ZMod p) = (a : ZMod p)⁻¹ := by
  have h := mul_powMod_eq_one (Fact.out : p.Prime) ha h0
  have hc : (a : ZMod p) * (powMod p a (p - 2) : Nat) = 1 := by
    rw [← Nat.cast_mul, ← cast_mod, h, Nat.cast_one]
  exact eq_inv_of_mul_eq_one_right hc

end Casts

section Valid

theorem neg_y {d : DP} (X Y : ZMod d.p) : (curve d).negY X Y = -Y := by simp [negY, curve]

variable {d : DP} [Fact d.p.Prime]

theorem curve_equation (X Y : ZMod d.p) : (curve d).Equation X Y ↔ Y ^ 2 = X ^ 3 + d.a * X + d.b := by
  simp [equation_iff, curve]

theorem curve_delta (d : DP) : (curve d).Δ = -16 * (4 * (d.a : ZMod d.p) ^ 3 + 27 * (d.b : ZMod d.p) ^ 2) := by
  simp only [WeierstrassCurve.Δ, WeierstrassCurve.b₂, WeierstrassCurve.b₄, WeierstrassCurve.b₆, WeierstrassCurve.b₈, curve]
  ring

theorem curve_delta_ne_zero (hd : d.Valid) : (curve d).Δ ≠ 0 := by
  rw [curve_delta]
  refine mul_ne_zero (neg_ne_zero.mpr ?_) ?_
  · have h2 : ((2 : Nat) : ZMod d.p) ≠ 0 := by
      intro h
      have := Nat.le_of_dvd (by decide) ((ZMod.natCast_eq_zero_iff 2 d.p).mp h)
      have := hd.threeLtP
      omega
    have : (16 : ZMod d.p) = ((2 : Nat) : ZMod d.p) ^ 4 := by norm_num
    rw [this]
    exact pow_ne_zero 4 h2
  · intro h
    refine hd.nonsingular ?_
    have hc : ((4 * d.a ^ 3 + 27 * d.b ^ 2 : Nat) : ZMod d.p) = 0 := by push_cast; exact h
    exact Nat.mod_eq_zero_of_dvd ((ZMod.natCast_eq_zero_iff _ _).mp hc)

/-- The curve test of R77 is the curve equation over `ZMod p`. -/
theorem onCurve_iff_equation {x y : Nat} :
    y ^ 2 % d.p = (x ^ 3 + d.a * x + d.b) % d.p ↔ (curve d).Equation (x : ZMod d.p) (y : ZMod d.p) := by
  rw [curve_equation, ← ZMod.natCast_eq_natCast_iff']
  push_cast
  rfl

/-- Reduced coordinates on the curve denote a point. -/
theorem denotes_of_onCurve (hd : d.Valid) {v : PointValue} (hv : v.inRange d.p = true) (h : onCurve d v = .ok true) :
    ∃ P, Denotes d v P := by
  cases v with
  | infinity => exact ⟨.zero, trivial⟩
  | affine x y =>
    obtain ⟨hx, hy⟩ := (inRange_affine _ _ _).mp hv
    rw [onCurve_affine hd.aLt hd.bLt hx hy] at h
    have he : (curve d).Equation (x : ZMod d.p) (y : ZMod d.p) := onCurve_iff_equation.mp (by simpa using h)
    exact ⟨.some x y ((equation_iff_nonsingular_of_Δ_ne_zero (curve_delta_ne_zero hd)).mp he), hx, hy, rfl, rfl⟩

omit [Fact d.p.Prime] in
theorem Denotes.inRange {v : PointValue} {P : (curve d).Point} (h : Denotes d v P) : v.inRange d.p = true := by
  cases v <;> cases P
  · rfl
  · exact h.elim
  · exact h.elim
  · exact (inRange_affine _ _ _).mpr ⟨h.1, h.2.1⟩

/-- What denotes a point is on the curve (R77). -/
theorem Denotes.onCurve (hd : d.Valid) {v : PointValue} {P : (curve d).Point} (h : Denotes d v P) : onCurve d v = .ok true := by
  cases v <;> cases P
  · rfl
  · exact h.elim
  · exact h.elim
  · rename_i x y X Y hns
    obtain ⟨hx, hy, hX, hY⟩ := h
    rw [onCurve_affine hd.aLt hd.bLt hx hy]
    have : (curve d).Equation (x : ZMod d.p) (y : ZMod d.p) := by rw [hX, hY]; exact hns.1
    simp [onCurve_iff_equation.mpr this]

omit [Fact d.p.Prime] in
/-- A point has one value. -/
theorem Denotes.unique {v w : PointValue} {P : (curve d).Point} (hv : Denotes d v P) (hw : Denotes d w P) : v = w := by
  cases P with
  | zero => cases v <;> cases w <;> first | rfl | exact hv.elim | exact hw.elim
  | some X Y h =>
    cases v <;> cases w
    · exact hv.elim
    · exact hv.elim
    · exact hw.elim
    · obtain ⟨hx, hy, hX, hY⟩ := hv
      obtain ⟨hx', hy', hX', hY'⟩ := hw
      rw [cast_inj_of_lt hx hx' (hX.trans hX'.symm), cast_inj_of_lt hy hy' (hY.trans hY'.symm)]

omit [Fact d.p.Prime] in
/-- A value denotes one point. -/
theorem Denotes.point_unique {v : PointValue} {P Q : (curve d).Point} (hP : Denotes d v P) (hQ : Denotes d v Q) : P = Q := by
  cases v <;> cases P <;> cases Q
  · rfl
  · exact hQ.elim
  · exact hP.elim
  · exact hP.elim
  · exact hP.elim
  · exact hP.elim
  · exact hQ.elim
  · obtain ⟨-, -, hX, hY⟩ := hP
    obtain ⟨-, -, hX', hY'⟩ := hQ
    subst hX hY hX' hY'
    rfl

omit [Fact d.p.Prime] in
theorem denotes_infinity : Denotes d .infinity (0 : (curve d).Point) := trivial

omit [Fact d.p.Prime] in
theorem Denotes.eq_infinity {v : PointValue} (h : Denotes d v (0 : (curve d).Point)) : v = .infinity :=
  h.unique denotes_infinity

/-- R78: `pneg` is negation. -/
theorem pneg_denotes {v : PointValue} {P : (curve d).Point} (h : Denotes d v P) :
    ∃ u, pneg d v = .ok u ∧ Denotes d u (-P) := by
  cases v <;> cases P
  · exact ⟨_, rfl, denotes_infinity⟩
  · exact h.elim
  · exact h.elim
  · rename_i x y X Y hns
    obtain ⟨hx, hy, hX, hY⟩ := h
    refine ⟨.affine x ((d.p - y) % d.p), ?_, ?_⟩
    · simp [pneg, fneg_of_lt hy]
    · rw [Point.neg_some]
      refine ⟨hx, Nat.mod_lt _ (by omega), hX, ?_⟩
      rw [neg_y, cast_mod, Nat.cast_sub (by omega), ZMod.natCast_self, hY, zero_sub]

theorem cast_double_ne_zero (hd : d.Valid) {y : Nat} (hy : y < d.p) (h0 : y ≠ 0) : (y : ZMod d.p) + y ≠ 0 := by
  intro h
  refine double_mod_ne_zero hd.primeP hd.threeLtP hy h0 ?_
  have hc : ((y + y : Nat) : ZMod d.p) = 0 := by push_cast; exact h
  exact Nat.mod_eq_zero_of_dvd ((ZMod.natCast_eq_zero_iff _ _).mp hc)

/-- R84: `pdbl` doubles. -/
theorem pdbl_denotes (hd : d.Valid) {v : PointValue} {P : (curve d).Point} (h : Denotes d v P) :
    ∃ u, pdbl d v = .ok u ∧ Denotes d u (P + P) := by
  cases v <;> cases P
  · exact ⟨_, rfl, denotes_infinity⟩
  · exact h.elim
  · exact h.elim
  · rename_i x y X Y hns
    obtain ⟨hx, hy, rfl, rfl⟩ := h
    have hp0 : 0 < d.p := by omega
    by_cases h0 : y = 0
    · subst h0
      refine ⟨.infinity, by simp [pdbl], ?_⟩
      rw [Point.add_self_of_Y_eq (by rw [neg_y, Nat.cast_zero, neg_zero])]
      exact denotes_infinity
    · have hne : (y : ZMod d.p) + y ≠ 0 := cast_double_ne_zero hd hy h0
      have hY : (y : ZMod d.p) ≠ (curve d).negY (x : ZMod d.p) (y : ZMod d.p) := by
        rw [neg_y]; intro hh; exact hne (eq_neg_iff_add_eq_zero.mp hh)
      refine ⟨_, pdbl_affine hd.primeP hd.threeLtP hd.aLt hx hy h0, ?_⟩
      rw [Point.add_self_of_Y_ne hY]
      have hs : (curve d).slope (x : ZMod d.p) x y y = (dblLam d x y : Nat) := by
        rw [slope_of_Y_ne rfl hY, neg_y, dblLam, cast_mod, Nat.cast_mul,
          cast_powMod (Nat.mod_lt _ hp0) (double_mod_ne_zero hd.primeP hd.threeLtP hy h0)]
        simp only [curve, ZMod.natCast_mod, Nat.cast_add, Nat.cast_mul, Nat.cast_ofNat]
        rw [div_eq_mul_inv, sub_neg_eq_add]
        ring
      have hX : (dblX d x y : ZMod d.p) = (curve d).addX (x : ZMod d.p) x ((curve d).slope (x : ZMod d.p) x y y) := by
        rw [dblX, cast_subMod hx, cast_subMod hx, cast_mod, Nat.cast_mul, hs, Affine.addX]
        simp only [curve]
        ring
      refine ⟨Nat.mod_lt _ hp0, Nat.mod_lt _ hp0, hX, ?_⟩
      rw [dblY, cast_subMod hy, cast_mod, Nat.cast_mul, cast_subMod (show dblX d x y < d.p from Nat.mod_lt _ hp0), Affine.addY, neg_y,
        negAddY, hX, hs]
      ring

/-- R87: `padd` adds. -/
theorem padd_denotes (hd : d.Valid) {v w : PointValue} {P Q : (curve d).Point} (hv : Denotes d v P) (hw : Denotes d w Q) :
    ∃ u, padd d v w = .ok u ∧ Denotes d u (P + Q) := by
  cases v with
  | infinity =>
    cases P with
    | zero => exact ⟨w, rfl, by rw [← Point.zero_def, zero_add]; exact hw⟩
    | some X Y h => exact hv.elim
  | affine x1 y1 =>
    cases P with
    | zero => exact hv.elim
    | some X1 Y1 hn1 =>
      cases w with
      | infinity =>
        cases Q with
        | zero => exact ⟨_, rfl, by rw [← Point.zero_def, add_zero]; exact hv⟩
        | some X Y h => exact hw.elim
      | affine x2 y2 =>
        cases Q with
        | zero => exact hw.elim
        | some X2 Y2 hn2 =>
          have hv' := hv
          obtain ⟨hx1, hy1, rfl, rfl⟩ := hv
          obtain ⟨hx2, hy2, rfl, rfl⟩ := hw
          have hp0 : 0 < d.p := by omega
          by_cases hx : x1 = x2
          · subst hx
            by_cases hy : y1 = y2
            · subst hy
              obtain ⟨u, hu, hdu⟩ := pdbl_denotes hd hv'
              exact ⟨u, by simp [padd, hu], hdu⟩
            · refine ⟨.infinity, by simp [padd, hy], ?_⟩
              have hYne : (y1 : ZMod d.p) ≠ y2 := fun hh => hy (cast_inj_of_lt hy1 hy2 hh)
              have hneg : (y1 : ZMod d.p) = (curve d).negY (x1 : ZMod d.p) (y2 : ZMod d.p) := by
                rcases Y_eq_of_X_eq hn1.1 hn2.1 rfl with hh | hh
                · exact absurd hh hYne
                · exact hh
              rw [Point.add_of_Y_eq rfl hneg]
              exact denotes_infinity
          · have hXne : (x1 : ZMod d.p) ≠ x2 := fun hh => hx (cast_inj_of_lt hx1 hx2 hh)
            refine ⟨_, padd_affine hx1 hy1 hx2 hy2 hx, ?_⟩
            rw [Point.add_of_X_ne hXne]
            have hs : (curve d).slope (x1 : ZMod d.p) x2 y1 y2 = (addLam d x1 y1 x2 y2 : Nat) := by
              rw [slope_of_X_ne hXne, addLam, cast_mod, Nat.cast_mul, cast_subMod hy1,
                cast_powMod (Nat.mod_lt _ hp0) (diff_mod_ne_zero hx1 hx2 hx), cast_subMod hx1, div_eq_mul_inv,
                ← neg_sub (y2 : ZMod d.p), ← neg_sub (x2 : ZMod d.p) (x1 : ZMod d.p), inv_neg]
              ring
            have hX : (addX d x1 y1 x2 y2 : ZMod d.p) =
                (curve d).addX (x1 : ZMod d.p) x2 ((curve d).slope (x1 : ZMod d.p) x2 y1 y2) := by
              rw [Machine.addX, cast_subMod hx2, cast_subMod hx1, cast_mod, Nat.cast_mul, hs, Affine.addX]
              simp only [curve]
              ring
            refine ⟨Nat.mod_lt _ hp0, Nat.mod_lt _ hp0, hX, ?_⟩
            rw [Machine.addY, cast_subMod hy1, cast_mod, Nat.cast_mul,
              cast_subMod (show Machine.addX d x1 y1 x2 y2 < d.p from Nat.mod_lt _ hp0), Affine.addY, neg_y, negAddY, hX, hs]
            ring

/-- R91: the loop computes `2^i · acc + (k mod 2^i) · P`. -/
theorem smulLoop_denotes (hd : d.Valid) (k : Nat) {v : PointValue} {P : (curve d).Point} (hv : Denotes d v P) (i : Nat)
    {acc : PointValue} {A : (curve d).Point} (hA : Denotes d acc A) :
    ∃ u, smulLoop d k v i acc = .ok u ∧
      Denotes d u ((2 ^ i) • A + (k % 2 ^ i) • P) := by
  induction i generalizing acc A with
  | zero => exact ⟨acc, rfl, by simpa [Nat.mod_one] using hA⟩
  | succ i ih =>
    have hsplit : k % 2 ^ (i + 1) = k % 2 ^ i + 2 ^ i * (k / 2 ^ i % 2) := by rw [Nat.pow_succ, Nat.mod_mul]
    obtain ⟨dbl, hdbl, hD⟩ := pdbl_denotes hd hA
    simp only [smulLoop, hdbl, ok_bind]
    split
    · rename_i hb
      obtain ⟨sum, hsum, hS⟩ := padd_denotes hd hD hv
      obtain ⟨u, hu, hU⟩ := ih hS
      refine ⟨u, by simp [hsum, hu], ?_⟩
      have : (2 ^ (i + 1)) • A + (k % 2 ^ (i + 1)) • P = (2 ^ i) • (A + A + P) + (k % 2 ^ i) • P := by
        rw [hsplit, hb, Nat.mul_one, Nat.pow_succ, ← two_nsmul, nsmul_add, add_nsmul, mul_nsmul']
        abel
      rw [this]
      exact hU
    · rename_i hb
      obtain ⟨u, hu, hU⟩ := ih hD
      refine ⟨u, hu, ?_⟩
      have hb0 : k / 2 ^ i % 2 = 0 := by omega
      have : (2 ^ (i + 1)) • A + (k % 2 ^ (i + 1)) • P = (2 ^ i) • (A + A) + (k % 2 ^ i) • P := by
        rw [hsplit, hb0, Nat.mul_zero, Nat.add_zero, Nat.pow_succ, Nat.add_zero, ← two_nsmul, mul_nsmul']
      rw [this]
      exact hU

/-- R93: `smul(k, V)` is the `k`-fold sum, for every `k < 2^NB`. -/
theorem smul_denotes (hd : d.Valid) {k : Nat} (hk : k < 2 ^ d.nb) {v : PointValue} {P : (curve d).Point} (hv : Denotes d v P) :
    ∃ u, smul d k v = .ok u ∧ Denotes d u (k • P) := by
  by_cases h0 : k = 0
  · subst h0
    exact ⟨.infinity, by simp [smul], by rw [zero_nsmul]; exact denotes_infinity⟩
  · obtain ⟨u, hu, hU⟩ := smulLoop_denotes hd k hv d.nb (denotes_infinity (d := d))
    refine ⟨u, by simp [smul, Nat.not_le.mpr hk, h0, hv.onCurve hd, hu], ?_⟩
    rw [nsmul_zero, zero_add, Nat.mod_eq_of_lt hk] at hU
    exact hU

/-- The base point denotes a point of order `n` (R5). -/
theorem basePoint_denotes (hd : d.Valid) : ∃ G : (curve d).Point, Denotes d (basePoint d) G ∧ G ≠ 0 ∧
    d.n • G = 0 := by
  obtain ⟨G, hG⟩ := denotes_of_onCurve hd (v := basePoint d) (by simp [basePoint, hd.gxLt, hd.gyLt])
    (by rw [basePoint, onCurve_affine hd.aLt hd.bLt hd.gxLt hd.gyLt]; simp [hd.baseOnCurve])
  refine ⟨G, hG, ?_, ?_⟩
  · rintro rfl
    exact absurd hG.eq_infinity (by simp [basePoint])
  · obtain ⟨u, hu, hU⟩ := smulLoop_denotes hd d.n hG d.nb (denotes_infinity (d := d))
    rw [hd.baseOrder] at hu
    cases hu
    rw [nsmul_zero, zero_add, Nat.mod_eq_of_lt (show d.n < 2 ^ d.nb from lt_two_pow_bitlen d.n)] at hU
    exact hU.point_unique denotes_infinity

end Valid

end Sys2Proof.Machine
end

