-- ==== Sys2Proof/Laws/Invariant.lean ====
section
/-! SUPPORT. The part of the invariant that does not speak of `BUSY` (`Body`), and how each operation and each way of ending keeps
it. -/

namespace Sys2Proof.Machine

/-- The clauses of `State.Inv` about the instance, the registers and the buffer. -/
structure Body (s : State) : Prop where
  config : s.cfg.usable = true
  scalars : ∀ i, s.getF i < 2 ^ s.cfg.dp.regBits
  points : ∀ i, (s.getP i).inRange s.cfg.dp.p = true
  canonical : s.xb.wf = true
  bounded : s.xb.below s.cfg.dp.xbSize = true

theorem Body.of_inv {s : State} (h : s.Inv) : Body s := ⟨h.config, h.scalars, h.points, h.canonical, h.bounded⟩

theorem Body.setF {s : State} (h : Body s) (i : FReg) {v : Nat} (hv : v < 2 ^ s.cfg.dp.regBits) : Body (s.setF i v) :=
  ⟨h.config, fun j => by
    by_cases hj : i = j
    · subst hj; simpa using hv
    · rw [State.setF_getF_ne _ hj]; exact h.scalars j, h.points, h.canonical, h.bounded⟩

theorem Body.setP {s : State} (h : Body s) (i : PReg) {v : PointValue} (hv : v.inRange s.cfg.dp.p = true) : Body (s.setP i v) :=
  ⟨h.config, h.scalars, fun j => by
    by_cases hj : i = j
    · subst hj; simpa using hv
    · rw [State.setP_getP_ne _ hj]; exact h.points j, h.canonical, h.bounded⟩

theorem Body.setT {s : State} (h : Body s) (b : Bool) : Body (s.setT b) := ⟨h.config, h.scalars, h.points, h.canonical,
    h.bounded⟩

theorem Body.store {s : State} (h : Body s) {addr n v : Nat} (hb : addr + n ≤ s.cfg.dp.xbSize) : Body (s.store addr n v) :=
  ⟨h.config, h.scalars, h.points, Memory.wf_write h.canonical _ _ _, Memory.below_write h.bounded hb v⟩

theorem Body.same {s t : State} (h : Body s) (h1 : t.cfg = s.cfg) (h2 : t.f = s.f) (h3 : t.pt = s.pt) (h4 : t.xb = s.xb) :
    Body t := by
  refine ⟨by rw [h1]; exact h.config, fun i => ?_, fun i => ?_, by rw [h4]; exact h.canonical, by rw [h4, h1]; exact h.bounded⟩
  · simp only [State.getF, h1, h2]; exact h.scalars i
  · simp only [State.getP, h1, h3]; exact h.points i

theorem Body.complete {s : State} (h : Body s) : s.complete.Inv :=
  ⟨h.config, h.scalars, h.points, (by decide : (0#4).toNat < 8), h.canonical, h.bounded, fun _ => rfl, fun hb => absurd rfl hb, fun hb => absurd rfl hb⟩

theorem Body.raise {s : State} (h : Body s) (p e) : (s.raise p e).Inv :=
  ⟨h.config, h.scalars, h.points, (by cases e <;> decide : e.code.toNat < 8), h.canonical, h.bounded, fun _ => rfl, fun hb => absurd rfl hb, fun hb => absurd rfl hb⟩

theorem inv_finish {pred : Bool} {s t : State} {r : Except ErrorKind State} (hs : Body s) (h : finish pred s r = .next t)
    (hr : ∀ u, r = .ok u → Body u) : t.Inv := by
  rcases finish_cases h with ⟨u, hu, rfl⟩ | ⟨e, -, rfl⟩
  · exact (hr u hu).complete
  · exact hs.raise _ _

theorem modulus_bound {s : State} {m : Modulus} {v : Nat} (h : v < s.modulus m) : v < 2 ^ s.cfg.dp.regBits := h.trans
    (modulus_lt_two_pow_regBits s.cfg.dp m)

theorem load_bound (s : State) (m : Modulus) (a : Nat) : s.load a (s.cfg.dp.fieldLen m) < 2 ^ s.cfg.dp.regBits := by
  refine lt_of_lt_of_le (Memory.read_lt _ _ _) ?_
  rw [show (256 : Nat) = 2 ^ 8 from rfl, ← Nat.pow_mul]
  refine Nat.pow_le_pow_right (by decide) ?_
  cases m <;> simp [DP.regBits, DP.regBytes, DP.fieldLen]

theorem inv_finishDraws {α} {s s0 t : State} {c : Running} {write : State → α → State} {att : Nat → Hidden → Except
    ErrorKind (Attempt α)} {h0 : Hidden}
    (hs : s.Inv) (hs0 : Body s0) (herr : s0.err = s.err)
    (ht : h0.tries < s0.cfg.entropyTries) (hat : ∀ k g g', att k g = .ok (.restart g') → g'.tries = g.tries)
    (hw : ∀ a rest, (∃ k g, k < s0.cfg.dp.n ∧ att k g = .ok (.done a)) → Body (write (s0.setRng rest) a))
    (h : finishDraws s0 c write (rngLoop s0.cfg att s0.rng h0) = .next t) : t.Inv := by
  have hdone : ∀ {l h a rest}, rngLoop s0.cfg att l h = .done a rest → ∃ k g, k < s0.cfg.dp.n ∧ att k g = .ok (.done a) := by
    intro l
    induction l with
    | nil => intro h a rest hh; cases hh
    | cons x l ih =>
      intro h a rest hh
      cases x with
      | fail =>
        simp only [rngLoop] at hh
        split at hh
        · cases hh
        · exact ih hh
      | value v =>
        simp only [rngLoop] at hh
        split at hh
        · rename_i hin
          split at hh
          · cases hh
          · rename_i e; cases hh; exact ⟨_, _, (inScalarRange_iff.mp hin).2, e⟩
          · exact ih hh
        · exact ih hh
  rcases finishDraws_cases h with ⟨a, rest, hr, rfl⟩ | ⟨e, rest, hr, rfl⟩ | ⟨h', hr, rfl⟩
  · exact (hw a rest (hdone hr)).complete
  · exact (Body.same hs0 rfl rfl rfl rfl : Body (s0.setRng rest)).raise _ _
  · refine ⟨hs0.config, hs0.scalars, hs0.points, by simp only [State.wait_err, herr]; exact hs.code, hs0.canonical, hs0.bounded, fun h => (by cases h), fun _ => ?_, fun _ => rfl⟩
    have := rngLoop_tries att ht hat hr
    exact this

theorem keygenAttempt_tries (d : DP) (k g g') (h : keygenAttempt d k g = .ok (.restart g')) : g'.tries = g.tries := by
  obtain ⟨_, _, h⟩ := bind_ok h
  cases h

theorem signAttempt_tries (d : DP) (e sk k g g') (h : signAttempt d e sk k g = .ok (.restart g')) : g'.tries = g.tries := by
  obtain ⟨p, _, h⟩ := bind_ok h
  cases p with
  | infinity => cases h; rfl
  | affine x y =>
    simp only at h
    split at h
    · cases h; rfl
    · obtain ⟨_, _, h⟩ := bind_ok h
      obtain ⟨_, _, h⟩ := bind_ok h
      obtain ⟨_, _, h⟩ := bind_ok h
      obtain ⟨_, _, h⟩ := bind_ok h
      split at h <;> cases h
      rfl

theorem usable_iff {c : Config} : c.usable = true ↔ (0 < c.dp.p ∧ 0 < c.dp.n ∧ c.dp.gx < c.dp.p ∧ c.dp.gy < c.dp.p ∧ 1 ≤
    c.entropyTries) := by simp [Config.usable]

theorem code_ne_zero (e : ErrorKind) : e.code ≠ 0 := by cases e <;> decide

theorem code_injective {e e' : ErrorKind} (h : e.code = e'.code) : e = e' := by revert h; cases e <;> cases e' <;> decide

end Sys2Proof.Machine
end

