-- ==== Sys2Proof/Laws/PerInstr.lean ====
section
/-! SUPPORT. The family `MaskTable`: the word of every command selects its own row of opcode_table.json, `w & mask = match`
(30_encoding.md, after R51). -/

namespace Sys2Proof

/-- A mask only looks at bits outside `Z` and `RSV` through `packR`; the bits of those fields are zero in every format-R word. -/
theorem packR_and_mask (o : BitVec 8) (m : Bool) (a b c e : BitVec 4) (mask : Word) :
    packR o m a b c e &&& mask =
      packR (o &&& (split mask).opc) (m && (split mask).m) (a &&& (split mask).rd) (b &&& (split mask).ra)
        (c &&& (split mask).rb) (e &&& (split mask).rc) := by
  refine BitVec.eq_of_getLsbD_eq fun i hi => ?_
  simp only [BitVec.getLsbD_and, getLsbD_packR, split, BitVec.getLsbD_extractLsb']
  split_ifs
  · rfl
  · simp [show i - 4 < 4 by omega, show 4 + (i - 4) = i by omega]
  · simp [show i - 8 < 4 by omega, show 8 + (i - 8) = i by omega]
  · simp [show i - 12 < 4 by omega, show 12 + (i - 12) = i by omega]
  · simp [show i - 16 < 4 by omega, show 16 + (i - 16) = i by omega]
  · rfl
  · simp [show i = 23 by omega]
  · simp [show i - 24 < 8 by omega, show 24 + (i - 24) = i by omega]

theorem packB_and_mask (o : BitVec 8) (m : Bool) (a : BitVec 4) (f : Offset) (mask : Word) :
    packB o m a f &&& mask =
      packB (o &&& (split mask).opc) (m && (split mask).m) (a &&& (split mask).rd) (f &&& (split mask).off) := by
  refine BitVec.eq_of_getLsbD_eq fun i hi => ?_
  simp only [BitVec.getLsbD_and, getLsbD_packB, split, BitVec.getLsbD_extractLsb']
  split_ifs
  · simp [show i < 16 by omega]
  · simp [show i - 16 < 4 by omega, show 16 + (i - 16) = i by omega]
  · rfl
  · simp [show i = 23 by omega]
  · simp [show i - 24 < 8 by omega, show 24 + (i - 24) = i by omega]

/-- A scalar index has its bit 3 zero (R50). -/
theorem indexField_f_and_8 (i : FReg) : indexField i &&& 8#4 = 0#4 := by revert i; decide

/-- A point index has its bits 3 and 2 zero (R50). -/
theorem indexField_p_and_12 (i : PReg) : indexField i &&& 12#4 = 0#4 := by revert i; decide

namespace Laws.MaskTable

/-- The word of a command selects its own row of the table. -/
def Statement (i : Instr) : Prop := encode i &&& i.op.mask = i.op.pattern

theorem fadd (m : Modulus) (rd ra rb : FReg) : Statement (.fadd m rd ra rb) := by
  simp only [Statement, encode, Instr.op, packR_and_mask]
  simp only [Op.mask, Op.pattern, split]
  simp [indexField_f_and_8]
  decide

theorem fsub (m : Modulus) (rd ra rb : FReg) : Statement (.fsub m rd ra rb) := by
  simp only [Statement, encode, Instr.op, packR_and_mask]
  simp only [Op.mask, Op.pattern, split]
  simp [indexField_f_and_8]
  decide

theorem fneg (m : Modulus) (rd ra : FReg) : Statement (.fneg m rd ra) := by
  simp only [Statement, encode, Instr.op, packR_and_mask]
  simp only [Op.mask, Op.pattern, split]
  simp [indexField_f_and_8]
  decide

theorem feq (m : Modulus) (ra rb : FReg) : Statement (.feq m ra rb) := by
  simp only [Statement, encode, Instr.op, packR_and_mask]
  simp only [Op.mask, Op.pattern, split]
  simp [indexField_f_and_8]
  decide

theorem fmul (m : Modulus) (rd ra rb : FReg) : Statement (.fmul m rd ra rb) := by
  simp only [Statement, encode, Instr.op, packR_and_mask]
  simp only [Op.mask, Op.pattern, split]
  simp [indexField_f_and_8]
  decide

theorem finv (m : Modulus) (rd ra : FReg) : Statement (.finv m rd ra) := by
  simp only [Statement, encode, Instr.op, packR_and_mask]
  simp only [Op.mask, Op.pattern, split]
  simp [indexField_f_and_8]
  decide

theorem fld (m : Modulus) (rd : FReg) (off : Offset) : Statement (.fld m rd off) := by
  simp only [Statement, encode, Instr.op, packB_and_mask]
  simp only [Op.mask, Op.pattern, split]
  simp [indexField_f_and_8]
  decide

theorem fst (m : Modulus) (rs : FReg) (off : Offset) : Statement (.fst m rs off) := by
  simp only [Statement, encode, Instr.op, packB_and_mask]
  simp only [Op.mask, Op.pattern, split]
  simp [indexField_f_and_8]
  decide

theorem pld (rd : PReg) (off : Offset) : Statement (.pld rd off) := by
  simp only [Statement, encode, Instr.op, packB_and_mask]
  simp only [Op.mask, Op.pattern, split]
  simp [indexField_p_and_12]
  decide

theorem pst (rs : PReg) (off : Offset) : Statement (.pst rs off) := by
  simp only [Statement, encode, Instr.op, packB_and_mask]
  simp only [Op.mask, Op.pattern, split]
  simp [indexField_p_and_12]
  decide

theorem pinf (rd : PReg) : Statement (.pinf rd) := by
  simp only [Statement, encode, Instr.op, packR_and_mask]
  simp only [Op.mask, Op.pattern, split]
  simp [indexField_p_and_12]
  decide

theorem pisinf (ra : PReg) : Statement (.pisinf ra) := by
  simp only [Statement, encode, Instr.op, packR_and_mask]
  simp only [Op.mask, Op.pattern, split]
  simp [indexField_p_and_12]
  decide

theorem ponc (ra : PReg) : Statement (.ponc ra) := by
  simp only [Statement, encode, Instr.op, packR_and_mask]
  simp only [Op.mask, Op.pattern, split]
  simp [indexField_p_and_12]
  decide

theorem pneg (rd ra : PReg) : Statement (.pneg rd ra) := by
  simp only [Statement, encode, Instr.op, packR_and_mask]
  simp only [Op.mask, Op.pattern, split]
  simp [indexField_p_and_12]
  decide

theorem pdbl (rd ra : PReg) : Statement (.pdbl rd ra) := by
  simp only [Statement, encode, Instr.op, packR_and_mask]
  simp only [Op.mask, Op.pattern, split]
  simp [indexField_p_and_12]
  decide

theorem padd (rd ra rb : PReg) : Statement (.padd rd ra rb) := by
  simp only [Statement, encode, Instr.op, packR_and_mask]
  simp only [Op.mask, Op.pattern, split]
  simp [indexField_p_and_12]
  decide

theorem smul (rd ra : PReg) (rk : FReg) : Statement (.smul rd ra rk) := by
  simp only [Statement, encode, Instr.op, packR_and_mask]
  simp only [Op.mask, Op.pattern, split]
  simp [indexField_f_and_8, indexField_p_and_12]
  decide

theorem keygen (rd : FReg) (rq : PReg) : Statement (.keygen rd rq) := by
  simp only [Statement, encode, Instr.op, packR_and_mask]
  simp only [Op.mask, Op.pattern, split]
  simp [indexField_f_and_8, indexField_p_and_12]
  decide

theorem sign (rr rs re rd : FReg) : Statement (.sign rr rs re rd) := by
  simp only [Statement, encode, Instr.op, packR_and_mask]
  simp only [Op.mask, Op.pattern, split]
  simp [indexField_f_and_8]
  decide

theorem verify (rr rs re : FReg) (rq : PReg) : Statement (.verify rr rs re rq) := by
  simp only [Statement, encode, Instr.op, packR_and_mask]
  simp only [Op.mask, Op.pattern, split]
  simp [indexField_f_and_8, indexField_p_and_12]
  decide

theorem wipe (rd : FReg) : Statement (.wipe rd) := by
  simp only [Statement, encode, Instr.op, packR_and_mask]
  simp only [Op.mask, Op.pattern, split]
  simp [indexField_f_and_8]
  decide

end Laws.MaskTable

end Sys2Proof
end

