-- ==== Sys2Proof/Laws/Sign.lean ====
section
/-! SUPPORT. Multiples of a point as repeated addition, the public point of a scalar, the attempts of `SIGN`, that a draw does
not depend on the unspecified `TMP`, and that it reads no hidden register but `TRY`. -/

namespace Sys2Proof.Machine

/-- The `k`-fold sum stands for the `k`-fold multiple of the group element. -/
theorem multiple_denotes {d : DP} [Fact d.p.Prime] (hd : d.Valid) {v : PointValue} {P : (curve d).Point} (hv : Denotes d v
    P) (k : Nat) :
    ∃ w, multiple d v k = .ok w ∧ Denotes d w (k • P) := by
  induction k with
  | zero => exact ⟨_, rfl, by rw [zero_nsmul]; exact denotes_infinity⟩
  | succ k ih =>
    obtain ⟨w, hw, hW⟩ := ih
    obtain ⟨u, hu, hU⟩ := padd_denotes hd hW hv
    exact ⟨u, by simp [multiple, hw, hu], by rw [succ_nsmul]; exact hU⟩

/-- R93: the loop computes the `k`-fold sum. -/
theorem smul_eq_multiple {d : DP} (hd : d.Valid) {v : PointValue} (hv : v.inRange d.p = true) (ho : onCurve d v = .ok true)
    {k : Nat} (hk : k < 2 ^ d.nb) :
    ∃ w, smul d k v = .ok w ∧ multiple d v k = .ok w := by
  have : Fact d.p.Prime := ⟨hd.primeP⟩
  obtain ⟨P, hP⟩ := denotes_of_onCurve hd hv ho
  obtain ⟨w, hw, hW⟩ := smul_denotes hd hk hP
  obtain ⟨w', hw', hW'⟩ := multiple_denotes hd hP k
  exact ⟨w, hw, by rw [hw', hW.unique hW']⟩

theorem n_lt_two_pow_nb (d : DP) : d.n < 2 ^ d.nb := lt_two_pow_bitlen d.n

/-- `k·G` for `1 ≤ k < n` is an affine point of the curve. -/
theorem smul_basePoint {d : DP} (hd : d.Valid) {k : Nat} (h1 : 1 ≤ k) (hk : k < d.n) :
    ∃ x y, smul d k (basePoint d) = .ok (.affine x y) ∧ onCurve d (.affine x y) = .ok true ∧ x < d.p ∧ y < d.p := by
  have : Fact d.p.Prime := ⟨hd.primeP⟩
  obtain ⟨G, hG, hG0, hGn⟩ := basePoint_denotes hd
  obtain ⟨w, hw, hW⟩ := smul_denotes hd (hk.trans (n_lt_two_pow_nb d)) hG
  cases w with
  | infinity =>
    exfalso
    have h0 : k • G = 0 := hW.point_unique denotes_infinity
    have hord : addOrderOf G = d.n := by
      have : Fact d.n.Prime := ⟨hd.primeN⟩
      exact addOrderOf_eq_prime hGn hG0
    have := addOrderOf_dvd_of_nsmul_eq_zero h0
    rw [hord] at this
    exact absurd (Nat.le_of_dvd (by omega) this) (by omega)
  | affine x y =>
    obtain ⟨hx, hy⟩ := (inRange_affine _ _ _).mp hW.inRange
    exact ⟨x, y, hw, hW.onCurve hd, hx, hy⟩

theorem finv_of_range {n k : Nat} (h1 : 1 ≤ k) (h2 : k < n) : finv n k = .ok (powMod n k (n-2)) := finv_of_lt h2 (by omega)

/-- An attempt that signs ends the command (R100). -/
theorem signAttempt_done {d : DP} {e sk k r sig : Nat} (he : e < d.n) (hsk : sk < d.n) (h : SignsWith d e sk k r sig) (hr :
    r ≠ 0) (hs : sig ≠ 0) (hid : Hidden) :
    signAttempt d e sk k hid = .ok (.done (r, sig)) := by
  obtain ⟨xR, yR, kinv, h1, h2, rfl, rfl⟩ := h
  have hn : 0 < d.n := by omega
  have m := fun v => Nat.mod_lt v hn
  have hk : kinv < d.n := finv_lt h2
  have e1 : (e + sk * (xR % d.n) % d.n) % d.n = (e + sk * (xR % d.n)) % d.n := by rw [Nat.add_mod_mod]
  simp only [signAttempt, h1, ok_bind, h2, fmul_of_lt hsk (m _), fadd_of_lt he (m _), fmul_of_lt hk (m _), e1, hr, hs, if_false]

/-- An attempt that restarts keeps the count of failed requests (R100). -/
theorem signAttempt_restart {d : DP} {e sk k : Nat} (he : e < d.n) (hsk : sk < d.n) (h : Restarts d e sk k) (hid : Hidden) :
    ∃ h', signAttempt d e sk k hid = .ok (.restart h') ∧ h'.tries = hid.tries := by
  have hn : 0 < d.n := by omega
  have m := fun v => Nat.mod_lt v hn
  rcases h with h | ⟨r, sig, ⟨xR, yR, kinv, h1, h2, rfl, rfl⟩, h⟩
  · refine ⟨{ hid with k := k, acc := .infinity }, by simp [signAttempt, h], rfl⟩
  · by_cases hr : xR % d.n = 0
    · refine ⟨{ hid with k := k, acc := .affine xR yR }, by simp [signAttempt, h1, hr], rfl⟩
    · have hs := h.resolve_left hr
      have hk : kinv < d.n := finv_lt h2
      have e1 : (e + sk * (xR % d.n) % d.n) % d.n = (e + sk * (xR % d.n)) % d.n := by rw [Nat.add_mod_mod]
      refine ⟨{ hid with k := k, kinv := kinv, acc := .affine xR yR }, by simp only [signAttempt, h1, ok_bind, h2, fmul_of_lt hsk (m _), fadd_of_lt he (m _), fmul_of_lt hk (m _), e1, hr, hs, if_false, if_true], rfl⟩

theorem signLoop_returns {c : Config} {e sk : Nat} (he : e < c.dp.n) (hsk : sk < c.dp.n) {a r sig rest} (h : SignReturns c e
    sk a r sig rest) (hid : Hidden) (h0 : hid.tries = 0) :
    rngLoop c (signAttempt c.dp e sk) a hid = .done (r, sig) rest := by
  induction h generalizing hid with
  | returned draw h hr hs => rw [rngLoop_draws _ draw _ h0, signAttempt_done he hsk h hr hs]
  | restarted draw h _ ih =>
    obtain ⟨h', e1, e2⟩ := signAttempt_restart he hsk h { hid with tries := 0 }
    rw [rngLoop_draws _ draw _ h0, e1]
    exact ih _ e2

theorem signLoop_givesUp {c : Config} {e sk : Nat} (ht : 1 ≤ c.entropyTries) (he : e < c.dp.n) (hsk : sk < c.dp.n) {a rest}
    (h : SignGivesUp c e sk a rest) (hid : Hidden) (h0 : hid.tries = 0) :
    rngLoop c (signAttempt c.dp e sk) a hid = .failed .entropyExhausted rest := by
  induction h generalizing hid with
  | exhausted draw => exact rngLoop_givesUp _ draw ht _ h0
  | restarted draw h _ ih =>
    obtain ⟨h', e1, e2⟩ := signAttempt_restart he hsk h { hid with tries := 0 }
    rw [rngLoop_draws _ draw _ h0, e1]
    exact ih _ e2

theorem signLoop_waits {c : Config} {e sk : Nat} (he : e < c.dp.n) (hsk : sk < c.dp.n) {a} (h : SignWaits c e sk a) (hid :
    Hidden) (h0 : hid.tries = 0) :
    ∃ h', rngLoop c (signAttempt c.dp e sk) a hid = .waiting h' := by
  induction h generalizing hid with
  | pending draw => obtain ⟨j, -, h⟩ := rngLoop_waits _ draw _ h0; exact ⟨_, h⟩
  | restarted draw h _ ih =>
    obtain ⟨h', e1, e2⟩ := signAttempt_restart he hsk h { hid with tries := 0 }
    rw [rngLoop_draws _ draw _ h0, e1]
    exact ih _ e2

/-- R100: what is returned is in the Signature type. -/
theorem signReturns_range {c : Config} {e sk : Nat} (hn : 0 < c.dp.n) {a r sig rest} (h : SignReturns c e sk a r sig rest) :
    1 ≤ r ∧ r < c.dp.n ∧ 1 ≤ sig ∧ sig < c.dp.n := by
  induction h with
  | returned draw h hr hs =>
    obtain ⟨xR, yR, kinv, h1, h2, rfl, rfl⟩ := h
    exact ⟨by omega, Nat.mod_lt _ hn, by omega, Nat.mod_lt _ hn⟩
  | restarted _ _ _ ih => exact ih

/-- `SIGN` on operands in range is its draws. -/
theorem exec_sign {s : State} {rr rs re rd : FReg} (hne : rr ≠ rs) (h1 : 1 ≤ s.getF rd) (h2 : s.getF rd < s.cfg.dp.n) :
    exec (.sign rr rs re rd) s = finishDraws s.beginDraws (.sign rr rs re rd) (writeSignature rr rs)
      (rngLoop s.cfg (signAttempt s.cfg.dp (s.getF re % s.cfg.dp.n) (s.getF rd)) s.rng Hidden.zero) := by
  have : inScalarRange s.cfg.dp.n (s.getF rd) = true := inScalarRange_iff.mpr ⟨h1, h2⟩
  simp [exec, execSign, hne, runSign, this, digestResidue]

theorem signs_or_restarts {d : DP} (hd : d.Valid) {e sk k : Nat} (h1 : 1 ≤ k) (h2 : k < d.n) :
    (∃ r sig, SignsWith d e sk k r sig ∧ r ≠ 0 ∧ sig ≠ 0) ∨ Restarts d e sk k := by
  obtain ⟨x, y, hs, -, -, -⟩ := smul_basePoint hd h1 h2
  have hw : SignsWith d e sk k (x % d.n) _ := ⟨x, y, _, hs, finv_of_range h1 h2, rfl, rfl⟩
  by_cases hr : x % d.n = 0
  · exact .inr (.inr ⟨_, _, hw, .inl hr⟩)
  · by_cases hsg : powMod d.n k (d.n - 2) * ((e + sk * (x % d.n)) % d.n) % d.n = 0
    · exact .inr (.inr ⟨_, _, hw, .inr hsg⟩)
    · exact .inl ⟨_, _, hw, hr, hsg⟩

/-- An attempt with the scratch `TMP` replaced in what it leaves. -/
def retmp {α} (x : Nat) (r : Except ErrorKind (Attempt α)) : Except ErrorKind (Attempt α) :=
  match r with
  | .ok (.restart h') => .ok (.restart { h' with tmp := x })
  | .ok (.done a) => .ok (.done a)
  | .error e => .error e

/-- The draws do not depend on `TMP`. -/
theorem rngLoop_tmp {α} {c : Config} {att : Nat → Hidden → Except ErrorKind (Attempt α)}
   (hat : ∀ k h x, att k { h with tmp := x } = retmp x (att k h))
   (a : List RngAnswer) (h : Hidden) (x : Nat) :
   rngLoop c att a { h with tmp := x } = (match rngLoop c att a h with | .waiting h' => .waiting { h' with tmp := x } | r => r) := by
  induction a generalizing h with
  | nil => rfl
  | cons y a ih =>
    cases y with
    | fail => 
      simp only [rngLoop]
      split
      · rfl
      · exact ih { h with tries := h.tries + 1 }
    | value v =>
      simp only [rngLoop]
      split
      · have := hat v { h with tries := 0 } x
        simp only at this
        rw [this]
        cases hv : att v { h with tries := 0 } with
        | error e => rfl
        | ok r => cases r with
          | done r => rfl
          | restart h' => exact ih h'
      · exact ih { h with tries := 0 }

theorem keygenAttempt_tmp (d : DP) (k : Nat) (h : Hidden) (x : Nat) : keygenAttempt d k { h with tmp := x } = retmp x
    (keygenAttempt d k h) := by
  simp only [keygenAttempt]
  cases smul d k (basePoint d) <;> rfl

theorem signAttempt_tmp (d : DP) (e sk k : Nat) (h : Hidden) (x : Nat) : signAttempt d e sk k { h with tmp := x } = retmp x
    (signAttempt d e sk k h) := by
  simp only [signAttempt]
  cases smul d k (basePoint d) with
  | error e => rfl
  | ok v =>
    simp only [ok_bind]
    cases v with
    | infinity => rfl
    | affine a b =>
      simp only
      split
      · rfl
      · cases finv d.n k with
        | error e => rfl
        | ok kinv =>
          simp only [ok_bind]
          cases fmul d.n sk (a % d.n) with
          | error e => rfl
          | ok dr =>
            simp only [ok_bind]
            cases fadd d.n e dr with
            | error e => rfl
            | ok edr =>
              simp only [ok_bind]
              cases fmul d.n kinv edr with
              | error e => rfl
              | ok sig => simp only [ok_bind]; split <;> rfl

/-! ### The hidden registers other than `TRY` -/

/-- Two outcomes of an attempt that agree but for the hidden registers other than `TRY`. -/
inductive SameAttempt {α : Type} : Except ErrorKind (Attempt α) → Except ErrorKind (Attempt α) → Prop where
  | error {e : ErrorKind} : SameAttempt (.error e) (.error e)
  | done {a : α} : SameAttempt (.ok (.done a)) (.ok (.done a))
  | restart {h h' : Hidden} (tries : h'.tries = h.tries) : SameAttempt (.ok (.restart h)) (.ok (.restart h'))

/-- Two results of the draws that agree but for the hidden registers other than `TRY`. -/
inductive SameResult {α : Type} : RngResult α → RngResult α → Prop where
  | done {a : α} {rest : List RngAnswer} : SameResult (.done a rest) (.done a rest)
  | failed {e : ErrorKind} {rest : List RngAnswer} : SameResult (.failed e rest) (.failed e rest)
  | waiting {h h' : Hidden} (tries : h'.tries = h.tries) : SameResult (.waiting h) (.waiting h')

/-- The draws read no hidden register but `TRY`, if no attempt does. -/
theorem rngLoop_hidden {α : Type} {c : Config} {att : Nat → Hidden → Except ErrorKind (Attempt α)}
    (hat : ∀ k h h', h'.tries = h.tries → SameAttempt (att k h) (att k h')) (a : List RngAnswer) {h h' : Hidden}
    (ht : h'.tries = h.tries) : SameResult (rngLoop c att a h) (rngLoop c att a h') := by
  induction a generalizing h h' with
  | nil => exact .waiting ht
  | cons x a ih =>
    cases x with
    | fail =>
      simp only [rngLoop, ht]
      split
      · exact .failed
      · exact ih rfl
    | value v =>
      simp only [rngLoop]
      split
      · have hs := hat v { h with tries := 0 } { h' with tries := 0 } rfl
        revert hs
        generalize att v { h with tries := 0 } = r
        generalize att v { h' with tries := 0 } = r'
        intro hs
        cases hs with
        | error => exact .failed
        | done => exact .done
        | restart hr => exact ih hr
      · exact ih rfl

theorem keygenAttempt_hidden (d : DP) (k : Nat) (h h' : Hidden) (_ : h'.tries = h.tries) :
    SameAttempt (keygenAttempt d k h) (keygenAttempt d k h') := by
  simp only [keygenAttempt]
  cases smul d k (basePoint d) with
  | error e => exact .error
  | ok q => exact .done

theorem signAttempt_hidden (d : DP) (e sk k : Nat) (h h' : Hidden) (ht : h'.tries = h.tries) :
    SameAttempt (signAttempt d e sk k h) (signAttempt d e sk k h') := by
  simp only [signAttempt]
  cases smul d k (basePoint d) with
  | error e => exact .error
  | ok v =>
    cases v with
    | infinity => exact .restart ht
    | affine x y =>
      simp only [ok_bind]
      split
      · exact .restart ht
      · cases finv d.n k with
        | error e => exact .error
        | ok kinv =>
          cases fmul d.n sk (x % d.n) with
          | error e => exact .error
          | ok dr =>
            simp only [ok_bind]
            cases fadd d.n e dr with
            | error e => exact .error
            | ok edr =>
              simp only [ok_bind]
              cases fmul d.n kinv edr with
              | error e => exact .error
              | ok sig =>
                simp only [ok_bind]
                split
                · exact .restart ht
                · exact .done

end Sys2Proof.Machine
end

