-- ==== Sys2Proof/Laws/Step.lean ====
section
/-! SUPPORT. What a step can do, said once: there is no move and the state stays, or one move is made, with all it starts
(`step_cases`). -/

namespace Sys2Proof.Machine

/-- What one move of the outside world can do to `s`, with the guard of each case. -/
inductive Moved : Event → State → State → Prop where
  /-- A legal word is written to an idle block (R27). -/
  | runs {s t : State} {w : Word} {i : Instr} (idle : s.busy = none) (legal : decode s.cfg.dp w = .ok i) (next : exec i s = .next t) :
      Moved (.cmd w) s t
  /-- A word that is no legal command is written to an idle block (R48). -/
  | illegal {s : State} {w : Word} (idle : s.busy = none) (bad : ∀ i, decode s.cfg.dp w ≠ .ok i) :
      Moved (.cmd w) s (s.raise false .illegalCommand)
  /-- A byte of `XB` is written (R41). -/
  | stores {s : State} {addr : Nat} {v : Byte} (idle : s.busy = none) (inside : addr < s.cfg.dp.xbSize) :
      Moved (.xbWrite addr v) s { s with xb := s.xb.set addr v }
  /-- An answer comes to an idle block (log 3). -/
  | kept {s : State} {a : RngAnswer} (idle : s.busy = none) : Moved (.rngAnswer a) s (s.deliver a)
  /-- An answer comes to a command that waits (R120). -/
  | resumed {s t : State} {a : RngAnswer} {c : Running} (running : s.busy = some c) (next : resume c (s.deliver a) = .next t) :
      Moved (.rngAnswer a) s t
  /-- Reset, in any state (R130). -/
  | reset {s : State} : Moved .reset s s.applyReset

theorem isBusy_eq_false {s : State} : ¬ s.isBusy = true ↔ s.busy = none := by simp [State.isBusy]

theorem hostMove_cases {ev : Event} {s t : State} (h : hostMove ev s = .next t) : Moved ev s t := by
  cases ev with
  | cmd w =>
    simp only [hostMove, hostCommand, runWord] at h
    split_ifs at h with hb
    have idle := isBusy_eq_false.mp hb
    cases hd : decode s.cfg.dp w with
    | ok i => rw [hd] at h; exact .runs idle hd h
    | error e =>
      rw [hd] at h
      cases h
      exact .illegal idle fun i hi => by rw [hd] at hi; cases hi
  | xbWrite addr v =>
    simp only [hostMove, hostWrite] at h
    split_ifs at h with hb hx
    cases h
    exact .stores (isBusy_eq_false.mp hb) (Nat.not_le.mp hx)
  | rngAnswer a =>
    simp only [hostMove, rngAnswers] at h
    cases hb : s.busy with
    | none => rw [hb] at h; cases h; exact .kept hb
    | some c => rw [hb] at h; exact .resumed hb h
  | reset => cases h; exact .reset

/-- What any step can do. -/
theorem step_cases {s t : State} (h : step s = .next t) :
    (s.env = [] ∧ t = s) ∨ ∃ ev rest, s.env = ev :: rest ∧ Moved ev (s.setEnv rest) t := by
  simp only [step, advance] at h
  cases he : s.env with
  | nil => rw [he] at h; cases h; exact .inl ⟨rfl, rfl⟩
  | cons ev rest => rw [he] at h; exact .inr ⟨ev, rest, rfl, hostMove_cases h⟩

end Sys2Proof.Machine
end

