-- ==== Sys2Proof/Laws/Transfer.lean ====
section
/-! SUPPORT. The transfers, one lemma for each way one of them can end. -/

namespace Sys2Proof.Machine

variable {s : State} {m : Modulus} {off : Offset}

theorem execFld_misfit (rd : FReg) (h : s.fits off (s.cfg.dp.fieldLen m) = false) :
    execFld m rd off s = .next (s.raise false .illegalCommand) := by simp [execFld, h]

theorem execFld_range (rd : FReg) (h : s.fits off (s.cfg.dp.fieldLen m) = true)
    (hr : m = .p ∧ s.cfg.dp.p ≤ s.load (effectiveAddress off) (s.cfg.dp.fieldLen m)) :
    execFld m rd off s = .next (s.raise false .outOfRangeInput) := by
  obtain ⟨rfl, hr⟩ := hr
  simp [execFld, h, hr]

theorem execFld_done (rd : FReg) (h : s.fits off (s.cfg.dp.fieldLen m) = true)
    (hr : ¬ (m = .p ∧ s.cfg.dp.p ≤ s.load (effectiveAddress off) (s.cfg.dp.fieldLen m))) :
    execFld m rd off s = .next (s.setF rd (s.load (effectiveAddress off) (s.cfg.dp.fieldLen m))).complete := by
  simp [execFld, h, hr]

theorem execFst_misfit (rs : FReg) (h : s.fits off (s.cfg.dp.fieldLen m) = false) :
    execFst m rs off s = .next (s.raise false .illegalCommand) := by simp [execFst, h]

theorem execFst_range (rs : FReg) (h : s.fits off (s.cfg.dp.fieldLen m) = true)
    (hr : (if m = .p then s.cfg.dp.p else 2 ^ (8 * s.cfg.dp.ln)) ≤ s.getF rs) :
    execFst m rs off s = .next (s.raise false .outOfRangeInput) := by
  cases m
  · simp at hr; simp [execFst, h, hr]
  · simp at hr; simp [execFst, h, hr]

theorem execFst_done (rs : FReg) (h : s.fits off (s.cfg.dp.fieldLen m) = true)
    (hr : s.getF rs < if m = .p then s.cfg.dp.p else 2 ^ (8 * s.cfg.dp.ln)) :
    execFst m rs off s = .next (s.store (effectiveAddress off) (s.cfg.dp.fieldLen m) (s.getF rs)).complete := by
  cases m
  · simp at hr
    rw [show s.cfg.dp.fieldLen .p = s.cfg.dp.lp from rfl] at *
    simp [execFst, show s.cfg.dp.fieldLen .p = s.cfg.dp.lp from rfl, h, Nat.not_le.mpr hr]
  · simp at hr
    rw [show s.cfg.dp.fieldLen .n = s.cfg.dp.ln from rfl] at *
    simp [execFst, show s.cfg.dp.fieldLen .n = s.cfg.dp.ln from rfl, h, Nat.not_le.mpr hr]

theorem execPld_misfit (rd : PReg) (h : s.fits off s.cfg.dp.pointLen = false) :
    execPld rd off s = .next (s.raise false .illegalCommand) := by simp [execPld, h]

theorem execPld_range (rd : PReg) (h : s.fits off s.cfg.dp.pointLen = true)
    (hr : s.cfg.dp.p ≤ s.load (effectiveAddress off) s.cfg.dp.lp ∨
      s.cfg.dp.p ≤ s.load (effectiveAddress off + s.cfg.dp.lp) s.cfg.dp.lp) :
    execPld rd off s = .next (s.raise false .outOfRangeInput) := by simp [execPld, h, hr]

theorem execPld_done (rd : PReg) (h : s.fits off s.cfg.dp.pointLen = true)
    (hx : s.load (effectiveAddress off) s.cfg.dp.lp < s.cfg.dp.p)
    (hy : s.load (effectiveAddress off + s.cfg.dp.lp) s.cfg.dp.lp < s.cfg.dp.p) :
    execPld rd off s = .next (s.setP rd (.affine (s.load (effectiveAddress off) s.cfg.dp.lp)
      (s.load (effectiveAddress off + s.cfg.dp.lp) s.cfg.dp.lp))).complete := by
  simp [execPld, h, Nat.not_le.mpr hx, Nat.not_le.mpr hy]

theorem execPst_misfit (rs : PReg) (h : s.fits off s.cfg.dp.pointLen = false) :
    execPst rs off s = .next (s.raise false .illegalCommand) := by simp [execPst, h]

theorem execPst_infinity {rs : PReg} (h : s.fits off s.cfg.dp.pointLen = true) (hp : s.getP rs = .infinity) :
    execPst rs off s = .next (s.raise false .noValidEncoding) := by simp [execPst, h, hp]

theorem execPst_done {rs : PReg} {x y : Nat} (h : s.fits off s.cfg.dp.pointLen = true) (hp : s.getP rs = .affine x y) :
    execPst rs off s =
      .next ((s.store (effectiveAddress off) s.cfg.dp.lp x).store (effectiveAddress off + s.cfg.dp.lp) s.cfg.dp.lp y).complete := by
  simp [execPst, h, hp]

end Sys2Proof.Machine
end

