-- ==== Sys2Proof/Tests/Slice0.lean ====
section
/-! SUPPORT. Tests and witnesses. Every expected value of a test is a row of 95_test_vectors.md, named in its comment. The
instance is `TOY17` with `ENTROPY_TRIES = 3` unless said. -/

namespace Sys2Proof.Tests

open Sys2Proof Sys2Proof.Machine

-- Many small evaluations: checked one after another, so that they do not wait for one another in many threads.
set_option Elab.async false

/-- A state of `TOY17` as after reset, with some registers, bytes of `XB` and RNG answers given. -/
def toy (f : List (FReg × Nat)) (p : List (PReg × PointValue)) (xb : Memory) (rng : List RngAnswer) : State :=
  p.foldl (fun s q => s.setP q.1 q.2)
    (f.foldl (fun s q => s.setF q.1 q.2) { State.reset with cfg := Config.toy17, xb := xb, rng := rng })

/-- What `view` shows after one step with the word `w` written to `CMD`. -/
def after {α : Type} (w : Word) (s : State) (view : State → α) : Option α :=
  match step (s.present w) with
  | .next t => some (view t)
  | .fault _ => none
  | .refused _ => none

/-! ### Decoding: every command by a word of section 3, and the illegal words of section 3 -/

theorem test_decode_field_add :
    decode DP.toy17 0x10020100 = .ok (.fadd .p 2 0 1) ∧ decode DP.toy17 0x10820100 = .ok (.fadd .n 2 0 1) ∧
    decode DP.toy17 0x11020100 = .ok (.fsub .p 2 0 1) ∧ decode DP.toy17 0x12020000 = .ok (.fneg .p 2 0) ∧
    decode DP.toy17 0x13000100 = .ok (.feq .p 0 1) := by decide

theorem test_decode_field_mul_inv :
    decode DP.toy17 0x18020100 = .ok (.fmul .p 2 0 1) ∧ decode DP.toy17 0x18820100 = .ok (.fmul .n 2 0 1) ∧
    decode DP.toy17 0x1C020000 = .ok (.finv .p 2 0) ∧ decode DP.toy17 0x1C820000 = .ok (.finv .n 2 0) := by decide

theorem test_decode_transfer :
    decode DP.toy17 0x20030004 = .ok (.fld .p 3 4) ∧ decode DP.toy17 0x20830004 = .ok (.fld .n 3 4) ∧
    decode DP.toy17 0x21030004 = .ok (.fst .p 3 4) ∧ decode DP.toy17 0x21830004 = .ok (.fst .n 3 4) ∧
    decode DP.toy17 0x22010000 = .ok (.pld 1 0) ∧ decode DP.toy17 0x23010002 = .ok (.pst 1 2) ∧
    decode DP.toy17 0x60000000 = .ok (.wipe 0) := by decide

theorem test_decode_point :
    decode DP.toy17 0x30020000 = .ok (.pinf 2) ∧ decode DP.toy17 0x31002000 = .ok (.pisinf 2) ∧
    decode DP.toy17 0x32001000 = .ok (.ponc 1) ∧ decode DP.toy17 0x33021000 = .ok (.pneg 2 1) ∧
    decode DP.toy17 0x34021000 = .ok (.pdbl 2 1) ∧ decode DP.toy17 0x35031200 = .ok (.padd 3 1 2) ∧
    decode DP.toy17 0x40021000 = .ok (.smul 2 1 0) := by decide

theorem test_decode_ecdsa :
    decode DP.toy17 0x50000000 = .ok (.keygen 0 0) ∧ decode DP.toy17 0x50012000 = .ok (.keygen 1 2) ∧
    decode DP.toy17 0x51023100 = .ok (.sign 2 3 1 0) ∧ decode DP.toy17 0x52023100 = .ok (.verify 2 3 1 0) := by decide

theorem test_decode_unassigned :
    decode DP.toy17 0x00000000 = .error .unassignedOpcode ∧ decode DP.toy17 0xFFFFFFFF = .error .unassignedOpcode ∧
    decode DP.toy17 0x14020100 = .error .unassignedOpcode := by decide

theorem test_decode_field_not_zero :
    [0x10020101, 0x10120100, 0x10020110, 0x12020100, 0x13100300, 0x13010100, 0x34821000, 0x2281000F].map (decode DP.toy17) =
      List.replicate 8 (.error .fieldNotZero) := by decide

theorem test_decode_register_index :
    [0x10028100, 0x34041000, 0x40021800, 0x52023140].map (decode DP.toy17) = List.replicate 4 (.error .registerIndex) := by decide

theorem test_decode_same_destination : decode DP.toy17 0x51022310 = .error .sameDestination := by decide

theorem test_decode_outside_buffer :
    decode DP.toy17 0x2201000F = .error .outsideBuffer ∧ decode DP.toy17 0x20000010 = .error .outsideBuffer ∧
    decode DP.p256 0x220001C1 = .error .outsideBuffer ∧ decode DP.p256 0x2087FFFF = .error .outsideBuffer ∧
    decode DP.toy17 0x2000000F = .ok (.fld .p 0 15) ∧ decode DP.p256 0x220001C0 = .ok (.pld 0 448) := by decide +kernel

theorem test_decodeTableWord : decodeTableWord 32 0x35031200 = some (.padd 3 1 2) ∧ decodeTableWord 32 0 = none := by decide

/-! ### `WellFormed` refuses what is no command (R48 steps 5 and 6) -/

theorem test_wellFormed_refuses_same_destination :
    (Instr.sign 2 2 1 0).wellFormed DP.toy17 = false ∧ (Instr.sign 2 3 1 0).wellFormed DP.toy17 = true := by decide

theorem test_wellFormed_refuses_outside_buffer :
    (Instr.fld .p 0 16).wellFormed DP.toy17 = false ∧ (Instr.fst .n 0 16).wellFormed DP.toy17 = false ∧
    (Instr.pld 1 15).wellFormed DP.toy17 = false ∧ (Instr.pst 1 15).wellFormed DP.toy17 = false ∧
    (Instr.fld .p 0 15).wellFormed DP.toy17 = true ∧ (Instr.pst 1 14).wellFormed DP.toy17 = true := by decide

/-! ### Commands, one step each -/

-- F1
theorem test_fadd_p : after 0x10020100 (toy [(0, 9), (1, 12)] [] [] []) (fun t => (t.getF 2, t.err)) = some (4, 0) := by
  decide +kernel
-- F2
theorem test_fadd_n : after 0x10820100 (toy [(0, 9), (1, 12)] [] [] []) (fun t => (t.getF 2, t.err)) = some (2, 0) := by
  decide +kernel
-- F5
theorem test_fsub_borrow : after 0x11020100 (toy [(0, 3), (1, 5)] [] [] []) (fun t => (t.getF 2, t.err)) = some (15, 0) := by
  decide +kernel
-- F9
theorem test_fneg : after 0x12020000 (toy [(0, 5)] [] [] []) (fun t => (t.getF 2, t.err)) = some (12, 0) := by decide +kernel
-- F10
theorem test_fneg_zero : after 0x12020000 (toy [(2, 9)] [] [] []) (fun t => (t.getF 2, t.err)) = some (0, 0) := by decide +kernel
-- F12
theorem test_feq_equal : after 0x13000100 (toy [(0, 7), (1, 7)] [] [] []) (fun t => (t.t, t.err)) = some (true, 0) := by
  decide +kernel
-- F14
theorem test_feq_out_of_range : after 0x13000100 ((toy [(0, 17)] [] [] []).setT true) (fun t => (t.t, t.err)) = some (false, 1) := by
  decide +kernel
-- X1
theorem test_fmul_p : after 0x18020100 (toy [(0, 9), (1, 16)] [] [] []) (fun t => (t.getF 2, t.err)) = some (8, 0) := by
  decide +kernel
-- X2
theorem test_fmul_n : after 0x18820100 (toy [(0, 9), (1, 16)] [] [] []) (fun t => (t.getF 2, t.err)) = some (11, 0) := by
  decide +kernel
-- I1
theorem test_finv : after 0x1C020000 (toy [(0, 3)] [] [] []) (fun t => (t.getF 2, t.err)) = some (6, 0) := by decide +kernel
-- I8: the range is tested before zero
theorem test_finv_range_first : after 0x1C020000 (toy [(0, 17)] [] [] []) (fun t => (t.getF 2, t.err)) = some (0, 1) := by
  decide +kernel
-- T2
theorem test_fld_p_range : after 0x20030004 (toy [(3, 7)] [] [(4, 0x11)] []) (fun t => (t.getF 3, t.err)) = some (7, 1) := by
  decide +kernel
-- T4
theorem test_fld_n_no_range : after 0x20830004 (toy [] [] [(4, 0xFF)] []) (fun t => (t.getF 3, t.err)) = some (255, 0) := by
  decide +kernel
-- T7
theorem test_fst_p_range : after 0x21030004 (toy [(3, 17)] [] [(4, 1)] []) (fun t => (t.xb, t.err)) = some ([(4, 1)], 1) := by
  decide +kernel
-- T8
theorem test_fst_n : after 0x21830004 (toy [(3, 200)] [] [(4, 1)] []) (fun t => (t.xb, t.err)) = some ([(4, 0xC8)], 0) := by
  decide +kernel
-- T9
theorem test_pld : after 0x22010000 (toy [] [] [(0, 5), (1, 1)] []) (fun t => (t.getP 1, t.err)) = some (.affine 5 1, 0) := by
  decide +kernel
-- T11: the pair (0, 0) is not Infinity
theorem test_pld_zero_pair : after 0x22010000 (toy [] [] [] []) (fun t => (t.getP 1, t.err)) = some (.affine 0 0, 0) := by
  decide +kernel
-- T14
theorem test_pst : after 0x23010002 (toy [] [(1, .affine 9 16)] [] []) (fun t => (t.xb, t.err)) = some ([(2, 9), (3, 16)], 0) := by
  decide +kernel
-- T15
theorem test_pst_infinity : after 0x23010002 (toy [] [] [] []) (fun t => (t.xb, t.err)) = some ([], 7) := by decide +kernel
-- T16
theorem test_wipe : after 0x60000000 (toy [(0, 8)] [] [] []) (fun t => (t.getF 0, t.err)) = some (0, 0) := by decide +kernel
-- T17 and T18 on `P256`: byte order over 32 bytes
theorem test_fst_p256 :
    after 0x21810040 (State.reset.setF 1 5) (fun t => (t.xb, t.err)) = some ([(95, 5)], 0) ∧
    after 0x20000000 { State.reset with xb := (List.range 32).map fun i => (i, BitVec.ofNat 8 (i + 1)) } (fun t => t.getF 0) =
      some 0x0102030405060708090A0B0C0D0E0F101112131415161718191A1B1C1D1E1F20 := by decide +kernel
-- A19
theorem test_pinf : after 0x30020000 (toy [] [(2, .affine 0 6)] [] []) (fun t => (t.getP 2, t.err)) = some (.infinity, 0) := by
  decide +kernel
-- A20, A21
theorem test_pisinf :
    after 0x31002000 (toy [] [] [] []) (fun t => (t.t, t.err)) = some (true, 0) ∧
    after 0x31002000 ((toy [] [(2, .affine 0 6)] [] []).setT true) (fun t => (t.t, t.err)) = some (false, 0) := by decide +kernel
-- A22, A23
theorem test_ponc :
    after 0x32001000 (toy [] [(1, .affine 5 1)] [] []) (fun t => (t.t, t.err)) = some (true, 0) ∧
    after 0x32001000 ((toy [] [(1, .affine 4 0)] [] []).setT true) (fun t => (t.t, t.err)) = some (false, 0) := by decide +kernel
-- A16, A18
theorem test_pneg :
    after 0x33021000 (toy [] [(1, .affine 5 1)] [] []) (fun t => t.getP 2) = some (.affine 5 16) ∧
    after 0x33021000 (toy [] [(1, .affine 4 0)] [] []) (fun t => t.getP 2) = some (.affine 4 0) := by decide +kernel
-- A12
theorem test_pdbl : after 0x34021000 (toy [] [(1, .affine 6 3)] [] []) (fun t => (t.getP 2, t.err)) = some (.affine 3 1, 0) := by
  decide +kernel
-- A14
theorem test_pdbl_y_zero :
    after 0x34021000 (toy [] [(1, .affine 4 0), (2, .affine 5 1)] [] []) (fun t => (t.getP 2, t.err)) = some (.infinity, 0) := by
  decide +kernel
-- A4
theorem test_padd :
    after 0x35031200 (toy [] [(1, .affine 5 1), (2, .affine 6 3)] [] []) (fun t => (t.getP 3, t.err)) = some (.affine 10 6, 0) := by
  decide +kernel
-- A6, A9
theorem test_padd_cases :
    after 0x35031200 (toy [] [(1, .affine 5 1), (2, .affine 5 16)] [] []) (fun t => (t.getP 3, t.err)) = some (.infinity, 0) ∧
    after 0x35031200 (toy [] [(1, .affine 1 2), (2, .affine 3 4)] [] []) (fun t => t.getP 3) = some (.affine 14 2) := by decide +kernel
-- M4, M8
theorem test_smul :
    after 0x40021000 (toy [(0, 5)] [(1, .affine 5 1)] [] []) (fun t => t.getP 2) = some (.affine 9 16) ∧
    after 0x40021000 (toy [(0, 31)] [(1, .affine 5 1)] [] []) (fun t => t.getP 2) = some (.affine 0 11) := by decide +kernel
-- M9, M12, M13, M14: the order of the checks
theorem test_smul_checks :
    after 0x40021000 (toy [(0, 32)] [(1, .affine 5 1)] [] []) (fun t => t.err) = some 1 ∧
    after 0x40021000 (toy [(0, 5)] [(1, .affine 4 0)] [] []) (fun t => t.err) = some 3 ∧
    after 0x40021000 (toy [(0, 0)] [(1, .affine 4 0)] [] []) (fun t => t.err) = some 0 ∧
    after 0x40021000 (toy [(0, 32)] [(1, .affine 4 0)] [] []) (fun t => t.err) = some 1 := by decide +kernel
-- K1
theorem test_keygen :
    after 0x50012000 (toy [] [] [] [.value 19, .fail, .fail, .value 8]) (fun t => (t.getF 1, t.getP 2, t.err, t.rng)) =
      some (8, .affine 13 7, 0, []) := by decide +kernel
-- K2
theorem test_keygen_exhausted :
    after 0x50012000 (toy [(1, 99)] [(2, .affine 5 1)] [] [.fail, .fail, .fail]) (fun t => (t.getF 1, t.getP 2, t.err)) =
      some (99, .affine 5 1, 5) := by decide +kernel
-- G1
theorem test_sign :
    after 0x51023100 (toy [(0, 5), (1, 42)] [] [] [.fail, .value 7, .value 0, .value 3]) (fun t => (t.getF 2, t.getF 3, t.err)) =
      some (10, 18, 0) := by decide +kernel
-- G3, G5: the private scalar is tested before any request
theorem test_sign_errors :
    after 0x51023100 (toy [(0, 5), (1, 42), (2, 99)] [] [] [.fail, .fail, .fail, .value 9]) (fun t => (t.getF 2, t.err, t.rng)) =
      some (99, 5, [.value 9]) ∧
    after 0x51023100 (toy [(0, 19), (1, 42)] [] [] [.value 3]) (fun t => (t.err, t.rng)) = some (1, [.value 3]) := by decide +kernel
-- V1, V2
theorem test_verify :
    after 0x52023100 (toy [(2, 10), (3, 18), (1, 42)] [(0, .affine 9 16)] [] []) (fun t => (t.t, t.err)) = some (true, 0) ∧
    after 0x52023100 (toy [(2, 10), (3, 18), (1, 43)] [(0, .affine 9 16)] [] []) (fun t => (t.t, t.err)) = some (false, 0) := by
  decide +kernel
-- V8, V11: the signature range is tested before the key
theorem test_verify_errors :
    after 0x52023100 (toy [(2, 10), (3, 18), (1, 42)] [(0, .affine 4 0)] [] []) (fun t => (t.t, t.err)) = some (false, 3) ∧
    after 0x52023100 (toy [(2, 19), (3, 18), (1, 42)] [(0, .affine 4 0)] [] []) (fun t => (t.t, t.err)) = some (false, 4) := by
  decide +kernel
-- V14: an illegal `VERIFY` leaves `T` alone
theorem test_illegal_word_keeps_flag :
    after 0x52023140 ((toy [] [] [] []).setT true) (fun t => (t.t, t.err)) = some (true, 6) := by decide +kernel
-- E1, E2, E3, E5
theorem test_status :
    State.reset.status = 0x00 ∧ after 0x13000000 (toy [] [] [] []) State.status = some 0x10 ∧
    after 0x1C010000 ((toy [] [] [] []).setT true) State.status = some 0x12 ∧
    after 0x23000000 ((toy [] [] [] []).setT true) State.status = some 0x17 := by decide +kernel
-- section 5.1, `finv.p` of 2 on `P256`
theorem test_finv_p256 :
    finv DP.p256.p 2 = .ok 0x7FFFFFFF80000000800000000000000000000000800000000000000000000000 := by decide +kernel
-- section 5.2, `2·G` on `P256`
theorem test_double_p256 :
    pdbl DP.p256 (basePoint DP.p256) =
      .ok (.affine 0x7CF27B188D034F7E8A52380304B51AC3C08969E277F21B35A60B48FC47669978
        0x07775510DB8ED040293D9AC69F7430DBBA7DADE63CE982299E04B79D227873D1) := by decide +kernel
-- R105, R26: with no answer at hand `KEYGEN` waits with `BUSY = 1`, and an answer that comes ends it
theorem test_keygen_waits_and_resumes :
    after 0x50012000 (toy [] [] [] [.fail]) State.status = some 0x20 ∧
    (match step { toy [] [] [] [] with busy := some (.keygen 1 2), env := [.rngAnswer (.value 8)] } with
      | .next t => (t.getF 1, t.getP 2, t.status) == (8, .affine 13 7, 0)
      | .fault _ => false
      | .refused _ => false) = true := by decide +kernel

-- R130, U10: a reset that comes next is made though a command runs and an answer is at hand; the destination is not written
theorem test_reset_abandons :
    (match step { toy [] [] [] [.value 8] with busy := some (.keygen 1 2), env := [.reset] } with
      | .next t => (t.getF 1, t.getP 2, t.status) == (0, .infinity, 0)
      | .fault _ => false
      | .refused _ => false) = true := by decide +kernel

/-! ### Witnesses: for every statement with hypotheses, states and operands that meet them, each clause at a boundary -/

theorem toy17_valid : DP.toy17.Valid :=
  ⟨by norm_num [DP.toy17], by norm_num [DP.toy17], by decide, by decide, by decide, by decide, by decide, by decide, by decide,
    by decide +kernel⟩

theorem toyConfig_valid : Config.toy17.Valid := ⟨toy17_valid, by decide⟩

/-- `o` is a next state that passes the check `p`. -/
def nextIs (o : Host.Outcome State Fault Refusal) (p : State → Bool) : Bool :=
  match o with
  | .next t => p t
  | .fault _ => false
  | .refused _ => false

theorem of_nextIs {o : Host.Outcome State Fault Refusal} {p : State → Bool} (h : nextIs o p = true) :
    ∃ t, o = .next t ∧ p t = true := by
  cases o with
  | next t => exact ⟨t, rfl, h⟩
  | fault r => cases h
  | refused r => cases h

/-- Scalars and points at the edges of `TOY17`: `p − 1`, `p`, `n − 1`, `n`, `2^NB − 1`, `2^NB`, the largest register value. -/
def edge : State :=
  toy [(1, 16), (2, 17), (3, 18), (4, 19), (5, 31), (6, 32), (7, 255)] [(1, .affine 16 13), (2, .affine 16 4), (3, .affine 4 0)]
    [(11, 16), (12, 17), (13, 16), (14, 17), (15, 16)] []

theorem edge_inv : edge.Inv :=
  ⟨by decide +kernel, by decide +kernel, by decide +kernel, by decide, by decide, by decide, fun _ => rfl, fun h => absurd rfl h,
    fun h => absurd rfl h⟩

/-- `LP = 2` and `LN = 1`, so a register can hold a value that does not fit in `LN` bytes. -/
def wide : State := { State.reset with cfg := { dp := { DP.toy17 with p := 257 }, entropyTries := 1 } }.setF 0 256

theorem witness_DecodeEncode :
    (Instr.pst 3 14).wellFormed DP.toy17 = true ∧ (Instr.fld .n 7 15).wellFormed DP.toy17 = true ∧
    (Instr.sign 6 7 7 7).wellFormed DP.p256 = true := by decide

theorem witness_EncodeDecode : decode DP.p256 0x220301C0 = .ok (.pld 3 448) := by decide +kernel

theorem witness_LegalWordsMatchTheTable :
    (0x2087000F : Word) &&& Op.fld.mask = Op.fld.pattern ∧ (Op.fld.build (split 0x2087000F)).wellFormed DP.toy17 = true := by decide

theorem witness_IllegalWordOnlyWritesErr :
    (edge.present 0x61000000).busy = none ∧ (edge.present 0x61000000).env = .cmd 0x61000000 :: edge.env ∧
    (∀ i, decode (edge.present 0x61000000).cfg.dp 0x61000000 ≠ .ok i) ∧
    (∀ op : Op, op.opc ≠ (0x61000000 : Word).extractLsb' 24 8) := by
  have hd : decode DP.toy17 0x61000000 = .error .unassignedOpcode := by decide
  refine ⟨rfl, rfl, fun i h => ?_, fun op => ?_⟩
  · cases hd.symm.trans h
  · cases op <;> decide

theorem witness_IllFormedTermsAreIllegalCommands :
    (Instr.sign 2 2 1 0).wellFormed edge.cfg.dp = false ∧ (Instr.fld .p 0 16).wellFormed edge.cfg.dp = false ∧
    (Instr.pst 1 15).wellFormed edge.cfg.dp = false := by decide

theorem witness_FaddResult :
    (edge.getF 1 < edge.modulus .p ∧ edge.getF 0 < edge.modulus .p ∧ edge.getF 3 < edge.modulus .n) ∧
    edge.modulus .p ≤ edge.getF 2 ∧ edge.modulus .n ≤ edge.getF 4 := by decide

theorem witness_FsubResult : edge.getF 0 < edge.modulus .n ∧ edge.getF 3 < edge.modulus .n ∧ edge.modulus .n ≤ edge.getF 4 := by
  decide

theorem witness_FnegResult : edge.getF 1 < edge.modulus .p ∧ edge.getF 0 < edge.modulus .p ∧ edge.modulus .p ≤ edge.getF 2 := by
  decide

theorem witness_FeqResult : edge.getF 1 < edge.modulus .p ∧ edge.getF 0 < edge.modulus .p ∧ edge.modulus .p ≤ edge.getF 2 := by
  decide

theorem witness_FmulResult : edge.getF 3 < edge.modulus .n ∧ edge.getF 0 < edge.modulus .n ∧ edge.modulus .n ≤ edge.getF 4 := by
  decide

theorem witness_FinvResult :
    (edge.getF 1 < edge.modulus .p ∧ edge.getF 1 ≠ 0) ∧ (edge.getF 0 < edge.modulus .p ∧ edge.getF 0 = 0) ∧
    edge.modulus .p ≤ edge.getF 2 := by decide

theorem witness_FinvIsTheInverse : DP.toy17.Valid ∧ 1 < DP.toy17.modulus .p ∧ 18 < DP.toy17.modulus .n :=
  ⟨toy17_valid, by decide, by decide⟩

theorem witness_FieldAdderFunctions : (17 : Nat) ≤ 17 ∧ (16 : Nat) < 17 ∧ (0 : Nat) < 17 := by decide

theorem witness_MemWriteIsBigEndian :
    edge.xb.wf = true ∧ 65535 < 2 ^ (8 * 2) ∧ (1 < 2 ∧ (13 < 14 ∨ 14 + 2 ≤ 13) ∧ (16 < 14 ∨ 14 + 2 ≤ 16)) := by decide

theorem witness_FldResult :
    (15 + DP.toy17.fieldLen .p ≤ DP.toy17.xbSize ∧ DP.toy17.xbSize < 16 + DP.toy17.fieldLen .p ∧ 7 < (8 : BitVec 4).toNat) ∧
    (edge.load (effectiveAddress 15) edge.cfg.dp.lp < edge.cfg.dp.p ∧ edge.cfg.dp.p ≤ edge.load (effectiveAddress 14) edge.cfg.dp.lp) := by
  decide

theorem witness_FstResult :
    edge.xb.wf = true ∧ edge.getF 1 < edge.cfg.dp.p ∧ edge.cfg.dp.p ≤ edge.getF 2 ∧ edge.getF 7 < 2 ^ (8 * edge.cfg.dp.ln) ∧
    wide.xb.wf = true ∧ 2 ^ (8 * wide.cfg.dp.ln) ≤ wide.getF 0 ∧ wide.getF 0 < 2 ^ wide.cfg.dp.regBits := by decide

theorem witness_PldResult :
    (14 + 2 * DP.toy17.lp ≤ DP.toy17.xbSize ∧ DP.toy17.xbSize < 15 + 2 * DP.toy17.lp ∧ 3 < (4 : BitVec 4).toNat) ∧
    (edge.load 15 1 < edge.cfg.dp.p ∧ edge.load 10 1 < edge.cfg.dp.p ∧ edge.load 11 1 < edge.cfg.dp.p) ∧
    (edge.cfg.dp.p ≤ edge.load 12 1 ∧ edge.cfg.dp.lp = 1) := by decide

theorem witness_PstResult :
    edge.xb.wf = true ∧ edge.getP 1 = .affine 16 13 ∧ edge.getP 0 = .infinity ∧ 14 + 2 * DP.toy17.lp ≤ DP.toy17.xbSize := by decide

theorem witness_StoredScalarLoadsBack : edge.xb.wf = true ∧ ∃ t, exec (.fst .n 7 15) edge = .next t ∧ t.err = 0 := by
  obtain ⟨t, h, he⟩ := of_nextIs (o := exec (.fst .n 7 15) edge) (p := fun t => t.err == 0) (by decide +kernel)
  exact ⟨by decide, t, h, by simpa using he⟩

theorem witness_StoredPointLoadsBack :
    edge.xb.wf = true ∧ (edge.getP 1).inRange edge.cfg.dp.p = true ∧ ∃ t, exec (.pst 1 14) edge = .next t ∧ t.err = 0 := by
  obtain ⟨t, h, he⟩ := of_nextIs (o := exec (.pst 1 14) edge) (p := fun t => t.err == 0) (by decide +kernel)
  exact ⟨by decide, by decide, t, h, by simpa using he⟩

theorem witness_PisinfResult : edge.getP 0 = .infinity ∧ edge.getP 3 = .affine 4 0 := by decide

theorem witness_PoncResult : edge.cfg.dp.Valid ∧ edge.getP 0 = .infinity ∧ edge.getP 1 = .affine 16 13 ∧ 16 < edge.cfg.dp.p :=
  ⟨toy17_valid, by decide, by decide, by decide⟩

theorem witness_PnegResult : edge.getP 0 = .infinity ∧ edge.getP 3 = .affine 4 0 ∧ 0 < edge.cfg.dp.p ∧ 16 < edge.cfg.dp.p := by decide

theorem witness_DoublingFormulas :
    DP.toy17.Valid ∧ (16 < DP.toy17.p ∧ (16 : Nat) ≠ 0) ∧ (0 < DP.toy17.p ∧ 1 < DP.toy17.p) := ⟨toy17_valid, by decide, by decide⟩

theorem witness_PdblResult :
    edge.cfg.dp.Valid ∧ (∀ i, (edge.getP i).inRange edge.cfg.dp.p = true) ∧ edge.getP 0 = .infinity ∧ edge.getP 3 = .affine 4 0 :=
  ⟨toy17_valid, by decide, by decide, by decide⟩

theorem witness_AdditionCases :
    DP.toy17.Valid ∧ (0 : Nat) ≠ 16 ∧ 0 < DP.toy17.p ∧ 16 < DP.toy17.p := ⟨toy17_valid, by decide, by decide, by decide⟩

theorem witness_PaddResult :
    edge.cfg.dp.Valid ∧ (∀ i, (edge.getP i).inRange edge.cfg.dp.p = true) ∧ edge.getP 0 = .infinity ∧
    pneg edge.cfg.dp (edge.getP 1) = .ok (edge.getP 2) := ⟨toy17_valid, by decide, by decide, by decide⟩

theorem witness_GroupLawIsClosed :
    DP.toy17.Valid ∧ (edge.getP 1).inRange DP.toy17.p = true ∧ (edge.getP 2).inRange DP.toy17.p = true ∧
    onCurve DP.toy17 (edge.getP 1) = .ok true ∧ onCurve DP.toy17 (edge.getP 2) = .ok true :=
  ⟨toy17_valid, by decide, by decide, by decide, by decide⟩

theorem witness_SmulResult :
    (2 ^ edge.cfg.dp.nb ≤ edge.getF 6 ∧ edge.getF 0 = 0 ∧ edge.getF 5 < 2 ^ edge.cfg.dp.nb ∧ edge.getF 5 ≠ 0) ∧
    onCurve edge.cfg.dp (edge.getP 3) = .ok false ∧ edge.cfg.dp.Valid ∧
    ((edge.getP 1).inRange edge.cfg.dp.p = true ∧ onCurve edge.cfg.dp (edge.getP 1) = .ok true) ∧
    onCurve edge.cfg.dp (edge.getP 0) = .ok true :=
  ⟨by decide, by decide, toy17_valid, by decide, by decide⟩

theorem witness_ScalarMultiplicationLaws :
    DP.toy17.Valid ∧ (edge.getP 1).inRange DP.toy17.p = true ∧ onCurve DP.toy17 (edge.getP 1) = .ok true ∧
    16 + 15 < 2 ^ DP.toy17.nb ∧ 2 ^ DP.toy17.nb ≤ 16 + 16 ∧ 31 < 2 ^ DP.toy17.nb ∧ 18 < DP.toy17.n :=
  ⟨toy17_valid, by decide, by decide, by decide, by decide, by decide, by decide⟩

/-- K1: a value at `n` is discarded, two failures are tolerated. -/
theorem draws_K1 : DrawsScalar Config.toy17 [.value 19, .fail, .fail, .value 18] 18 [] :=
  .redrawn (j := 0) (v := 19) (by decide) (by decide) (.accepted (j := 2) (by decide) (by decide))

theorem givesUp_three : DrawGivesUp Config.toy17 [.value 0, .fail, .fail, .fail, .value 9] [.value 9] :=
  .redrawn (j := 0) (v := 0) (by decide) (by decide) .exhausted

theorem waits_two : DrawWaits Config.toy17 [.value 19, .fail, .fail] :=
  .redrawn (j := 0) (v := 19) (by decide) (by decide) (.pending (j := 2) (by decide))

theorem witness_KeygenResult :
    Config.toy17.Valid ∧ (∃ a k rest, DrawsScalar Config.toy17 a k rest) ∧ (∃ a rest, DrawGivesUp Config.toy17 a rest) :=
  ⟨toyConfig_valid, ⟨_, _, _, draws_K1⟩, ⟨_, _, givesUp_three⟩⟩

/-- Operands of G1 and of the witnesses of `SIGN`: the private scalar 5, the digest 42, `e = 4`. -/
def signer (rng : List RngAnswer) : State := toy [(0, 5), (1, 42), (4, 19), (5, 1), (6, 18)] [] [] rng

/-- `k = 7` gives `r = 0`. -/
theorem restarts_seven : Restarts DP.toy17 4 5 7 :=
  .inr ⟨0, 6, ⟨0, 6, 11, by decide +kernel, by decide +kernel, by decide, by decide⟩, .inl rfl⟩

/-- G1: restart on `k = 7`, then `k = 3` signs. -/
theorem returns_G1 : SignReturns Config.toy17 4 5 [.fail, .value 7, .value 0, .value 3] 10 18 [] :=
  .restarted (.accepted (j := 1) (k := 7) (rest := [.value 0, .value 3]) (by decide) (by decide)) restarts_seven
    (.returned (.redrawn (j := 0) (v := 0) (by decide) (by decide) (.accepted (j := 0) (k := 3) (by decide) (by decide)))
      ⟨10, 6, 13, by decide +kernel, by decide +kernel, by decide, by decide⟩ (by decide) (by decide))

theorem witness_SignResult :
    (signer []).cfg.Valid ∧ (2 : FReg) ≠ 3 ∧ (signer []).getF 7 = 0 ∧ (signer []).cfg.dp.n ≤ (signer []).getF 4 ∧
    (1 ≤ (signer []).getF 5 ∧ (signer []).getF 6 < (signer []).cfg.dp.n) ∧
    (1 ≤ (signer []).getF 0 ∧ (signer []).getF 0 < (signer []).cfg.dp.n) ∧
    (∃ a r sig rest, SignReturns (signer a).cfg ((signer a).getF 1 % (signer a).cfg.dp.n) ((signer a).getF 0) (signer a).rng r sig rest) ∧
    (∃ a rest, SignGivesUp (signer a).cfg ((signer a).getF 1 % (signer a).cfg.dp.n) ((signer a).getF 0) (signer a).rng rest) :=
  ⟨toyConfig_valid, by decide, by decide, by decide, by decide, by decide,
    ⟨[.fail, .value 7, .value 0, .value 3], 10, 18, [], returns_G1⟩,
    ⟨[.value 7, .fail, .fail, .fail], [], .restarted (.accepted (j := 0) (k := 7) (rest := [.fail, .fail, .fail]) (by decide) (by decide))
      restarts_seven (.exhausted (.exhausted (rest := [])))⟩⟩

theorem witness_CommandsWaitForAnswers :
    (signer []).cfg.Valid ∧ (∃ a, DrawWaits (signer a).cfg (signer a).rng) ∧ (2 : FReg) ≠ 3 ∧
    (1 ≤ (signer []).getF 0 ∧ (signer []).getF 0 < (signer []).cfg.dp.n) ∧
    (∃ a, SignWaits (signer a).cfg ((signer a).getF 1 % (signer a).cfg.dp.n) ((signer a).getF 0) (signer a).rng) :=
  ⟨toyConfig_valid, ⟨[.value 19, .fail, .fail], waits_two⟩, by decide, by decide,
    ⟨[.fail, .fail, .value 7, .fail], .restarted (.accepted (j := 2) (k := 7) (rest := [.fail]) (by decide) (by decide)) restarts_seven
      (.pending (.pending (j := 1) (by decide)))⟩⟩

theorem witness_VerifyResult :
    ¬ (1 ≤ edge.getF 0 ∧ edge.getF 0 < edge.cfg.dp.n) ∧ ¬ (1 ≤ edge.getF 4 ∧ edge.getF 4 < edge.cfg.dp.n) ∧
    (1 ≤ edge.getF 3 ∧ edge.getF 3 < edge.cfg.dp.n) ∧ edge.getP 0 = .infinity ∧ onCurve edge.cfg.dp (edge.getP 3) = .ok false ∧
    edge.cfg.dp.Valid ∧ edge.getP 1 ≠ .infinity ∧ (edge.getP 1).inRange edge.cfg.dp.p = true ∧
    onCurve edge.cfg.dp (edge.getP 1) = .ok true :=
  ⟨by decide, by decide, by decide, by decide, by decide, toy17_valid, by decide, by decide, by decide⟩

theorem witness_SignedMessageVerifies :
    ∃ g g' s t u : State, g.cfg.Valid ∧ exec (.keygen 0 0) g = .next g' ∧ g'.busy = none ∧ g'.err = 0 ∧ s.cfg = g.cfg ∧
      s.getF 0 = g'.getF 0 ∧ exec (.sign 2 3 1 0) s = .next t ∧ t.busy = none ∧ t.err = 0 ∧ u.cfg = g.cfg ∧
      u.getF 2 = t.getF 2 ∧ u.getF 3 = t.getF 3 ∧ u.getF 1 = s.getF 1 ∧ u.getP 0 = g'.getP 0 := by
  obtain ⟨g', hg, h1⟩ := of_nextIs (o := exec (.keygen 0 0) (toy [] [] [] [.value 5]))
    (p := fun t => decide (t.busy = none ∧ t.err = 0 ∧ t.getF 0 = 5 ∧ t.getP 0 = .affine 9 16)) (by decide +kernel)
  obtain ⟨t, ht, h2⟩ := of_nextIs (o := exec (.sign 2 3 1 0) (signer [.value 3]))
    (p := fun t => decide (t.busy = none ∧ t.err = 0 ∧ t.getF 2 = 10 ∧ t.getF 3 = 18)) (by decide +kernel)
  obtain ⟨a1, a2, a3, a4⟩ := of_decide_eq_true h1
  obtain ⟨b1, b2, b3, b4⟩ := of_decide_eq_true h2
  refine ⟨toy [] [] [] [.value 5], g', signer [.value 3], t, toy [(2, 10), (3, 18), (1, 42)] [(0, .affine 9 16)] [] [], toyConfig_valid, hg, a1, a2, rfl, ?_, ht, b1, b2, rfl,
    ?_, ?_, by decide, ?_⟩
  · rw [a3]; decide
  · rw [b3]; decide
  · rw [b4]; decide
  · rw [a4]; decide

theorem witness_CongruentDigestsAreAlike :
    (toy [(1, 61)] [] [] []).cfg = (toy [(1, 42)] [] [] []).cfg ∧ (toy [(1, 61)] [] [] []).rng = (toy [(1, 42)] [] [] []).rng ∧
    (toy [(1, 61)] [] [] []).getF 1 % 19 = (toy [(1, 42)] [] [] []).getF 1 % (toy [(1, 42)] [] [] []).cfg.dp.n ∧
    (∀ i, i ≠ 1 → (toy [(1, 61)] [] [] []).getF i = (toy [(1, 42)] [] [] []).getF i) := by decide

theorem witness_EveryAnswerListDecides : Config.toy17.Valid ∧ 18 < DP.toy17.n ∧ 1 ≤ 18 := ⟨toyConfig_valid, by decide, by decide⟩

theorem witness_UnusableAnswersNeverEnd :
    (signer []).cfg.Valid ∧ (1 ≤ (signer []).getF 0 ∧ (signer []).getF 0 < (signer []).cfg.dp.n) ∧
    (∀ a ∈ ([.value 0, .value 19] : List RngAnswer), ∃ v, a = .value v ∧ ¬ (1 ≤ v ∧ v ≤ DP.toy17.n - 1)) ∧
    (∃ x y, smul DP.toy17 7 (basePoint DP.toy17) = .ok (.affine x y) ∧ x % DP.toy17.n = 0) ∧
    (∃ s : State, s.busy ≠ none ∧ s.rng = [] ∧ s.env = []) := by
  refine ⟨toyConfig_valid, by decide, ?_, ⟨0, 6, by decide +kernel, by decide⟩,
    ⟨{ State.reset with busy := some (.keygen 0 0) }, by decide, rfl, rfl⟩⟩
  intro a ha
  simp only [List.mem_cons, List.not_mem_nil, or_false] at ha
  rcases ha with rfl | rfl
  · exact ⟨0, rfl, by decide⟩
  · exact ⟨19, rfl, by decide⟩

theorem witness_LateAnswersMakeNoDifference :
    ∃ u v w : State, exec (.keygen 1 2) { toy [] [] [] [] with rng := [.fail] } = .next u ∧ u.busy = some (.keygen 1 2) ∧
      resume (.keygen 1 2) { u with rng := [.fail, .value 18] } = .next v ∧
      step { u with env := .rngAnswer (.value 8) :: [] } = .next w := by
  obtain ⟨u, hu, h⟩ := of_nextIs (o := exec (.keygen 1 2) { toy [] [] [] [] with rng := [.fail] })
    (p := fun u => decide (u.busy = some (.keygen 1 2)) &&
      (nextIs (resume (.keygen 1 2) { u with rng := [.fail, .value 18] }) (fun _ => true) &&
        nextIs (step { u with env := .rngAnswer (.value 8) :: [] }) fun _ => true)) (by decide +kernel)
  simp only [Bool.and_eq_true, decide_eq_true_eq] at h
  obtain ⟨v, hv, -⟩ := of_nextIs h.2.1
  obtain ⟨w, hw, -⟩ := of_nextIs h.2.2
  exact ⟨u, v, w, hu, h.1, hv, hw⟩

/-- A command that waited and goes on: it ends, and it waits again. -/
theorem witness_HiddenRegistersAreNoOperands :
    ({ Hidden.zero with k := 7, acc := .affine 5 1, tmp := 3, tries := 2 } : Hidden).tries = ({ Hidden.zero with tries := 2 } : Hidden).tries ∧
    (∃ t, resume (.sign 2 3 1 0) { signer [.value 3] with hid := { Hidden.zero with tries := 2 } } = .next t ∧ t.busy = none) ∧
    (∃ t, resume (.sign 2 3 1 0) { signer [.value 7, .fail] with hid := { Hidden.zero with tries := 2 } } = .next t ∧
      t.busy ≠ none) := by
  obtain ⟨t, h, hb⟩ := of_nextIs (o := resume (.sign 2 3 1 0) { signer [.value 3] with hid := { Hidden.zero with tries := 2 } })
    (p := fun t => decide (t.busy = none)) (by decide +kernel)
  obtain ⟨u, h', hb'⟩ := of_nextIs
    (o := resume (.sign 2 3 1 0) { signer [.value 7, .fail] with hid := { Hidden.zero with tries := 2 } })
    (p := fun t => decide (t.busy ≠ none)) (by decide +kernel)
  exact ⟨rfl, ⟨t, h, of_decide_eq_true hb⟩, ⟨u, h', of_decide_eq_true hb'⟩⟩

theorem witness_SecretsAreWiped :
    (∃ t, exec (.sign 2 3 1 0) (signer [.value 3]) = .next t ∧ t.busy = none) ∧
    (∃ t, resume (.keygen 1 2) (toy [] [] [] [.value 8]) = .next t ∧ t.busy = none) := by
  constructor
  · obtain ⟨t, h, hb⟩ := of_nextIs (o := exec (.sign 2 3 1 0) (signer [.value 3])) (p := fun t => decide (t.busy = none)) (by decide +kernel)
    exact ⟨t, h, of_decide_eq_true hb⟩
  · obtain ⟨t, h, hb⟩ := of_nextIs (o := resume (.keygen 1 2) (toy [] [] [] [.value 8])) (p := fun t => decide (t.busy = none)) (by decide +kernel)
    exact ⟨t, h, of_decide_eq_true hb⟩

theorem witness_ErroringCommandWritesNothing :
    ∃ t, exec (.feq .n 4 0) edge = .next t ∧ t.busy = none ∧ t.err = ErrorKind.outOfRangeInput.code := by
  obtain ⟨t, h, hb⟩ := of_nextIs (o := exec (.feq .n 4 0) edge)
    (p := fun t => decide (t.busy = none ∧ t.err = ErrorKind.outOfRangeInput.code)) (by decide +kernel)
  exact ⟨t, h, of_decide_eq_true hb⟩

theorem witness_OnlyDestinationsChange :
    edge.xb.wf = true ∧ (∃ t, exec (.fst .n 7 15) edge = .next t) ∧ isPredicate (.fst .n 7 15) = false ∧
    Instr.op (.fst .n 7 15) ≠ .keygen := by
  obtain ⟨t, h, -⟩ := of_nextIs (o := exec (.fst .n 7 15) edge) (p := fun _ => true) (by decide +kernel)
  exact ⟨by decide, ⟨t, h⟩, rfl, by decide⟩

theorem witness_OnlyListedErrors :
    edge.cfg.Valid ∧ edge.Inv ∧ (Instr.finv .p 0 0).wellFormed edge.cfg.dp = true ∧
    ∃ t, exec (.finv .p 0 0) edge = .next t ∧ t.busy = none ∧ t.err = ErrorKind.notInvertible.code := by
  obtain ⟨t, h, hb⟩ := of_nextIs (o := exec (.finv .p 0 0) edge)
    (p := fun t => decide (t.busy = none ∧ t.err = ErrorKind.notInvertible.code)) (by decide +kernel)
  exact ⟨toyConfig_valid, edge_inv, rfl, t, h, of_decide_eq_true hb⟩

theorem witness_FlagsAreNoOperands :
    (∃ t, exec (.ponc 3) edge = .next t ∧ t.busy = none ∧ t.err ≠ ErrorKind.illegalCommand.code) ∧ isPredicate (.ponc 3) = true ∧
    (∃ t, exec (.keygen 0 0) edge = .next t ∧ t.busy ≠ none) ∧ isPredicate (.keygen 0 0) = false := by
  obtain ⟨t, h, hb⟩ := of_nextIs (o := exec (.ponc 3) edge)
    (p := fun t => decide (t.busy = none ∧ t.err ≠ ErrorKind.illegalCommand.code)) (by decide +kernel)
  obtain ⟨u, h', hb'⟩ := of_nextIs (o := exec (.keygen 0 0) edge) (p := fun t => decide (t.busy ≠ none)) (by decide +kernel)
  exact ⟨⟨t, h, of_decide_eq_true hb⟩, rfl, ⟨u, h', of_decide_eq_true hb'⟩, rfl⟩

theorem witness_ConstantTableIsNeverWritten : ∃ t, step (edge.present 0x30000000) = .next t := by
  obtain ⟨t, h, -⟩ := of_nextIs (o := step (edge.present 0x30000000)) (p := fun _ => true) (by decide +kernel)
  exact ⟨t, h⟩

theorem witness_ErrIsWrittenAtCompletion :
    (∃ t, step (edge.present 0) = .next t ∧ t.err ≠ (edge.present 0).err) ∧
    (∃ t, exec (.pst 0 14) edge = .next t ∧ t.busy = none) ∧
    (∃ t, step { edge with env := [.xbWrite 15 1] } = .next t) ∧
    (∃ s : State, s.busy = none ∧ s.env = .rngAnswer .fail :: []) := by
  obtain ⟨t, h, hb⟩ := of_nextIs (o := step (edge.present 0)) (p := fun t => decide (t.err ≠ (edge.present 0).err)) (by decide +kernel)
  obtain ⟨u, hu, hb'⟩ := of_nextIs (o := exec (.pst 0 14) edge) (p := fun t => decide (t.busy = none)) (by decide +kernel)
  obtain ⟨v, hv, -⟩ := of_nextIs (o := step { edge with env := [.xbWrite 15 1] }) (p := fun _ => true) (by decide +kernel)
  exact ⟨⟨t, h, of_decide_eq_true hb⟩, ⟨u, hu, of_decide_eq_true hb'⟩, ⟨v, hv⟩, ⟨{ edge with env := [.rngAnswer .fail] }, rfl, rfl⟩⟩

/-- `edge` with `KEYGEN` waiting for an answer and one move to come. -/
def waiting (ev : Event) : State := { edge with busy := some (.keygen 0 0), env := [ev] }

theorem witness_StatusWordLayout :
    edge.busy = none ∧ (∃ t, exec (.keygen 0 0) edge = .next t ∧ t.busy ≠ none) ∧
    (∃ t, step (waiting (.rngAnswer .fail)) = .next t ∧ t.busy ≠ none) := by
  obtain ⟨t, h, hb⟩ := of_nextIs (o := exec (.keygen 0 0) edge) (p := fun t => decide (t.busy ≠ none)) (by decide +kernel)
  obtain ⟨u, h', hb'⟩ := of_nextIs (o := step (waiting (.rngAnswer .fail))) (p := fun t => decide (t.busy ≠ none)) (by decide +kernel)
  exact ⟨rfl, ⟨t, h, of_decide_eq_true hb⟩, ⟨u, h', of_decide_eq_true hb'⟩⟩

theorem witness_ResetValues :
    ({ waiting .reset with rng := [.value 8] } : State).env = .reset :: [] ∧ (waiting .reset).busy ≠ none := ⟨rfl, by decide⟩

theorem witness_StepRunsTheDecodedWord :
    (edge.present 0x30030000).busy = none ∧ decode edge.cfg.dp 0x30030000 = .ok (.pinf 3) ∧
    decode edge.cfg.dp (BitVec.ofNat 32 0x30030000) = .ok (.pinf 3) ∧
    ((waiting (.rngAnswer .fail)).busy = some (.keygen 0 0) ∧ (waiting (.rngAnswer .fail)).env = .rngAnswer .fail :: []) ∧
    (waiting .reset).env = .reset :: [] ∧ edge.env = [] := ⟨rfl, by decide, by decide, ⟨rfl, rfl⟩, rfl, rfl⟩

theorem witness_HostAccessesToTheBuffer :
    edge.xb.wf = true ∧ edge.busy = none ∧ 15 < edge.cfg.dp.xbSize ∧ edge.cfg.dp.xbSize ≤ 16 := by decide

theorem witness_AccessesWhileBusyAreRefused :
    (waiting (.cmd 0)).busy = some (.keygen 0 0) ∧ (waiting (.cmd 0)).env = .cmd 0 :: [] ∧
    (waiting (.xbWrite 15 1)).env = .xbWrite 15 1 :: [] := ⟨rfl, rfl, rfl⟩

theorem witness_StepKeepsTheInvariant : (edge.present 0x23010002).Inv ∧ ∃ t, step (edge.present 0x23010002) = .next t := by
  obtain ⟨t, h, -⟩ := of_nextIs (o := step (edge.present 0x23010002)) (p := fun _ => true) (by decide +kernel)
  have i := edge_inv
  exact ⟨⟨i.config, i.scalars, i.points, i.code, i.canonical, i.bounded, i.wiped, i.tries, i.answered⟩, t, h⟩

end Sys2Proof.Tests
end

section
/-! SUPPORT. The state of the block (10_state.md): what every way of ending keeps, that no command reads the flags or the hidden
registers, that every step keeps the invariant; and with these the statements about the state. -/

open Sys2Proof Sys2Proof.Machine

namespace Sys2Proof.Machine

/-! ### What an ending keeps -/

theorem Running.instr_draws (c : Running) : c.instr.op = .keygen ∨ c.instr.op = .sign := by
  cases c with
  | keygen => exact .inl rfl
  | sign => exact .inr rfl

theorem errorCode_lt (e : ErrorKind) : e.code.toNat < 8 := by cases e <;> decide

section
variable {i : Instr} {s t : State} (h : Ending i s t)
include h

theorem Ending.cfg_eq : t.cfg = s.cfg := by
  cases h with
  | completed _ inputs _ _ _ => exact inputs.1
  | raised _ _ => rfl
  | waiting _ => rfl

/-- R22, R29: an ending leaves all but the destinations and the stored bytes. -/
theorem Ending.unchanged (hw : s.xb.wf = true) :
    Unchanged s t (scalarDests i) (pointDests i) (storedBytes s.cfg.dp i).1 (storedBytes s.cfg.dp i).2 := by
  cases h with
  | completed writes _ _ _ _ => exact (writes hw).complete
  | raised _ _ => exact ⟨fun _ _ => rfl, fun _ _ => rfl, fun _ _ => rfl, rfl, rfl⟩
  | waiting _ => exact ⟨fun _ _ => rfl, fun _ _ => rfl, fun _ _ => rfl, rfl, rfl⟩

theorem Ending.flag_eq (hp : isPredicate i = false) : t.t = s.t := by
  cases h with
  | completed _ _ flag _ _ => exact flag hp
  | raised _ _ => simp [hp]
  | waiting _ => rfl

theorem Ending.answers_taken : ∃ taken, s.rng = taken ++ t.rng := by
  cases h with
  | completed _ _ _ taken _ => exact taken
  | raised taken _ => exact taken
  | waiting _ => exact ⟨s.rng, by simp⟩

theorem Ending.answers_kept (h1 : i.op ≠ .keygen) (h2 : i.op ≠ .sign) : t.rng = s.rng := by
  cases h with
  | completed _ _ _ _ noDraw => exact noDraw h1 h2
  | raised _ noDraw => exact noDraw h1 h2
  | @waiting c _ hc =>
    subst hc
    exact (c.instr_draws.elim h1 h2).elim

/-- R25: the code of a command that has ended. -/
theorem Ending.err_lt (hb : t.busy = none) : t.err.toNat < 8 := by
  cases h with
  | completed _ _ _ _ _ => exact (by decide : (0 : BitVec 4).toNat < 8)
  | @raised e _ _ _ => exact errorCode_lt e
  | waiting _ => cases hb

/-- R26: a command that has not completed shows the flags of the previous one. -/
theorem Ending.flags_of_busy (hb : t.busy ≠ none) : t.err = s.err ∧ t.t = s.t := by
  cases h with
  | completed _ _ _ _ _ => exact absurd rfl hb
  | raised _ _ => exact absurd rfl hb
  | waiting _ => exact ⟨rfl, rfl⟩

end

/-! ### What a move keeps -/

theorem Moved.cfg_eq {ev : Event} {s t : State} (h : Moved ev s t) : t.cfg = s.cfg := by
  cases h with
  | runs _ _ next => exact (exec_cases next).cfg_eq
  | illegal _ _ => rfl
  | stores _ _ => rfl
  | kept _ => rfl
  | resumed _ next => exact (resume_cases next).cfg_eq
  | reset => rfl

/-- R26: a move that leaves `BUSY` at 1 leaves the flags alone. -/
theorem Moved.flags_of_busy {ev : Event} {s t : State} (h : Moved ev s t) (hb : t.busy ≠ none) :
    t.err = s.err ∧ t.t = s.t := by
  cases h with
  | runs _ _ next => exact (exec_cases next).flags_of_busy hb
  | illegal _ _ => exact absurd rfl hb
  | stores _ _ => exact ⟨rfl, rfl⟩
  | kept _ => exact ⟨rfl, rfl⟩
  | resumed _ next => exact (resume_cases next).flags_of_busy hb
  | reset => exact absurd rfl hb

theorem step_flags_of_busy {s t : State} (h : step s = .next t) (hb : t.busy ≠ none) : t.err = s.err ∧ t.t = s.t := by
  obtain ⟨-, rfl⟩ | ⟨ev, rest, -, hm⟩ := step_cases h
  · exact ⟨rfl, rfl⟩
  · exact hm.flags_of_busy hb

/-- The next move of the list is the one a step makes. -/
theorem step_eq_hostMove {s : State} {ev : Event} {rest : List Event} (h : s.env = ev :: rest) :
    step s = hostMove ev (s.setEnv rest) := by
  simp only [step, advance, h]

/-- R27: a word written to an idle block that decodes to a command runs it. -/
theorem hostMove_cmd {s : State} {w : Word} {i : Instr} (hb : s.busy = none) (hd : decode s.cfg.dp w = .ok i) :
    hostMove (.cmd w) s = exec i s := by
  simp only [hostMove, hostCommand, if_neg (isBusy_eq_false.mpr hb), runWord, hd]

/-! ### The invariant -/

theorem State.Inv.setEnv {s : State} (h : s.Inv) (rest : List Event) : (s.setEnv rest).Inv :=
  ⟨h.config, h.scalars, h.points, h.code, h.canonical, h.bounded, h.wiped, h.tries, h.answered⟩

/-- Only a block that is idle can keep an answer (log 3). -/
theorem State.Inv.deliver {s : State} (h : s.Inv) (hb : s.busy = none) (a : RngAnswer) : (s.deliver a).Inv :=
  ⟨h.config, h.scalars, h.points, h.code, h.canonical, h.bounded, h.wiped, fun hn => absurd hb hn, fun hn => absurd hb hn⟩

theorem State.Inv.hostWrite {s : State} (h : s.Inv) {a : Nat} (ha : a < s.cfg.dp.xbSize) (v : Byte) :
    ({ s with xb := s.xb.set a v } : State).Inv :=
  ⟨h.config, h.scalars, h.points, h.code, Memory.wf_set h.canonical a v, Memory.below_set h.bounded ha v, h.wiped, h.tries,
    h.answered⟩

/-- R33: reset makes the invariant anew, on any usable constant table. -/
theorem inv_applyReset {s : State} (h : s.cfg.usable = true) : s.applyReset.Inv :=
  ⟨h, fun i => by rw [State.applyReset_getF]; exact Nat.two_pow_pos _, fun i => by rw [State.applyReset_getP]; rfl,
    (by decide : (0 : BitVec 4).toNat < 8), rfl, rfl, fun _ => rfl, fun hb => absurd rfl hb, fun hb => absurd rfl hb⟩

theorem inv_finish_bind {α : Type} {pred : Bool} {s t : State} {x : Except ErrorKind α} {w : α → State} (hs : Body s)
    (h : finish pred s (x >>= fun v => .ok (w v)) = .next t) (hw : ∀ v, x = .ok v → Body (w v)) : t.Inv := by
  refine inv_finish hs h fun u hu => ?_
  obtain ⟨v, hv, hu⟩ := bind_ok hu
  cases hu
  exact hw v hv

theorem fits_iff {s : State} {off : Offset} {len : Nat} :
    s.fits off len = true ↔ effectiveAddress off + len ≤ s.cfg.dp.xbSize := by
  simp [State.fits, DP.fits, effectiveAddress]

theorem execFld_keeps_inv {m : Modulus} {rd : FReg} {off : Offset} {s t : State} (hb : Body s)
    (h : execFld m rd off s = .next t) : t.Inv := by
  refine inv_finish hb h fun u hu => ?_
  dsimp only at hu
  split_ifs at hu
  cases hu
  exact hb.setF rd (load_bound s m _)

theorem execFst_keeps_inv {m : Modulus} {rs : FReg} {off : Offset} {s t : State} (hb : Body s)
    (h : execFst m rs off s = .next t) : t.Inv := by
  refine inv_finish hb h fun u hu => ?_
  split_ifs at hu with hf
  have hfit := fits_iff.mp (Bool.of_not_eq_false hf)
  cases m with
  | p =>
    dsimp only at hu
    split_ifs at hu
    cases hu
    exact hb.store hfit
  | n =>
    dsimp only at hu
    split_ifs at hu
    cases hu
    exact hb.store hfit

theorem execPld_keeps_inv {rd : PReg} {off : Offset} {s t : State} (hb : Body s) (h : execPld rd off s = .next t) : t.Inv := by
  refine inv_finish hb h fun u hu => ?_
  dsimp only at hu
  split_ifs at hu with hf hr
  cases hu
  rw [not_or, Nat.not_le, Nat.not_le] at hr
  exact hb.setP rd ((inRange_affine _ _ _).mpr hr)

theorem execPst_keeps_inv {rs : PReg} {off : Offset} {s t : State} (hb : Body s) (h : execPst rs off s = .next t) : t.Inv := by
  refine inv_finish hb h fun u hu => ?_
  split_ifs at hu with hf
  have hfit : effectiveAddress off + 2 * s.cfg.dp.lp ≤ s.cfg.dp.xbSize := fits_iff.mp (Bool.of_not_eq_false hf)
  cases hp : s.getP rs with
  | infinity => simp [hp] at hu
  | affine x y =>
    simp only [hp, Except.ok.injEq] at hu
    subst hu
    have hx : Body (s.store (effectiveAddress off) s.cfg.dp.lp x) := hb.store (by omega)
    exact hx.store (by simp only [State.store_cfg]; omega)

theorem basePoint_inRange {c : Config} (h : c.usable = true) : (basePoint c.dp).inRange c.dp.p = true := by
  obtain ⟨-, -, hx, hy, -⟩ := usable_iff.mp h
  exact (inRange_affine _ _ _).mpr ⟨hx, hy⟩

theorem keygenAttempt_result {d : DP} {k : Nat} {g : Hidden} {a : Nat × PointValue}
    (h : keygenAttempt d k g = .ok (.done a)) : a.1 = k ∧ smul d k (basePoint d) = .ok a.2 := by
  obtain ⟨q, hq, h⟩ := bind_ok h
  cases h
  exact ⟨rfl, hq⟩

theorem signAttempt_result_lt {d : DP} {e sk k : Nat} {g : Hidden} {a : Nat × Nat} (hn : 0 < d.n)
    (h : signAttempt d e sk k g = .ok (.done a)) : a.1 < d.n ∧ a.2 < d.n := by
  obtain ⟨p, -, h⟩ := bind_ok h
  cases p with
  | infinity => cases h
  | affine x y =>
    dsimp only at h
    split_ifs at h
    · cases h
    obtain ⟨_, -, h⟩ := bind_ok h
    obtain ⟨_, -, h⟩ := bind_ok h
    obtain ⟨_, -, h⟩ := bind_ok h
    obtain ⟨_, hsig, h⟩ := bind_ok h
    split_ifs at h
    · cases h
    · cases h
      exact ⟨Nat.mod_lt _ hn, fmul_lt hsig⟩

/-- `KEYGEN`, started or resumed in `s0` inside the command of the state `s`. -/
theorem runKeygen_keeps_inv {rd : FReg} {rq : PReg} {s s0 t : State} (hs : s.Inv) (hb : Body s0) (herr : s0.err = s.err)
    (ht : s0.hid.tries < s0.cfg.entropyTries) (h : runKeygen rd rq s0 = .next t) : t.Inv := by
  refine inv_finishDraws hs hb herr ht (keygenAttempt_tries _) (fun a rest hd => ?_) h
  obtain ⟨k, g, hk, ha⟩ := hd
  obtain ⟨rfl, hq⟩ := keygenAttempt_result ha
  have hr : Body (s0.setRng rest) := hb.same rfl rfl rfl rfl
  exact (hr.setF rd (hk.trans (n_lt_two_pow_regBits _))).setP rq (smul_inRange hq (basePoint_inRange hb.config))

/-- `SIGN`, started or resumed in `s0` inside the command of the state `s`. -/
theorem runSign_keeps_inv {rr rs re rd : FReg} {s s0 t : State} (hs : s.Inv) (hb : Body s0) (herr : s0.err = s.err)
    (ht : s0.hid.tries < s0.cfg.entropyTries) (h : runSign rr rs re rd s0 = .next t) : t.Inv := by
  unfold runSign at h
  split_ifs at h
  · cases h
    exact hb.raise _ _
  · refine inv_finishDraws hs hb herr ht (signAttempt_tries _ _ _) (fun a rest hd => ?_) h
    obtain ⟨k, g, -, ha⟩ := hd
    obtain ⟨-, hn, -⟩ := usable_iff.mp hb.config
    obtain ⟨h1, h2⟩ := signAttempt_result_lt hn ha
    have hr : Body (s0.setRng rest) := hb.same rfl rfl rfl rfl
    exact (hr.setF rr (h1.trans (n_lt_two_pow_regBits _))).setF rs (h2.trans (n_lt_two_pow_regBits _))

/-- A command that starts keeps the invariant. -/
theorem exec_keeps_inv {i : Instr} {s t : State} (hs : s.Inv) (h : exec i s = .next t) : t.Inv := by
  have hb : Body s := .of_inv hs
  have hb0 : Body s.beginDraws := hb.same rfl rfl rfl rfl
  obtain ⟨-, -, -, -, ht⟩ := usable_iff.mp hs.config
  cases i with
  | fadd m rd ra rb => exact inv_finish_bind hb h fun v hv => hb.setF rd (modulus_bound (fadd_lt hv))
  | fsub m rd ra rb => exact inv_finish_bind hb h fun v hv => hb.setF rd (modulus_bound (fsub_lt hv))
  | fneg m rd ra => exact inv_finish_bind hb h fun v hv => hb.setF rd (modulus_bound (fneg_lt hv))
  | feq m ra rb => exact inv_finish_bind hb h fun v _ => hb.setT v
  | fmul m rd ra rb => exact inv_finish_bind hb h fun v hv => hb.setF rd (modulus_bound (fmul_lt hv))
  | finv m rd ra => exact inv_finish_bind hb h fun v hv => hb.setF rd (modulus_bound (finv_lt hv))
  | fld m rd off => exact execFld_keeps_inv hb h
  | fst m rs off => exact execFst_keeps_inv hb h
  | pld rd off => exact execPld_keeps_inv hb h
  | pst rs off => exact execPst_keeps_inv hb h
  | pinf rd => cases h; exact (hb.setP rd rfl).complete
  | pisinf ra => cases h; exact (hb.setT _).complete
  | ponc ra => exact inv_finish_bind hb h fun v _ => hb.setT v
  | pneg rd ra => exact inv_finish_bind hb h fun v hv => hb.setP rd (pneg_inRange hv (hb.points ra))
  | pdbl rd ra => exact inv_finish_bind hb h fun v hv => hb.setP rd (pdbl_inRange hv)
  | padd rd ra rb => exact inv_finish_bind hb h fun v hv => hb.setP rd (padd_inRange hv (hb.points ra) (hb.points rb))
  | smul rd ra rk => exact inv_finish_bind hb h fun v hv => hb.setP rd (smul_inRange hv (hb.points ra))
  | keygen rd rq => exact runKeygen_keeps_inv hs hb0 rfl ht h
  | sign rr rs re rd =>
    simp only [exec, execSign] at h
    split_ifs at h
    · cases h
      exact hb.raise _ _
    · exact runSign_keeps_inv hs hb0 rfl ht h
  | verify rr rs re rq => exact inv_finish_bind hb h fun v _ => hb.setT v
  | wipe rd => cases h; exact (hb.setF rd (Nat.two_pow_pos _)).complete

/-- A command that waited and goes on with an answer keeps the invariant. -/
theorem resume_keeps_inv {c : Running} {s t : State} {a : RngAnswer} (hs : s.Inv) (hb : s.busy = some c)
    (h : resume c (s.deliver a) = .next t) : t.Inv := by
  have hbody : Body (s.deliver a) := (Body.of_inv hs).same rfl rfl rfl rfl
  have ht : s.hid.tries < s.cfg.entropyTries := hs.tries (by simp [hb])
  cases c with
  | keygen rd rq => exact runKeygen_keeps_inv hs hbody rfl ht h
  | sign rr rs re rd => exact runSign_keeps_inv hs hbody rfl ht h

theorem Moved.keeps_inv {ev : Event} {s t : State} (h : Moved ev s t) (hs : s.Inv) : t.Inv := by
  cases h with
  | runs _ _ next => exact exec_keeps_inv hs next
  | illegal _ _ => exact (Body.of_inv hs).raise _ _
  | stores _ inside => exact hs.hostWrite inside _
  | kept idle => exact hs.deliver idle _
  | resumed running next => exact resume_keeps_inv hs running next
  | reset => exact inv_applyReset hs.config

/-! ### The flags and the hidden registers are no operands -/

/-- The state with other flags and other hidden registers. -/
def State.reflag (s : State) (b : Bool) (e : BitVec 4) (g : Hidden) : State := { s with t := b, err := e, hid := g }

/-- The writes of the command `i` that were computed in `u`, made in `s`. -/
def State.rebase (i : Instr) (u s : State) : State :=
  { s with f := u.f, pt := u.pt, xb := u.xb, t := if isPredicate i = true then u.t else s.t }

/-- The command computes its writes, or its error, from what is neither flag nor hidden register. -/
def Computes (i : Instr) (s : State) : Prop :=
  ∃ r : Except ErrorKind State, ∀ b e g,
    exec i (s.reflag b e g) = finish (isPredicate i) (s.reflag b e g) (r.map (State.rebase i · (s.reflag b e g)))

/-- A meaning that writes with `w` what `x` answers, if `x` is the same for all flags and hidden registers. -/
theorem Computes.of_bind {α : Type} {i : Instr} {s : State} (x : Except ErrorKind α) (w : State → α → State)
    (h : ∀ b e g, exec i (s.reflag b e g) =
      finish (isPredicate i) (s.reflag b e g) (x >>= fun v => .ok (w (s.reflag b e g) v)))
    (hw : ∀ b e g v, w (s.reflag b e g) v = State.rebase i (w s v) (s.reflag b e g)) : Computes i s := by
  refine ⟨x.map (w s), fun b e g => ?_⟩
  rw [h]
  cases x with
  | error k => rfl
  | ok v => rw [ok_bind, hw]; rfl

theorem Computes.of_raise {i : Instr} {s : State} {k : ErrorKind}
    (h : ∀ b e g, exec i (s.reflag b e g) = .next ((s.reflag b e g).raise (isPredicate i) k)) : Computes i s :=
  ⟨.error k, h⟩

theorem Computes.of_complete {i : Instr} {s : State} (u : State)
    (h : ∀ b e g, exec i (s.reflag b e g) = .next (State.rebase i u (s.reflag b e g)).complete) : Computes i s :=
  ⟨.ok u, h⟩

/-- R24, R25, R31: no command but those that draw reads a flag or a hidden register. -/
theorem exec_computes {i : Instr} (h1 : i.op ≠ .keygen) (h2 : i.op ≠ .sign) (s : State) : Computes i s := by
  cases i with
  | fadd m rd ra rb =>
    exact .of_bind (fadd (s.modulus m) (s.getF ra) (s.getF rb)) (·.setF rd) (fun _ _ _ => rfl) fun _ _ _ _ => rfl
  | fsub m rd ra rb =>
    exact .of_bind (fsub (s.modulus m) (s.getF ra) (s.getF rb)) (·.setF rd) (fun _ _ _ => rfl) fun _ _ _ _ => rfl
  | fneg m rd ra => exact .of_bind (fneg (s.modulus m) (s.getF ra)) (·.setF rd) (fun _ _ _ => rfl) fun _ _ _ _ => rfl
  | feq m ra rb =>
    exact .of_bind (feq (s.modulus m) (s.getF ra) (s.getF rb)) State.setT (fun _ _ _ => rfl) fun _ _ _ _ => rfl
  | fmul m rd ra rb =>
    exact .of_bind (fmul (s.modulus m) (s.getF ra) (s.getF rb)) (·.setF rd) (fun _ _ _ => rfl) fun _ _ _ _ => rfl
  | finv m rd ra => exact .of_bind (finv (s.modulus m) (s.getF ra)) (·.setF rd) (fun _ _ _ => rfl) fun _ _ _ _ => rfl
  | fld m rd off =>
    by_cases hf : s.fits off (s.cfg.dp.fieldLen m) = true
    · by_cases hr : m = .p ∧ s.cfg.dp.p ≤ s.load (effectiveAddress off) (s.cfg.dp.fieldLen m)
      · exact .of_raise fun _ _ _ => execFld_range rd hf hr
      · exact .of_complete (s.setF rd (s.load (effectiveAddress off) (s.cfg.dp.fieldLen m))) fun b e g =>
          execFld_done (s := s.reflag b e g) rd hf hr
    · exact .of_raise fun _ _ _ => execFld_misfit rd (Bool.of_not_eq_true hf)
  | fst m rs off =>
    by_cases hf : s.fits off (s.cfg.dp.fieldLen m) = true
    · rcases Nat.lt_or_ge (s.getF rs) (if m = .p then s.cfg.dp.p else 2 ^ (8 * s.cfg.dp.ln)) with hr | hr
      · exact .of_complete (s.store (effectiveAddress off) (s.cfg.dp.fieldLen m) (s.getF rs)) fun b e g =>
          execFst_done (s := s.reflag b e g) rs hf hr
      · exact .of_raise fun _ _ _ => execFst_range rs hf hr
    · exact .of_raise fun _ _ _ => execFst_misfit rs (Bool.of_not_eq_true hf)
  | pld rd off =>
    by_cases hf : s.fits off s.cfg.dp.pointLen = true
    · by_cases hr : s.cfg.dp.p ≤ s.load (effectiveAddress off) s.cfg.dp.lp ∨
        s.cfg.dp.p ≤ s.load (effectiveAddress off + s.cfg.dp.lp) s.cfg.dp.lp
      · exact .of_raise fun _ _ _ => execPld_range rd hf hr
      · rw [not_or, Nat.not_le, Nat.not_le] at hr
        exact .of_complete (s.setP rd (.affine (s.load (effectiveAddress off) s.cfg.dp.lp)
          (s.load (effectiveAddress off + s.cfg.dp.lp) s.cfg.dp.lp))) fun b e g =>
          execPld_done (s := s.reflag b e g) rd hf hr.1 hr.2
    · exact .of_raise fun _ _ _ => execPld_misfit rd (Bool.of_not_eq_true hf)
  | pst rs off =>
    by_cases hf : s.fits off s.cfg.dp.pointLen = true
    · cases hp : s.getP rs with
      | infinity => exact .of_raise fun _ _ _ => execPst_infinity hf hp
      | affine x y => exact .of_complete ((s.store (effectiveAddress off) s.cfg.dp.lp x).store
          (effectiveAddress off + s.cfg.dp.lp) s.cfg.dp.lp y) fun b e g =>
          execPst_done (s := s.reflag b e g) hf hp
    · exact .of_raise fun _ _ _ => execPst_misfit rs (Bool.of_not_eq_true hf)
  | pinf rd => exact .of_bind (.ok ()) (fun u _ => u.setP rd .infinity) (fun _ _ _ => rfl) fun _ _ _ _ => rfl
  | pisinf ra =>
    exact .of_bind (.ok (s.getP ra).isInfinity) State.setT (fun _ _ _ => rfl) fun _ _ _ _ => rfl
  | ponc ra => exact .of_bind (onCurve s.cfg.dp (s.getP ra)) State.setT (fun _ _ _ => rfl) fun _ _ _ _ => rfl
  | pneg rd ra => exact .of_bind (pneg s.cfg.dp (s.getP ra)) (·.setP rd) (fun _ _ _ => rfl) fun _ _ _ _ => rfl
  | pdbl rd ra => exact .of_bind (pdbl s.cfg.dp (s.getP ra)) (·.setP rd) (fun _ _ _ => rfl) fun _ _ _ _ => rfl
  | padd rd ra rb => exact .of_bind (padd s.cfg.dp (s.getP ra) (s.getP rb)) (·.setP rd) (fun _ _ _ => rfl) fun _ _ _ _ => rfl
  | smul rd ra rk => exact .of_bind (smul s.cfg.dp (s.getF rk) (s.getP ra)) (·.setP rd) (fun _ _ _ => rfl) fun _ _ _ _ => rfl
  | keygen rd rq => exact absurd rfl h1
  | sign rr rs re rd => exact absurd rfl h2
  | verify rr rs re rq =>
    exact .of_bind (verify s.cfg.dp (s.getF re) (s.getP rq) (s.getF rr) (s.getF rs)) State.setT (fun _ _ _ => rfl)
      fun _ _ _ _ => rfl
  | wipe rd => exact .of_bind (.ok ()) (fun u _ => u.setF rd 0) (fun _ _ _ => rfl) fun _ _ _ _ => rfl

/-- `t'` is what a command comes to when it starts with the flags `b` and `e`, where it came to `t` with others. -/
structure SameButFlags (i : Instr) (b : Bool) (e : BitVec 4) (t t' : State) : Prop where
  scalars : t'.f = t.f
  points : t'.pt = t.pt
  buffer : t'.xb = t.xb
  answers : t'.rng = t.rng
  busy : t'.busy = t.busy
  hidden : t'.hid = t.hid
  ended : t.busy = none → t'.err = t.err
  running : t.busy ≠ none → t'.err = e
  answer : isPredicate i = true → t.err ≠ ErrorKind.illegalCommand.code → t'.t = t.t
  flag : isPredicate i = false → t'.t = b

section
variable {i : Instr} {s : State} {b : Bool} {e : BitVec 4}

theorem SameButFlags.raise (g : Hidden) (k : ErrorKind) :
    SameButFlags i b e (s.raise (isPredicate i) k) ((s.reflag b e g).raise (isPredicate i) k) := by
  refine ⟨rfl, rfl, rfl, rfl, rfl, rfl, fun _ => rfl, fun hb => absurd rfl hb, fun hp hk => ?_, fun hp => by rw [hp]; rfl⟩
  have hne : k ≠ .illegalCommand := fun h => hk (congrArg ErrorKind.code h)
  simp [hp, hne]

theorem SameButFlags.complete {u u' : State} (hf : u'.f = u.f) (hp : u'.pt = u.pt) (hx : u'.xb = u.xb) (hr : u'.rng = u.rng)
    (answer : isPredicate i = true → u'.t = u.t) (flag : isPredicate i = false → u'.t = b) :
    SameButFlags i b e u.complete u'.complete :=
  ⟨hf, hp, hx, hr, rfl, rfl, fun _ => rfl, fun hb => absurd rfl hb, fun h _ => answer h, flag⟩

theorem SameButFlags.wait (hp : isPredicate i = false) (c : Running) (h g : Hidden) :
    SameButFlags i b e (s.wait c h) ((s.reflag b e g).wait c h) :=
  ⟨rfl, rfl, rfl, rfl, rfl, rfl, nofun, fun _ => rfl, fun ht => absurd (hp.symm.trans ht) nofun, fun _ => rfl⟩

theorem Computes.sameButFlags {t : State} (hc : Computes i s) (h : exec i s = .next t) :
    ∃ t', exec i (s.reflag b e s.hid) = .next t' ∧ SameButFlags i b e t t' := by
  obtain ⟨r, hr⟩ := hc
  have h := (hr s.t s.err s.hid).symm.trans h
  cases r with
  | error k =>
    cases h
    exact ⟨_, hr b e s.hid, .raise s.hid k⟩
  | ok u =>
    cases h
    refine ⟨_, hr b e s.hid, .complete rfl rfl rfl rfl (fun hp => ?_) fun hp => ?_⟩
    · simp [State.rebase, hp]
    · simp [State.rebase, hp, State.reflag]

/-- A command that draws, and does not read the flags when it writes. -/
theorem SameButFlags.of_finishDraws {α : Type} {c : Running} {write : State → α → State} {g : Hidden} {t : State}
    {r : RngResult α} (hp : isPredicate i = false)
    (hw : ∀ rest a, write ((s.reflag b e g).setRng rest) a = (write (s.setRng rest) a).reflag b e g)
    (h : finishDraws s c write r = .next t) :
    ∃ t', finishDraws (s.reflag b e g) c write r = .next t' ∧ SameButFlags i b e t t' := by
  cases r with
  | done a rest =>
    cases h
    refine ⟨_, rfl, ?_⟩
    rw [hw]
    exact .complete rfl rfl rfl rfl (fun ht => absurd (hp.symm.trans ht) nofun) fun _ => rfl
  | failed k rest =>
    cases h
    refine ⟨_, rfl, ?_⟩
    have hk := SameButFlags.raise (i := i) (s := s.setRng rest) (b := b) (e := e) g k
    rwa [hp] at hk
  | waiting h' =>
    cases h
    exact ⟨_, rfl, .wait hp c h' g⟩

end

/-- R48 step 5: equal destinations. -/
theorem exec_sign_same (rr re rd : FReg) (s : State) :
    exec (.sign rr rr re rd) s = .next (s.raise false .illegalCommand) := if_pos rfl

/-- R100: the range of the signing key is tested before any request. -/
theorem exec_sign_range {rr rs re rd : FReg} {s : State} (hne : rr ≠ rs)
    (hr : ¬ (1 ≤ s.getF rd ∧ s.getF rd < s.cfg.dp.n)) :
    exec (.sign rr rs re rd) s = .next (s.raise false .outOfRangeInput) :=
  (if_neg hne).trans (if_pos (Bool.eq_false_iff.mpr fun h => hr (inScalarRange_iff.mp h)))

/-- What a command comes to when it starts with other flags. -/
theorem exec_sameButFlags {i : Instr} {s t : State} (b : Bool) (e : BitVec 4) (h : exec i s = .next t) :
    ∃ t', exec i (s.reflag b e s.hid) = .next t' ∧ SameButFlags i b e t t' := by
  cases i
  case keygen rd rq => exact SameButFlags.of_finishDraws (s := s.beginDraws) (g := Hidden.zero) rfl (fun _ _ => rfl) h
  case sign rr rs re rd =>
    by_cases hne : rr = rs
    · subst hne
      rw [exec_sign_same] at h
      cases h
      exact ⟨_, exec_sign_same .., .raise s.hid _⟩
    by_cases hr : 1 ≤ s.getF rd ∧ s.getF rd < s.cfg.dp.n
    · rw [exec_sign hne hr.1 hr.2] at h
      obtain ⟨t', h', ht⟩ := SameButFlags.of_finishDraws (i := .sign rr rs re rd) (b := b) (e := e) (g := Hidden.zero) rfl
        (fun _ _ => rfl) h
      exact ⟨t', (exec_sign (s := s.reflag b e s.hid) hne hr.1 hr.2).trans h', ht⟩
    · rw [exec_sign_range hne hr] at h
      cases h
      exact ⟨_, exec_sign_range (s := s.reflag b e s.hid) hne hr, .raise s.hid _⟩
  all_goals exact (exec_computes (by simp [Instr.op]) (by simp [Instr.op]) s).sameButFlags h

/-- R31: no command reads a hidden register when it starts. -/
theorem Computes.hidden {i : Instr} {s : State} (hc : Computes i s) (g : Hidden) : exec i { s with hid := g } = exec i s := by
  obtain ⟨r, hr⟩ := hc
  refine (hr s.t s.err g).trans (Eq.trans ?_ (hr s.t s.err s.hid).symm)
  cases r with
  | error k => rfl
  | ok u => rfl

theorem exec_hidden (i : Instr) (s : State) (g : Hidden) : exec i { s with hid := g } = exec i s := by
  cases i
  case keygen => rfl
  case sign => rfl
  all_goals exact (exec_computes (by simp [Instr.op]) (by simp [Instr.op]) s).hidden g

/-- `t'` is what a command that waited comes to from hidden registers that agree in `TRY` with those from which it came to `t`. -/
structure SameButHidden (t t' : State) : Prop where
  visible : t' = { t with hid := t'.hid }
  tries : t'.hid.tries = t.hid.tries
  ended : t.busy = none → t' = t

theorem SameButHidden.refl (t : State) : SameButHidden t t := ⟨rfl, rfl, fun _ => rfl⟩

theorem finishDraws_hidden {α : Type} {c : Running} {write : State → α → State} {s : State} {g : Hidden}
    {r r' : RngResult α}
    (hr : SameResult r r')
    (hw : ∀ rest a, (write (State.setRng { s with hid := g } rest) a).complete = (write (s.setRng rest) a).complete) :
    ∃ t t', finishDraws s c write r = .next t ∧ finishDraws { s with hid := g } c write r' = .next t' ∧
      SameButHidden t t' := by
  cases hr with
  | @done a rest =>
    refine ⟨_, _, rfl, rfl, ?_⟩
    rw [hw]
    exact .refl _
  | failed => exact ⟨_, _, rfl, rfl, .refl _⟩
  | waiting ht => exact ⟨_, _, rfl, rfl, ⟨rfl, ht, nofun⟩⟩

/-- R31, R96: a command that goes on reads no hidden register but `TRY`. -/
theorem resume_hidden (c : Running) {s : State} {g : Hidden} (ht : g.tries = s.hid.tries) :
    ∃ t t', resume c s = .next t ∧ resume c { s with hid := g } = .next t' ∧ SameButHidden t t' := by
  cases c with
  | keygen rd rq => exact finishDraws_hidden (rngLoop_hidden (keygenAttempt_hidden _) _ ht) fun _ _ => rfl
  | sign rr rs re rd =>
    by_cases hr : inScalarRange s.cfg.dp.n (s.getF rd) = false
    · exact ⟨_, _, if_pos hr, if_pos hr, .refl _⟩
    · obtain ⟨t, t', h, h', hs⟩ := finishDraws_hidden (c := .sign rr rs re rd)
        (write := writeSignature rr rs) (s := s) (g := g) (rngLoop_hidden (signAttempt_hidden _ _ _) _ ht) fun _ _ => rfl
      exact ⟨t, t', (if_neg hr).trans h, (if_neg hr).trans h', hs⟩

/-! ### The status word -/

theorem statusBits_toNat : ∀ (busy t : Bool) (e : BitVec 4),
    (0#26 ++ BitVec.ofBool busy ++ BitVec.ofBool t ++ e).toNat =
      e.toNat + (if t = true then 16 else 0) + (if busy = true then 32 else 0) := by
  decide

/-- R26: the layout as a number. -/
theorem status_toNat (s : State) :
    s.status.toNat = s.err.toNat + (if s.t = true then 16 else 0) + (if s.busy = none then 0 else 32) := by
  rw [State.status, statusBits_toNat, State.isBusy]
  cases s.busy with
  | none => rfl
  | some c => rfl

end Sys2Proof.Machine

namespace Sys2Proof.Proofs

/-- Settles O58: what a step does is one move, and every move keeps the invariant. -/
theorem stepKeepsTheInvariant : Obligations.StepKeepsTheInvariant := by
  unfold Obligations.StepKeepsTheInvariant
  intro s t hs h
  obtain ⟨-, rfl⟩ | ⟨ev, rest, -, hm⟩ := step_cases h
  · exact hs
  · exact hm.keeps_inv (hs.setEnv rest)

/-- Settles O47, by the three ways a command ends. -/
theorem onlyDestinationsChange : Obligations.OnlyDestinationsChange := by
  unfold Obligations.OnlyDestinationsChange
  intro i s t hw h
  have he := exec_cases h
  exact ⟨he.unchanged hw, he.flag_eq, he.answers_taken, he.answers_kept⟩

/-- Settles O49: a command that starts computes from other things, and one that goes on reads `TRY` alone. -/
theorem hiddenRegistersAreNoOperands : Obligations.HiddenRegistersAreNoOperands := by
  unfold Obligations.HiddenRegistersAreNoOperands
  refine ⟨exec_hidden, fun s g a => ⟨rfl, rfl⟩, fun c s g ht => ?_⟩
  obtain ⟨t, t', h, h', hs⟩ := resume_hidden c ht
  exact ⟨t, t', h, h', hs.visible, hs.tries, hs.ended⟩

/-- Settles O50: the command computes its writes without the flags, and ends or waits in the same way. -/
theorem flagsAreNoOperands : Obligations.FlagsAreNoOperands := by
  unfold Obligations.FlagsAreNoOperands
  intro i s t b e h
  obtain ⟨t', h', hs⟩ := exec_sameButFlags b e h
  exact ⟨t', h', hs.scalars, hs.points, hs.buffer, hs.answers, hs.busy, hs.hidden, hs.ended, hs.running, hs.answer, hs.flag⟩

/-- Settles O51: no move writes it, and each way a command ends keeps it. -/
theorem constantTableIsNeverWritten : Obligations.ConstantTableIsNeverWritten := by
  unfold Obligations.ConstantTableIsNeverWritten
  intro s t h
  obtain ⟨-, rfl⟩ | ⟨ev, rest, -, hm⟩ := step_cases h
  · rfl
  · exact hm.cfg_eq

/-- Settles O52: a step that leaves `BUSY` at 1 leaves `ERR`, and a command that has ended shows 0 or the code of an error. -/
theorem errIsWrittenAtCompletion : Obligations.ErrIsWrittenAtCompletion := by
  unfold Obligations.ErrIsWrittenAtCompletion
  refine ⟨fun s t h hne => ?_, fun i s t h => (exec_cases h).err_lt, fun s t rest a v _ he h => ?_,
    fun s rest x hb he => ⟨?_, rfl⟩⟩
  · by_contra hb
    exact hne (step_flags_of_busy h hb).1
  · rw [step_eq_hostMove he] at h
    cases hostMove_cases h
    rfl
  · rw [step_eq_hostMove he]
    simp only [hostMove, rngAnswers, State.setEnv_busy, hb]

/-- Settles O53: the layout as a number, and a command that has not completed has written neither flag. -/
theorem statusWordLayout : Obligations.StatusWordLayout := by
  unfold Obligations.StatusWordLayout
  refine ⟨status_toNat, fun i s t hs h hb => ?_, fun s t => step_flags_of_busy⟩
  obtain ⟨he, ht⟩ := (exec_cases h).flags_of_busy hb
  rw [status_toNat, status_toNat, he, ht, if_neg hb, if_pos hs, Nat.add_zero]

/-- Settles O54: reset is a move in every state, and no reset value depends on the state it comes to. -/
theorem resetValues : Obligations.ResetValues := by
  unfold Obligations.ResetValues
  refine ⟨State.reset.applyReset_getF, State.reset.applyReset_getP, rfl, rfl, rfl, fun _ => rfl, rfl, fun s rest he => ?_⟩
  refine ⟨(s.setEnv rest).applyReset, step_eq_hostMove he, fun i => State.applyReset_getF _ i, fun i => ?_, rfl, rfl, rfl,
    fun _ => rfl, rfl, rfl⟩
  rw [State.applyReset_getP]
  exact ⟨rfl, rfl⟩

/-- Settles O55: a step is the next move of the list, made in the state without it. -/
theorem stepRunsTheDecodedWord : Obligations.StepRunsTheDecodedWord := by
  unfold Obligations.StepRunsTheDecodedWord
  refine ⟨fun s w rest i hb he hd => ?_, fun s nbits w i hd => ?_, fun s c x rest hb he => ?_,
    fun s rest he => ?_, fun s he => ?_⟩
  · exact (step_eq_hostMove he).trans (hostMove_cmd hb hd)
  · exact (step_eq_hostMove (State.present_env s _)).trans (hostMove_cmd rfl hd)
  · rw [step_eq_hostMove he]
    simp only [hostMove, rngAnswers, State.setEnv_busy, hb]
  · exact step_eq_hostMove he
  · simp only [step, advance, he]

/-- Settles O59: the default constant table is usable, and reset makes the rest of the invariant. -/
theorem resetHasTheInvariant : Obligations.ResetHasTheInvariant := by
  unfold Obligations.ResetHasTheInvariant
  exact inv_applyReset (s := State.reset) (by decide)

end Sys2Proof.Proofs
end

section
/-! SUPPORT. The exchange buffer (20_memory.md): the closed form of a wide read, what a transfer that completed has stored, that a
load gives it back, and the host's accesses; and with these the statements about the buffer. -/

open Sys2Proof Sys2Proof.Machine

namespace Sys2Proof.Machine

/-! ### Wide reads -/

/-- R36: each byte that joins at the right moves the bytes before it one place up. -/
theorem Memory.read_eq_sum (x : Memory) (addr n : Nat) :
    x.read addr n = ∑ j ∈ Finset.range n, (x.get (addr + j)).toNat * 256 ^ (n - 1 - j) := by
  induction n with
  | zero => rfl
  | succ n ih =>
    have hup : ∀ j ∈ Finset.range n, (x.get (addr + j)).toNat * 256 ^ (n + 1 - 1 - j) =
        (x.get (addr + j)).toNat * 256 ^ (n - 1 - j) * 256 := by
      intro j hj
      have hpow : n + 1 - 1 - j = n - 1 - j + 1 := by have := Finset.mem_range.mp hj; omega
      rw [hpow, pow_succ, mul_assoc]
    rw [Memory.read, ih, Finset.sum_range_succ, Finset.sum_congr rfl hup, ← Finset.sum_mul]
    simp

/-! ### Stores that completed, and loads of the bytes they wrote -/

section
variable {s t : State} {m : Modulus} {off : Offset}

/-- R114: a command that ends with `ERR = 0` has raised nothing. -/
theorem raise_err_ne_zero {pred : Bool} {e : ErrorKind} : (s.raise pred e).err ≠ 0 := code_ne_zero e

/-- R73: the checks that an `FST` without error has passed, and what it has written. -/
theorem execFst_completed {rs : FReg} (h : execFst m rs off s = .next t) (h0 : t.err = 0) :
    s.fits off (s.cfg.dp.fieldLen m) = true ∧ s.getF rs < (if m = .p then s.cfg.dp.p else 2 ^ (8 * s.cfg.dp.ln)) ∧
      t = (s.store (effectiveAddress off) (s.cfg.dp.fieldLen m) (s.getF rs)).complete := by
  cases hf : s.fits off (s.cfg.dp.fieldLen m) with
  | false =>
    rw [execFst_misfit rs hf] at h
    cases h
    exact absurd h0 raise_err_ne_zero
  | true =>
    rcases Nat.lt_or_ge (s.getF rs) (if m = .p then s.cfg.dp.p else 2 ^ (8 * s.cfg.dp.ln)) with hr | hr
    · rw [execFst_done rs hf hr] at h
      cases h
      exact ⟨rfl, hr, rfl⟩
    · rw [execFst_range rs hf hr] at h
      cases h
      exact absurd h0 raise_err_ne_zero

/-- R75: what a `PST` without error has stored, and where. -/
theorem execPst_completed {rs : PReg} (h : execPst rs off s = .next t) (h0 : t.err = 0) :
    s.fits off s.cfg.dp.pointLen = true ∧ ∃ x y, s.getP rs = .affine x y ∧
      t = ((s.store (effectiveAddress off) s.cfg.dp.lp x).store (effectiveAddress off + s.cfg.dp.lp) s.cfg.dp.lp y).complete := by
  cases hf : s.fits off s.cfg.dp.pointLen with
  | false =>
    rw [execPst_misfit rs hf] at h
    cases h
    exact absurd h0 raise_err_ne_zero
  | true =>
    cases hp : s.getP rs with
    | infinity =>
      rw [execPst_infinity hf hp] at h
      cases h
      exact absurd h0 raise_err_ne_zero
    | affine x y =>
      rw [execPst_done hf hp] at h
      cases h
      exact ⟨rfl, x, y, rfl, rfl⟩

/-- R6: a field element has `LP` bytes. -/
theorem lt_pow_lp {d : DP} {v : Nat} (h : v < d.p) : v < 256 ^ d.lp :=
  calc
    v < d.p := h
    _ < 2 ^ (8 * d.lp) := lt_pow_bytes d.p
    _ = 256 ^ d.lp := Nat.pow_mul 2 8 d.lp

/-- R73: what `FST` accepts fits in the bytes it writes. -/
theorem lt_pow_fieldLen {d : DP} {v : Nat} (h : v < if m = .p then d.p else 2 ^ (8 * d.ln)) : v < 256 ^ d.fieldLen m := by
  cases m with
  | p => exact lt_pow_lp h
  | n =>
    calc
      v < 2 ^ (8 * d.ln) := h
      _ = 256 ^ d.ln := Nat.pow_mul 2 8 d.ln

/-- R36, R37: a load of the bytes just stored gives the value, if it fits in them. -/
theorem load_store_self (hw : s.xb.wf = true) {addr n v : Nat} (hv : v < 256 ^ n) : (s.store addr n v).load addr n = v :=
  (Memory.read_write_self hw addr n v).trans (Nat.mod_eq_of_lt hv)

/-- R38: the two halves of a pair stored one above the other do not meet, so each loads back. -/
theorem load_stored_pair (hw : s.xb.wf = true) (addr : Nat) {n x y : Nat} (hx : x < 256 ^ n) (hy : y < 256 ^ n) :
    ((s.store addr n x).store (addr + n) n y).load addr n = x ∧
      ((s.store addr n x).store (addr + n) n y).load (addr + n) n = y := by
  have hw' : (s.store addr n x).xb.wf = true := Memory.wf_write hw addr n x
  have habove : ((s.store addr n x).store (addr + n) n y).load addr n = (s.store addr n x).load addr n :=
    Memory.read_write_disjoint hw' (.inl (Nat.le_refl _)) y
  exact ⟨habove.trans (load_store_self hw hx), load_store_self hw' hy⟩

end

/-! ### The host's accesses -/

section
variable {s : State} {a : Nat}

theorem isBusy_of_some {c : Running} (hb : s.busy = some c) : s.isBusy = true := by simp [State.isBusy, hb]

theorem hostCommand_busy (w : Word) (hb : s.isBusy = true) : hostCommand w s = .refused .hostAccessWhileBusy := if_pos hb

theorem hostWrite_busy (a : Nat) (v : Byte) (hb : s.isBusy = true) : hostWrite a v s = .refused .hostAccessWhileBusy := if_pos hb

theorem hostRead_busy (a : Nat) (hb : s.isBusy = true) : s.hostRead a = .refused .hostAccessWhileBusy := if_pos hb

theorem hostWrite_inside (v : Byte) (hb : s.busy = none) (ha : a < s.cfg.dp.xbSize) :
    hostWrite a v s = .next { s with xb := s.xb.set a v } := by
  rw [hostWrite, if_neg (isBusy_eq_false.mpr hb), if_neg (Nat.not_le.mpr ha)]

theorem hostWrite_beyond (v : Byte) (hb : s.busy = none) (ha : s.cfg.dp.xbSize ≤ a) :
    hostWrite a v s = .fault (.noSuchByte a) := by
  rw [hostWrite, if_neg (isBusy_eq_false.mpr hb), if_pos ha]

theorem hostRead_inside (hb : s.busy = none) (ha : a < s.cfg.dp.xbSize) : s.hostRead a = .next (s.xb.get a) := by
  rw [State.hostRead, if_neg (isBusy_eq_false.mpr hb), if_neg (Nat.not_le.mpr ha)]

theorem hostRead_beyond (hb : s.busy = none) (ha : s.cfg.dp.xbSize ≤ a) : s.hostRead a = .fault (.noSuchByte a) := by
  rw [State.hostRead, if_neg (isBusy_eq_false.mpr hb), if_pos ha]

theorem unchanged_setByte (hw : s.xb.wf = true) (a : Nat) (v : Byte) : Unchanged s { s with xb := s.xb.set a v } [] [] a 1 :=
  ⟨fun _ _ => rfl, fun _ _ => rfl, fun b hb => (Memory.get_set hw a b v).trans (if_neg (by omega)), rfl, rfl⟩

end

end Sys2Proof.Machine

namespace Sys2Proof.Proofs

/-- Settles O15, by induction on the number of bytes. -/
theorem memReadIsBigEndian : Obligations.MemReadIsBigEndian := by
  unfold Obligations.MemReadIsBigEndian
  exact Memory.read_eq_sum

/-- Settles O16, by the closed form of a byte after a wide write. -/
theorem memWriteIsBigEndian : Obligations.MemWriteIsBigEndian := by
  unfold Obligations.MemWriteIsBigEndian
  intro x addr n v hw _
  refine ⟨Memory.wf_write hw addr n v, fun j hj => ?_, fun a ha => Memory.get_write_outside hw ha v⟩
  rw [Memory.get_write hw, if_pos (by omega), Nat.add_sub_cancel_left]

/-- Settles O22: what `FST` accepts fits in its bytes, so the load gives it back, and it passes the range check of `FLD`. -/
theorem storedScalarLoadsBack : Obligations.StoredScalarLoadsBack := by
  unfold Obligations.StoredScalarLoadsBack
  intro s t m rs rd off hw h h0
  obtain ⟨hf, hr, rfl⟩ := execFst_completed h h0
  have hload : (s.store (effectiveAddress off) (s.cfg.dp.fieldLen m) (s.getF rs)).complete.load (effectiveAddress off)
      (s.cfg.dp.fieldLen m) = s.getF rs := load_store_self hw (lt_pow_fieldLen hr)
  refine ⟨_, execFld_done rd hf ?_, rfl, (State.setF_getF_self ..).trans hload⟩
  rintro ⟨rfl, hp⟩
  exact Nat.not_le.mpr hr (hp.trans_eq hload)

/-- Settles O23: the two coordinates lie in bytes that do not meet, so each loads back, and in range. -/
theorem storedPointLoadsBack : Obligations.StoredPointLoadsBack := by
  unfold Obligations.StoredPointLoadsBack
  intro s t rs rd off hw hin h h0
  obtain ⟨hf, x, y, hp, rfl⟩ := execPst_completed h h0
  rw [hp] at hin ⊢
  obtain ⟨hx, hy⟩ := (inRange_affine _ _ _).mp hin
  obtain ⟨hloadx, hloady⟩ := load_stored_pair hw (effectiveAddress off) (lt_pow_lp hx) (lt_pow_lp hy)
  refine ⟨_, execPld_done rd hf (hloadx.trans_lt hx) (hloady.trans_lt hy), rfl, (State.setP_getP_self ..).trans ?_⟩
  exact congrArg₂ PointValue.affine hloadx hloady

/-- Settles O56: each access on an idle block, below the end of the buffer and beyond it. -/
theorem hostAccessesToTheBuffer : Obligations.HostAccessesToTheBuffer := by
  unfold Obligations.HostAccessesToTheBuffer
  intro s a v rest hw hb
  refine ⟨fun ha he => ?_, hostRead_inside hb, fun ha he => ?_, hostRead_beyond hb⟩
  · have hget : (s.xb.set a v).get a = v := (Memory.get_set hw a a v).trans (if_pos rfl)
    have hread : State.hostRead { s.setEnv rest with xb := s.xb.set a v } a = .next ((s.xb.set a v).get a) :=
      hostRead_inside hb ha
    exact ⟨_, (step_eq_hostMove he).trans (hostWrite_inside v hb ha), hget, unchanged_setByte (s := s.setEnv rest) hw a v,
      rfl, rfl, hb, rfl, rfl, hread.trans (by rw [hget])⟩
  · exact (step_eq_hostMove he).trans (hostWrite_beyond v hb ha)

/-- Settles O57: each of the three accesses looks at `BUSY` first. -/
theorem accessesWhileBusyAreRefused : Obligations.AccessesWhileBusyAreRefused := by
  unfold Obligations.AccessesWhileBusyAreRefused
  intro s c rest hb
  have busy : s.isBusy = true := isBusy_of_some hb
  exact ⟨fun w he => (step_eq_hostMove he).trans (hostCommand_busy w busy),
    fun a v he => (step_eq_hostMove he).trans (hostWrite_busy a v busy), fun a => hostRead_busy a busy⟩

end Sys2Proof.Proofs
end

section
/-! SUPPORT. The encoding (30_encoding.md): the decoder accepts the words that match a row of the table and meet its constraints;
a command's word matches the command's row and holds its operands; what an illegal command does; and with these the statements
about the decoder and the encoder. -/

open Sys2Proof Sys2Proof.Machine

namespace Sys2Proof

/-! ### Legal words are rows of the table -/

/-- R48 steps 5 and 6. -/
theorem wellFormed_iff {d : DP} {i : Instr} :
    i.wellFormed d = true ↔ i.destinationsDiffer = true ∧ i.insideBuffer d = true := by
  rw [Instr.wellFormed, Bool.and_eq_true]

/-- The paragraph after R51: what the decoder accepts, by the mask and match columns of the table. -/
theorem decode_eq_ok_iff {d : DP} {w : Word} {i : Instr} :
    decode d w = .ok i ↔ ∃ op : Op, w &&& op.mask = op.pattern ∧ op.build (split w) = i ∧ i.wellFormed d = true := by
  constructor
  · intro h
    obtain ⟨op, hopc, h3, h4, rfl, h5, h6⟩ := decode_eq_ok h
    exact ⟨op, (table_iff w op).mpr ⟨(opc_of_ofOpc hopc).symm, h3, h4⟩, rfl, wellFormed_iff.mpr ⟨h5, h6⟩⟩
  · rintro ⟨op, hm, rfl, hwf⟩
    obtain ⟨hopc, h3, h4⟩ := (table_iff w op).mp hm
    obtain ⟨h5, h6⟩ := wellFormed_iff.mp hwf
    exact decode_of_steps hopc h3 h4 h5 h6

/-- R49: an opcode byte belongs to one row. -/
theorem opc_injective {op op' : Op} (h : op.opc = op'.opc) : op = op' :=
  Option.some.inj <| calc
    some op = Op.ofOpc op.opc := (ofOpc_opc op).symm
    _ = Op.ofOpc op'.opc := congrArg Op.ofOpc h
    _ = some op' := ofOpc_opc op'

/-! ### The word of a row's command -/

/-- A register field as the encoder writes it back: the index it holds in the file of its cell, zero in an unused field. -/
def Cell.keep : Cell → BitVec 4 → BitVec 4
  | .f, b => indexField (fIndex b)
  | .pt, b => indexField (pIndex b)
  | .zero, _ => 0
  | .absent, b => b

@[simp] theorem Cell.clear_keep (c : Cell) (b : BitVec 4) : c.clear (c.keep b) = true := by cases c <;> rfl

@[simp] theorem Cell.inRange_keep (c : Cell) (b : BitVec 4) : c.inRange (c.keep b) = true := by
  cases c with
  | f => exact f_inRange_indexField (fIndex b)
  | pt => exact pt_inRange_indexField (pIndex b)
  | zero => rfl
  | absent => rfl

/-- R48 steps 3 and 4: nothing is lost of a field that passes them. -/
theorem Cell.keep_eq {c : Cell} {b : BitVec 4} (h3 : c.clear b = true) (h4 : c.inRange b = true) : c.keep b = b := by
  cases c with
  | f => exact indexField_fIndex (of_decide_eq_true h4)
  | pt => exact indexField_pIndex (of_decide_eq_true h4)
  | zero => exact ((Cell.clear_zero b).mp h3).symm
  | absent => rfl

/-- The word of a row with the operands that the fields `x` hold (R46, R47). -/
def Op.pack (op : Op) (x : Fields) : Word :=
  match op.row.fmt with
  | .r => packR op.opc (op.row.mAny && x.m) (op.row.rd.keep x.rd) (op.row.ra.keep x.ra) (op.row.rb.keep x.rb)
      (op.row.rc.keep x.rc)
  | .b => packB op.opc (op.row.mAny && x.m) (op.row.rd.keep x.rd) x.off

theorem pack_of_fmt_r {op : Op} (hf : op.row.fmt = .r) (x : Fields) :
    op.pack x = packR op.opc (op.row.mAny && x.m) (op.row.rd.keep x.rd) (op.row.ra.keep x.ra) (op.row.rb.keep x.rb)
      (op.row.rc.keep x.rc) := by rw [Op.pack, hf]

theorem pack_of_fmt_b {op : Op} (hf : op.row.fmt = .b) (x : Fields) :
    op.pack x = packB op.opc (op.row.mAny && x.m) (op.row.rd.keep x.rd) x.off := by rw [Op.pack, hf]

/-- The encoder reads the same rows as the decoder (R49). -/
theorem encode_build (op : Op) (x : Fields) : encode (op.build x) = op.pack x := by
  cases op <;> simp only [Op.build, encode, bit_modulusOf] <;> rfl

/-- R47: format B has no field but `RD` and `OFF`. -/
theorem cells_absent_of_fmt_b {op : Op} (hf : op.row.fmt = .b) :
    op.row.ra = .absent ∧ op.row.rb = .absent ∧ op.row.rc = .absent := by
  revert hf; cases op <;> decide

/-- The fields of a format-B word; the bits of `OFF` stand where format R has its fields below `RD` (R46, R47). -/
theorem split_packB_eq (opc : BitVec 8) (m : Bool) (rd : BitVec 4) (off : Offset) :
    split (packB opc m rd off) =
      { opc := opc, m := m, rsv := 0, rd := rd, off := off
        ra := (packB opc m rd off).extractLsb' 12 4
        rb := (packB opc m rd off).extractLsb' 8 4
        rc := (packB opc m rd off).extractLsb' 4 4
        z := (packB opc m rd off).extractLsb' 0 4 } := by
  obtain ⟨hopc, hm, hrsv, hrd, hoff⟩ := split_packB opc m rd off
  exact (Fields.mk.injEq ..).mpr ⟨hopc, hm, hrsv, hrd, rfl, rfl, rfl, rfl, hoff⟩

/-- Whatever the operands, the word matches its row. -/
theorem pack_matches (op : Op) (x : Fields) : op.pack x &&& op.mask = op.pattern := by
  have hm : op.row.mAny = true ∨ op.row.mAny = false ∨ x.m = false := by cases op.row.mAny <;> simp
  rw [table_iff]
  cases hf : op.row.fmt with
  | r =>
    rw [pack_of_fmt_r hf, split_packR]
    simp [OpRow.fieldsClear, OpRow.indicesInRange, hm]
  | b =>
    obtain ⟨ha, hb, hc⟩ := cells_absent_of_fmt_b hf
    rw [pack_of_fmt_b hf, split_packB_eq]
    simp [OpRow.fieldsClear, OpRow.indicesInRange, hm, hf, ha, hb, hc]

/-- A word that matches a row is the word of the row with its own fields. -/
theorem pack_split {op : Op} {w : Word} (h : w &&& op.mask = op.pattern) : op.pack (split w) = w := by
  obtain ⟨hopc, h3, h4⟩ := (table_iff w op).mp h
  simp only [OpRow.fieldsClear, OpRow.indicesInRange, Bool.and_eq_true, Bool.or_eq_true, Bool.not_eq_true', beq_iff_eq] at h3 h4
  obtain ⟨⟨⟨⟨⟨⟨hrsv, hz⟩, hm⟩, hrd⟩, hra⟩, hrb⟩, hrc⟩ := h3
  obtain ⟨⟨⟨hrd', hra'⟩, hrb'⟩, hrc'⟩ := h4
  have hmod : (op.row.mAny && (split w).m) = (split w).m := by
    rcases hm with hm | hm
    · rw [hm, Bool.true_and]
    · rw [hm, Bool.and_false]
  cases hf : op.row.fmt with
  | r =>
    rw [pack_of_fmt_r hf, hmod, Cell.keep_eq hrd hrd', Cell.keep_eq hra hra', Cell.keep_eq hrb hrb',
      Cell.keep_eq hrc hrc', ← hopc]
    exact packR_split w hrsv (hz.resolve_left fun hb => nomatch hf.symm.trans hb)
  | b =>
    rw [pack_of_fmt_b hf, hmod, Cell.keep_eq hrd hrd', ← hopc]
    exact packB_split w hrsv

/-- Every operand comes back from the field it was put in (R46, R47, R52). -/
theorem build_split_encode (i : Instr) : i.op.build (split (encode i)) = i := by
  cases i <;>
    simp only [encode, Instr.op, Op.build, split_packR, split_packB_eq, modulusOf_bit, fIndex_indexField, pIndex_indexField]

/-- The word of a command matches the command's row. -/
theorem encode_matches (i : Instr) : encode i &&& i.op.mask = i.op.pattern := by
  have h : encode i = i.op.pack (split (encode i)) := by rw [← encode_build, build_split_encode]
  rw [h]
  exact pack_matches ..

/-- R48 step 2, R51: an opcode that is none of the 21 is illegal. -/
theorem decode_ne_ok_of_unassigned {d : DP} {w : Word} (h : ∀ op : Op, op.opc ≠ (split w).opc) (i : Instr) :
    decode d w ≠ .ok i := by
  intro hd
  obtain ⟨op, hm, -⟩ := decode_eq_ok_iff.mp hd
  exact h op ((table_iff w op).mp hm).1.symm

end Sys2Proof

namespace Sys2Proof.Machine

/-! ### What an illegal command does -/

/-- R48: a word that is no legal command, written to an idle block. -/
theorem hostMove_illegal {s : State} {w : Word} (idle : s.busy = none) (bad : ∀ i, decode s.cfg.dp w ≠ .ok i) :
    hostMove (.cmd w) s = .next (s.raise false .illegalCommand) := by
  rw [hostMove, hostCommand, if_neg (isBusy_eq_false.mpr idle), runWord]
  cases hd : decode s.cfg.dp w with
  | ok i => exact absurd hd (bad i)
  | error e => rfl

/-- R48 step 5, of a term. -/
theorem exec_of_same_destinations {i : Instr} (h : i.destinationsDiffer = false) (s : State) :
    exec i s = .next (s.raise false .illegalCommand) := by
  cases i
  case sign rr rs re rd =>
    obtain rfl : rr = rs := not_not.mp (of_decide_eq_false h)
    exact exec_sign_same ..
  all_goals cases h

/-- R48 step 6, of a term. -/
theorem exec_of_outside_buffer {i : Instr} {s : State} (h : i.insideBuffer s.cfg.dp = false) :
    exec i s = .next (s.raise false .illegalCommand) := by
  cases i
  case fld m rd off => exact execFld_misfit rd h
  case fst m rs off => exact execFst_misfit rs h
  case pld rd off => exact execPld_misfit rd h
  case pst rs off => exact execPst_misfit rs h
  all_goals cases h

end Sys2Proof.Machine

namespace Sys2Proof.Proofs

/-- Settles O1: the word of a command matches the command's row, and every operand comes back from its field. -/
theorem decodeEncode : Obligations.DecodeEncode := by
  unfold Obligations.DecodeEncode
  intro d i hwf
  exact decode_eq_ok_iff.mpr ⟨i.op, encode_matches i, build_split_encode i, hwf⟩

/-- Settles O2: the word of what a row reads from a word is that row with the word's own fields. -/
theorem encodeDecode : Obligations.EncodeDecode := by
  unfold Obligations.EncodeDecode
  intro d w i h
  obtain ⟨op, hm, rfl, hwf⟩ := decode_eq_ok_iff.mp h
  exact ⟨(encode_build op (split w)).trans (pack_split hm), hwf⟩

/-- Settles O3: the decoder accepts by row, and a row is told by its opcode. -/
theorem legalWordsMatchTheTable : Obligations.LegalWordsMatchTheTable := by
  unfold Obligations.LegalWordsMatchTheTable
  refine fun d w => ⟨⟨?_, ?_⟩, fun op op' h h' => ?_⟩
  · rintro ⟨i, hi⟩
    obtain ⟨op, hm, rfl, hwf⟩ := decode_eq_ok_iff.mp hi
    exact ⟨op, hm, hwf⟩
  · rintro ⟨op, hm, hwf⟩
    exact ⟨_, decode_eq_ok_iff.mpr ⟨op, hm, rfl, hwf⟩⟩
  · obtain ⟨hopc, -⟩ := (table_iff w op).mp h
    obtain ⟨hopc', -⟩ := (table_iff w op').mp h'
    exact opc_injective (hopc.symm.trans hopc')

/-- Settles O5: the write of such a word raises, and a word is told by its opcode first. -/
theorem illegalWordOnlyWritesErr : Obligations.IllegalWordOnlyWritesErr := by
  unfold Obligations.IllegalWordOnlyWritesErr
  refine ⟨fun s w rest hb he bad => ?_, fun d w h => decode_ne_ok_of_unassigned h⟩
  exact ⟨_, (step_eq_hostMove he).trans (hostMove_illegal hb bad), ended_raise _ _ _, unchanged_raise _ _ _, rfl, rfl⟩

/-- Settles O6: of steps 5 and 6 of R48 one fails, and the command's meaning makes the same test. -/
theorem illFormedTermsAreIllegalCommands : Obligations.IllFormedTermsAreIllegalCommands := by
  unfold Obligations.IllFormedTermsAreIllegalCommands
  intro i s h
  rcases Bool.and_eq_false_iff.mp h with h5 | h6
  · exact raises_of_exec (exec_of_same_destinations h5 s)
  · exact raises_of_exec (exec_of_outside_buffer h6)

end Sys2Proof.Proofs
end

section
/-! SUPPORT. The field adder (40_field_add.md): the case forms of its sums and differences, its range errors, what a command that
writes one value ends in, and with these the statements about `FADD`, `FSUB`, `FNEG` and `FEQ`. -/

open Sys2Proof Sys2Proof.Machine

namespace Sys2Proof.Machine

/-! ### The case forms of R56 to R58 -/

/-- Below twice the modulus one subtraction reduces. -/
theorem mod_eq_ite_of_lt_two_mul {m x : Nat} (h : x < 2 * m) : x % m = if x < m then x else x - m := by
  split
  next hx => exact Nat.mod_eq_of_lt hx
  next hx => rw [Nat.mod_eq_sub_mod (Nat.not_lt.mp hx), Nat.mod_eq_of_lt (by omega)]

theorem add_mod_cases {m a b : Nat} (ha : a < m) (hb : b < m) : (a + b) % m = if a + b < m then a + b else a + b - m :=
  mod_eq_ite_of_lt_two_mul (by omega)

theorem sub_mod_cases {m a b : Nat} (ha : a < m) (hb : b < m) :
    (a + m - b) % m = if b ≤ a then a - b else a + m - b := by
  rw [mod_eq_ite_of_lt_two_mul (by omega)]
  split_ifs <;> omega

theorem neg_mod_cases {m a : Nat} (ha : a < m) : (m - a) % m = if a = 0 then 0 else m - a := by
  rw [mod_eq_ite_of_lt_two_mul (by omega)]
  split_ifs <;> omega

/-- R58: the negation is the one additive inverse. -/
theorem fadd_eq_zero_iff {m a r : Nat} (ha : a < m) (hr : r < m) : fadd m a r = .ok 0 ↔ r = (m - a) % m := by
  rw [fadd_of_lt ha hr, Except.ok.injEq, add_mod_cases ha hr, neg_mod_cases ha]
  split_ifs <;> omega

/-! ### The range errors of R56 to R59 -/

theorem fadd_of_outOfRange {m a b : Nat} (h : m ≤ a ∨ m ≤ b) : fadd m a b = .error .outOfRangeInput := if_pos h

theorem fsub_of_outOfRange {m a b : Nat} (h : m ≤ a ∨ m ≤ b) : fsub m a b = .error .outOfRangeInput := if_pos h

theorem fneg_of_outOfRange {m a : Nat} (h : m ≤ a) : fneg m a = .error .outOfRangeInput := if_pos h

theorem feq_of_outOfRange {m a b : Nat} (h : m ≤ a ∨ m ≤ b) : feq m a b = .error .outOfRangeInput := if_pos h

/-! ### A command that writes the value of one function -/

section
variable {α : Type} {i : Instr} {s : State} {pred : Bool}

/-- R114: the function answers an error, and nothing is written. -/
theorem raises_of_bind {x : Except ErrorKind α} {write : α → Except ErrorKind State} {e : ErrorKind}
    (h : exec i s = finish pred s (x >>= write)) (hx : x = .error e) : Raises i s pred e :=
  raises_of_exec (by rw [h, hx, error_bind, finish_error])

theorem completes_setF {x : Except ErrorKind Nat} {rd : FReg} {v : Nat}
    (h : exec i s = finish pred s (x >>= fun v => .ok (s.setF rd v))) (hx : x = .ok v) :
    ∃ t, Completes i s t [rd] [] 0 0 ∧ t.getF rd = v :=
  ⟨_, completes_of (by rw [h, hx, ok_bind]) (unchanged_setF s rd v [] 0 0) rfl rfl, State.setF_getF_self ..⟩

theorem answers_setT {x : Except ErrorKind Bool} {b : Bool}
    (h : exec i s = finish pred s (x >>= fun b => .ok (s.setT b))) (hx : x = .ok b) : Answers i s b :=
  answers_of (by rw [h, hx, ok_bind])

end

/-! ### The commands -/

section
variable (s : State) (m : Modulus) (rd ra rb : FReg)

theorem exec_fadd : exec (.fadd m rd ra rb) s =
    finish false s (fadd (s.modulus m) (s.getF ra) (s.getF rb) >>= fun v => .ok (s.setF rd v)) := rfl

theorem exec_fsub : exec (.fsub m rd ra rb) s =
    finish false s (fsub (s.modulus m) (s.getF ra) (s.getF rb) >>= fun v => .ok (s.setF rd v)) := rfl

theorem exec_fneg : exec (.fneg m rd ra) s =
    finish false s (fneg (s.modulus m) (s.getF ra) >>= fun v => .ok (s.setF rd v)) := rfl

theorem exec_feq : exec (.feq m ra rb) s =
    finish true s (feq (s.modulus m) (s.getF ra) (s.getF rb) >>= fun b => .ok (s.setT b)) := rfl

end

end Sys2Proof.Machine

namespace Sys2Proof.Proofs

/-- Settles O7: the word is the encoding of the command, and `fadd` answers by range. -/
theorem faddResult : Obligations.FaddResult := by
  unfold Obligations.FaddResult
  intro s m rd ra rb
  have hexec := exec_fadd s m rd ra rb
  refine ⟨fun d => decodeEncode d (.fadd m rd ra rb) rfl, fun ha hb => ?_, fun h => ?_⟩
  · exact completes_setF hexec (fadd_of_lt ha hb)
  · exact raises_of_bind hexec (fadd_of_outOfRange h)

/-- Settles O8, by the case form of `fsub`. -/
theorem fsubResult : Obligations.FsubResult := by
  unfold Obligations.FsubResult
  intro s m rd ra rb
  have hexec := exec_fsub s m rd ra rb
  refine ⟨fun d => decodeEncode d (.fsub m rd ra rb) rfl, fun ha hb => ?_, fun h => ?_⟩
  · rw [← sub_mod_cases ha hb]
    exact completes_setF hexec (fsub_of_lt ha hb)
  · exact raises_of_bind hexec (fsub_of_outOfRange h)

/-- Settles O9, by the case form of `fneg`. -/
theorem fnegResult : Obligations.FnegResult := by
  unfold Obligations.FnegResult
  intro s m rd ra
  have hexec := exec_fneg s m rd ra
  refine ⟨fun d => decodeEncode d (.fneg m rd ra) rfl, fun ha => ?_, fun h => ?_⟩
  · rw [← neg_mod_cases ha]
    exact completes_setF hexec (fneg_of_lt ha)
  · exact raises_of_bind hexec (fneg_of_outOfRange h)

/-- Settles O10: the answer goes to `T`, and an error clears it because `FEQ` is a predicate. -/
theorem feqResult : Obligations.FeqResult := by
  unfold Obligations.FeqResult
  intro s m ra rb
  have hexec := exec_feq s m ra rb
  refine ⟨fun d => decodeEncode d (.feq m ra rb) rfl, fun ha hb => ?_, fun h => ?_⟩
  · exact answers_setT hexec (feq_of_lt ha hb)
  · exact raises_of_bind hexec (feq_of_outOfRange h)

/-- Settles O13: each function by range, and the case forms, which hold because one subtraction reduces. -/
theorem fieldAdderFunctions : Obligations.FieldAdderFunctions := by
  unfold Obligations.FieldAdderFunctions
  intro m a b
  refine ⟨fun h => ⟨fadd_of_outOfRange h, fsub_of_outOfRange h, feq_of_outOfRange h⟩, fneg_of_outOfRange, fun ha hb => ?_, fun ha => ?_⟩
  · exact ⟨fadd_of_lt ha hb, add_mod_cases ha hb, fsub_of_lt ha hb, sub_mod_cases ha hb, feq_of_lt ha hb⟩
  · exact ⟨fneg_of_lt ha, neg_mod_cases ha, Nat.mod_lt _ (by omega), fun r hr => fadd_eq_zero_iff ha hr⟩

end Sys2Proof.Proofs
end

section
/-! SUPPORT. The field multiplier (41_field_mul.md): its range error, and with it the statement about `FMUL`. -/

open Sys2Proof Sys2Proof.Machine

namespace Sys2Proof.Machine

/-- R66. -/
theorem fmul_of_outOfRange {m a b : Nat} (h : m ≤ a ∨ m ≤ b) : fmul m a b = .error .outOfRangeInput := if_pos h

theorem exec_fmul (s : State) (m : Modulus) (rd ra rb : FReg) : exec (.fmul m rd ra rb) s =
    finish false s (fmul (s.modulus m) (s.getF ra) (s.getF rb) >>= fun v => .ok (s.setF rd v)) := rfl

end Sys2Proof.Machine

namespace Sys2Proof.Proofs

/-- Settles O11: the word is the encoding of the command, and `fmul` answers by range with the exact product reduced. -/
theorem fmulResult : Obligations.FmulResult := by
  unfold Obligations.FmulResult
  intro s m rd ra rb
  have hexec := exec_fmul s m rd ra rb
  refine ⟨fun d => decodeEncode d (.fmul m rd ra rb) rfl, fun ha hb => ?_, fun h => ?_⟩
  · exact completes_setF hexec (fmul_of_lt ha hb)
  · exact raises_of_bind hexec (fmul_of_outOfRange h)

end Sys2Proof.Proofs
end

section
/-! SUPPORT. The field inverter (42_field_inv.md): its two errors in their order, that an inverse is unique, and with these the
statements about `FINV` and `finv`. -/

open Sys2Proof Sys2Proof.Machine

namespace Sys2Proof.Machine

/-- R69: the range is tested first. -/
theorem finv_of_outOfRange {m a : Nat} (h : m ≤ a) : finv m a = .error .outOfRangeInput := if_pos h

/-- R69: zero in range; the modulus is not 0, or the range test would have failed. -/
theorem finv_zero {m : Nat} (hm : 0 < m) : finv m 0 = .error .notInvertible := (if_neg (Nat.not_le.mpr hm)).trans (if_pos rfl)

theorem exec_finv (s : State) (m : Modulus) (rd ra : FReg) : exec (.finv m rd ra) s =
    finish false s (finv (s.modulus m) (s.getF ra) >>= fun v => .ok (s.setF rd v)) := rfl

/-- R5: both moduli are prime. -/
theorem modulus_prime {d : DP} (hd : d.Valid) (m : Modulus) : (d.modulus m).Prime := by
  cases m with
  | p => exact hd.primeP
  | n => exact hd.primeN

/-- A nonzero number below a prime can be cancelled, so it has at most one inverse. -/
theorem mul_mod_injective {m a r r' : Nat} (hm : m.Prime) (ha : a < m) (h0 : a ≠ 0) (hr : r < m) (hr' : r' < m)
    (h : a * r % m = a * r' % m) : r = r' :=
  Nat.ModEq.eq_of_lt_of_lt (Nat.ModEq.cancel_left_of_coprime (Nat.coprime_of_lt_prime h0 ha hm) h) hr hr'

end Sys2Proof.Machine

namespace Sys2Proof.Proofs

/-- Settles O12: the word is the encoding of the command, `finv` answers by range and then by zero, and what it answers is the
closed form of R69. -/
theorem finvResult : Obligations.FinvResult := by
  unfold Obligations.FinvResult
  intro s m rd ra
  have hexec := exec_finv s m rd ra
  refine ⟨fun d => decodeEncode d (.finv m rd ra) rfl, fun ha h0 => ?_, fun h => ?_, fun ha h0 => ?_⟩
  · rw [← powMod_eq]
    exact completes_setF hexec (finv_of_lt ha h0)
  · exact raises_of_bind hexec (finv_of_outOfRange h)
  · rw [h0] at hexec ha
    exact raises_of_bind hexec (finv_zero ha)

/-- Settles O14: the Fermat power is an inverse because the modulus is prime, 0 is none, and a second one would cancel. -/
theorem finvIsTheInverse : Obligations.FinvIsTheInverse := by
  unfold Obligations.FinvIsTheInverse
  intro d m a hd ha h0
  have hp := modulus_prime hd m
  have hinv := mul_powMod_eq_one hp ha h0
  have hlt : powMod (d.modulus m) a (d.modulus m - 2) < d.modulus m := powMod_lt hp.pos a _
  refine ⟨_, finv_of_lt ha h0, Nat.one_le_iff_ne_zero.mpr fun hz => ?_, hlt, hinv, fun r' hr' h => ?_⟩
  · simp [hz] at hinv
  · exact mul_mod_injective hp ha h0 hr' hlt (h.trans hinv.symm)

end Sys2Proof.Proofs
end

section
/-! SUPPORT. The transfers (43_transfer.md): which words of format B are commands, the bytes of a wide store one by one, and with
these the statements about `FLD`, `FST`, `PLD`, `PST` and `WIPE`. -/

open Sys2Proof Sys2Proof.Machine

namespace Sys2Proof

/-! ### Which words are legal transfers -/

/-- R48, R51: a command's word can decode to that command only, and does so exactly when the command is legal. -/
theorem decode_encode_iff {d : DP} {i j : Instr} : decode d (encode i) = .ok j ↔ j = i ∧ i.wellFormed d = true := by
  constructor
  · intro h
    obtain ⟨op, hm, rfl, hwf⟩ := decode_eq_ok_iff.mp h
    obtain rfl : op = i.op := (Proofs.legalWordsMatchTheTable d (encode i)).2 op i.op hm (encode_matches i)
    rw [build_split_encode] at hwf ⊢
    exact ⟨rfl, hwf⟩
  · rintro ⟨rfl, hwf⟩
    exact Proofs.decodeEncode d j hwf

/-- R48 step 6, of a word. -/
theorem decode_encode_ne_ok {d : DP} {i : Instr} (h : i.insideBuffer d = false) (j : Instr) : decode d (encode i) ≠ .ok j := by
  intro hd
  obtain ⟨-, hwf⟩ := decode_encode_iff.mp hd
  obtain ⟨-, h6⟩ := wellFormed_iff.mp hwf
  exact Bool.false_ne_true (h.symm.trans h6)

/-- R48 steps 3 and 4, of a word of format B: `M = 1` where the row wants 0, or an index beyond its file. -/
theorem decode_packB_ne_ok {d : DP} {op : Op} {m : Bool} {b : BitVec 4} {off : Offset}
    (h : op.row.mAny = false ∧ m = true ∨ op.row.rd.inRange b = false) (i : Instr) :
    decode d (packB op.opc m b off) ≠ .ok i := by
  intro hd
  obtain ⟨op', hopc, h3, h4, -⟩ := decode_eq_ok hd
  rw [split_packB_eq] at hopc h3 h4
  obtain rfl : op = op' := Option.some.inj ((ofOpc_opc op).symm.trans hopc)
  rcases h with ⟨hany, rfl⟩ | hrd
  · simp [OpRow.fieldsClear, hany] at h3
  · simp [OpRow.indicesInRange, hrd] at h4

/-- R39: a transfer that reaches beyond the buffer. -/
theorem fits_eq_false {d : DP} {off : Offset} {len : Nat} (h : d.xbSize < off.toNat + len) : d.fits off len = false :=
  decide_eq_false (Nat.not_le.mpr h)

/-- R50. -/
theorem f_inRange_eq_false {b : BitVec 4} (h : 7 < b.toNat) : Cell.f.inRange b = false := decide_eq_false (Nat.not_lt.mpr h)

/-- R50. -/
theorem pt_inRange_eq_false {b : BitVec 4} (h : 3 < b.toNat) : Cell.pt.inRange b = false := decide_eq_false (Nat.not_lt.mpr h)

end Sys2Proof

namespace Sys2Proof.Machine

/-! ### The bytes that a store writes -/

/-- R37: the most significant byte stands at the lowest address. -/
theorem Memory.get_write_inside {x : Memory} (hw : x.wf = true) (addr v : Nat) {n j : Nat} (hj : j < n) :
    (x.write addr n v).get (addr + j) = BitVec.ofNat 8 (v / 256 ^ (n - 1 - j) % 256) := by
  rw [Memory.get_write hw, if_pos (by omega), Nat.add_sub_cancel_left]

/-- R38: of a pair stored one above the other, the upper store leaves the bytes of the lower one. -/
theorem get_stored_pair_lower {s : State} (hw : s.xb.wf = true) (addr x y : Nat) {n j : Nat} (hj : j < n) :
    ((s.store addr n x).store (addr + n) n y).xb.get (addr + j) = BitVec.ofNat 8 (x / 256 ^ (n - 1 - j) % 256) :=
  (Memory.get_write_outside (Memory.wf_write hw addr n x) (.inl (by omega)) y).trans (Memory.get_write_inside hw addr x hj)

end Sys2Proof.Machine

namespace Sys2Proof.Proofs

/-- Settles O17: the word is that of the command, which is legal by its fields; the load is checked for `M = 0` only. -/
theorem fldResult : Obligations.FldResult := by
  unfold Obligations.FldResult
  intro s m rd off
  refine ⟨fun d h => decodeEncode d (.fld m rd off) (decide_eq_true h), fun d h => ?_, fun d b hb => ?_, fun h hp => ?_,
    fun h hm hp => ?_⟩
  · exact decode_encode_ne_ok (i := .fld m rd off) (fits_eq_false h)
  · exact decode_packB_ne_ok (op := .fld) (.inr (f_inRange_eq_false hb))
  · have hr : ¬ (m = .p ∧ s.cfg.dp.p ≤ s.load (effectiveAddress off) (s.cfg.dp.fieldLen m)) := by
      rintro ⟨rfl, hge⟩
      exact Nat.not_lt.mpr hge (hp rfl)
    exact ⟨_, completes_of (pred := false) (execFld_done rd (fits_iff.mpr h) hr) (unchanged_setF ..) rfl rfl,
      State.setF_getF_self ..⟩
  · subst hm
    exact raises_of_exec (execFld_range rd (fits_iff.mpr h) ⟨rfl, hp⟩)

/-- Settles O18: as for `FLD`, and a store in range changes its own bytes, each by the closed form of R37. -/
theorem fstResult : Obligations.FstResult := by
  unfold Obligations.FstResult
  intro s m rs off hw
  refine ⟨fun d h => decodeEncode d (.fst m rs off) (decide_eq_true h), fun d h => ?_, fun d b hb => ?_, fun h hr => ?_,
    fun h hr => ?_⟩
  · exact decode_encode_ne_ok (i := .fst m rs off) (fits_eq_false h)
  · exact decode_packB_ne_ok (op := .fst) (.inr (f_inRange_eq_false hb))
  · exact ⟨_, completes_of (pred := false) (execFst_done rs (fits_iff.mpr h) hr) (unchanged_store hw ..) rfl rfl,
      fun j hj => Memory.get_write_inside hw _ _ hj⟩
  · exact raises_of_exec (execFst_range rs (fits_iff.mpr h) hr)

/-- Settles O19: `M = 1` is illegal too, and the only test of the pair is that both coordinates are below `p`. -/
theorem pldResult : Obligations.PldResult := by
  unfold Obligations.PldResult
  intro s rd off
  refine ⟨fun d h => decodeEncode d (.pld rd off) (decide_eq_true h), fun d h => ?_, fun d m b hb => ?_, fun h hx hy => ?_,
    fun h hr => ?_⟩
  · exact decode_encode_ne_ok (i := .pld rd off) (fits_eq_false h)
  · exact decode_packB_ne_ok (op := .pld) (hb.imp (⟨rfl, ·⟩) pt_inRange_eq_false)
  · exact ⟨_, completes_of (pred := false) (execPld_done rd (fits_iff.mpr h) hx hy) (unchanged_setP ..) rfl rfl,
      State.setP_getP_self ..⟩
  · exact raises_of_exec (execPld_range rd (fits_iff.mpr h) hr)

/-- Settles O20: the register's tag decides; `y` is stored above `x`, whose bytes it leaves alone. -/
theorem pstResult : Obligations.PstResult := by
  unfold Obligations.PstResult
  intro s rs off hw
  refine ⟨fun d h => decodeEncode d (.pst rs off) (decide_eq_true h), fun d h => ?_, fun d m b hb => ?_, fun x y h hp => ?_,
    fun h hp => ?_⟩
  · exact decode_encode_ne_ok (i := .pst rs off) (fits_eq_false h)
  · exact decode_packB_ne_ok (op := .pst) (hb.imp (⟨rfl, ·⟩) pt_inRange_eq_false)
  · exact ⟨_, completes_of (pred := false) (execPst_done (fits_iff.mpr h) hp) (unchanged_store_store hw ..) rfl rfl,
      fun j hj => get_stored_pair_lower hw _ _ _ hj,
      fun j hj => Memory.get_write_inside (Memory.wf_write hw ..) _ _ hj⟩
  · exact raises_of_exec (execPst_infinity (fits_iff.mpr h) hp)

/-- Settles O21: every index has a word, and the one write is that of the register. -/
theorem wipeResult : Obligations.WipeResult := by
  unfold Obligations.WipeResult
  intro s rd
  have hexec : exec (.wipe rd) s = finish false s (.ok (s.setF rd 0)) := rfl
  exact ⟨fun d => decodeEncode d (.wipe rd) rfl, _, completes_of hexec (unchanged_setF ..) rfl rfl, State.setF_getF_self ..⟩

end Sys2Proof.Proofs
end

section
/-! SUPPORT. Points (44_point_basic.md): when the point functions answer, that they keep to the curve because they compute the group
law, and that addition commutes also off the curve; and with these the statements about the functions and the commands `PINF`,
`PISINF`, `PONC`, `PNEG`. -/

open Sys2Proof Sys2Proof.Machine

namespace Sys2Proof.Machine

/-! ### The curve test and negation -/

section
variable {d : DP} {v : PointValue}

/-- R77: on reduced coordinates the test has no error. -/
theorem onCurve_total (hd : d.Valid) (hv : v.inRange d.p = true) : ∃ b, onCurve d v = .ok b := by
  cases v with
  | infinity => exact ⟨true, rfl⟩
  | affine x y =>
    obtain ⟨hx, hy⟩ := (inRange_affine _ _ _).mp hv
    exact ⟨_, onCurve_affine hd.aLt hd.bLt hx hy⟩

/-- R78: 0 is its own negative. -/
theorem pneg_affine (x : Nat) {y : Nat} (hy : y < d.p) :
    pneg d (.affine x y) = .ok (.affine x (if y = 0 then 0 else d.p - y)) := by
  rw [pneg, fneg_of_lt hy, neg_mod_cases hy, ok_bind]

theorem pneg_total (hv : v.inRange d.p = true) : ∃ u, pneg d v = .ok u := by
  cases v with
  | infinity => exact ⟨.infinity, rfl⟩
  | affine x y =>
    obtain ⟨-, hy⟩ := (inRange_affine _ _ _).mp hv
    exact ⟨_, pneg_affine x hy⟩

end

/-! ### The point functions keep to the curve -/

/-- The answer of a function that computes the group law. -/
theorem onCurve_of_denotes {d : DP} [Fact d.p.Prime] (hd : d.Valid) {x : Except ErrorKind PointValue} {u : PointValue}
    {P : (curve d).Point} (h : x = .ok u) (hx : ∃ u', x = .ok u' ∧ Denotes d u' P) : onCurve d u = .ok true := by
  obtain ⟨u', hu', hP⟩ := hx
  cases h.symm.trans hu'
  exact hP.onCurve hd

section
variable {d : DP} {v w u : PointValue} (hd : d.Valid) (hv : v.inRange d.p = true) (hv' : onCurve d v = .ok true)
include hd hv hv'

theorem pneg_onCurve (h : pneg d v = .ok u) : onCurve d u = .ok true := by
  have := Fact.mk hd.primeP
  obtain ⟨P, hP⟩ := denotes_of_onCurve hd hv hv'
  exact onCurve_of_denotes hd h (pneg_denotes hP)

theorem pdbl_onCurve (h : pdbl d v = .ok u) : onCurve d u = .ok true := by
  have := Fact.mk hd.primeP
  obtain ⟨P, hP⟩ := denotes_of_onCurve hd hv hv'
  exact onCurve_of_denotes hd h (pdbl_denotes hd hP)

theorem padd_onCurve (hw : w.inRange d.p = true) (hw' : onCurve d w = .ok true) (h : padd d v w = .ok u) :
    onCurve d u = .ok true := by
  have := Fact.mk hd.primeP
  obtain ⟨P, hP⟩ := denotes_of_onCurve hd hv hv'
  obtain ⟨Q, hQ⟩ := denotes_of_onCurve hd hw hw'
  exact onCurve_of_denotes hd h (padd_denotes hd hP hQ)

end

/-! ### Addition commutes, on or off the curve -/

/-- R87 case 3. -/
theorem padd_of_y_ne (d : DP) (x : Nat) {y1 y2 : Nat} (h : y1 ≠ y2) : padd d (.affine x y1) (.affine x y2) = .ok .infinity :=
  if_pos ⟨rfl, h⟩

section
variable {d : DP} {x1 y1 x2 y2 : Nat} (hx1 : x1 < d.p) (hy1 : y1 < d.p) (hx2 : x2 < d.p) (hy2 : y2 < d.p) (hne : x1 ≠ x2)

include hx1 hx2 in
theorem cast_addX : (addX d x1 y1 x2 y2 : ZMod d.p) = (addLam d x1 y1 x2 y2 : ZMod d.p) ^ 2 - x1 - x2 := by
  rw [addX, cast_subMod hx2, cast_subMod hx1, cast_mod, Nat.cast_mul, pow_two]

include hy1 in
theorem cast_addY : (addY d x1 y1 x2 y2 : ZMod d.p) =
    (addLam d x1 y1 x2 y2 : ZMod d.p) * ((x1 : ZMod d.p) - addX d x1 y1 x2 y2) - y1 := by
  have hX : addX d x1 y1 x2 y2 < d.p := Nat.mod_lt _ (by omega)
  rw [addY, cast_subMod hy1, cast_mod, Nat.cast_mul, cast_subMod hX]

variable [Fact d.p.Prime]

include hx1 hy1 hx2 hne in
/-- R87 case 5: the slope of the chord. -/
theorem cast_addLam : (addLam d x1 y1 x2 y2 : ZMod d.p) = ((y2 : ZMod d.p) - y1) / ((x2 : ZMod d.p) - x1) := by
  have hden := diff_mod_ne_zero hx1 hx2 hne
  rw [addLam, cast_mod, Nat.cast_mul, cast_powMod (Nat.mod_lt _ (by omega)) hden, cast_subMod hy1, cast_subMod hx1, div_eq_mul_inv]

include hx1 hy1 hx2 hy2 hne

/-- The chord is the same from either end. -/
theorem addLam_comm : addLam d x1 y1 x2 y2 = addLam d x2 y2 x1 y1 := by
  refine cast_inj_of_lt (Nat.mod_lt _ (by omega)) (Nat.mod_lt _ (by omega)) ?_
  rw [cast_addLam hx1 hy1 hx2 hne, cast_addLam hx2 hy2 hx1 hne.symm, ← neg_sub (y1 : ZMod d.p), ← neg_sub (x1 : ZMod d.p),
    neg_div_neg_eq]

theorem addX_comm : addX d x1 y1 x2 y2 = addX d x2 y2 x1 y1 := by
  refine cast_inj_of_lt (Nat.mod_lt _ (by omega)) (Nat.mod_lt _ (by omega)) ?_
  rw [cast_addX hx1 hx2, cast_addX hx2 hx1, addLam_comm hx1 hy1 hx2 hy2 hne, sub_right_comm]

/-- Both ends lie on the chord, so either one gives its height at the third point. -/
theorem addY_comm : addY d x1 y1 x2 y2 = addY d x2 y2 x1 y1 := by
  refine cast_inj_of_lt (Nat.mod_lt _ (by omega)) (Nat.mod_lt _ (by omega)) ?_
  have hden : (x2 : ZMod d.p) - x1 ≠ 0 := sub_ne_zero.mpr fun h => hne (cast_inj_of_lt hx2 hx1 h).symm
  have hchord : (addLam d x1 y1 x2 y2 : ZMod d.p) * ((x2 : ZMod d.p) - x1) = (y2 : ZMod d.p) - y1 := by
    rw [cast_addLam hx1 hy1 hx2 hne, div_mul_cancel₀ _ hden]
  rw [cast_addY hy1, cast_addY hy2, ← addX_comm hx1 hy1 hx2 hy2 hne, ← addLam_comm hx1 hy1 hx2 hy2 hne]
  linear_combination -hchord

end

/-- R87: cases 1 and 2 mirror each other, cases 3 and 4 do not tell the operands apart, and the chord of case 5 has no direction. -/
theorem padd_comm {d : DP} {v w : PointValue} (hd : d.Valid) (hv : v.inRange d.p = true) (hw : w.inRange d.p = true) :
    padd d v w = padd d w v := by
  have := Fact.mk hd.primeP
  cases v with
  | infinity => cases w <;> rfl
  | affine x1 y1 =>
    cases w with
    | infinity => rfl
    | affine x2 y2 =>
      obtain ⟨hx1, hy1⟩ := (inRange_affine _ _ _).mp hv
      obtain ⟨hx2, hy2⟩ := (inRange_affine _ _ _).mp hw
      by_cases hx : x1 = x2
      · subst hx
        by_cases hy : y1 = y2
        · rw [hy]
        · rw [padd_of_y_ne d x1 hy, padd_of_y_ne d x1 (Ne.symm hy)]
      · rw [padd_affine hx1 hy1 hx2 hy2 hx, padd_affine hx2 hy2 hx1 hy1 (Ne.symm hx), addX_comm hx1 hy1 hx2 hy2 hx,
          addY_comm hx1 hy1 hx2 hy2 hx]

/-! ### The commands -/

theorem completes_setP {i : Instr} {s : State} {pred : Bool} {x : Except ErrorKind PointValue} {rd : PReg} {v : PointValue}
    (h : exec i s = finish pred s (x >>= fun v => .ok (s.setP rd v))) (hx : x = .ok v) :
    ∃ t, Completes i s t [] [rd] 0 0 ∧ t.getP rd = v :=
  ⟨_, completes_of (by rw [h, hx, ok_bind]) (unchanged_setP s rd v [] 0 0) rfl rfl, State.setP_getP_self ..⟩

section
variable (s : State) (rd ra : PReg)

theorem exec_pinf : exec (.pinf rd) s = finish false s (.ok .infinity >>= fun v => .ok (s.setP rd v)) := rfl

theorem exec_pisinf : exec (.pisinf ra) s = finish true s (.ok (s.getP ra).isInfinity >>= fun b => .ok (s.setT b)) := rfl

theorem exec_ponc : exec (.ponc ra) s = finish true s (onCurve s.cfg.dp (s.getP ra) >>= fun b => .ok (s.setT b)) := rfl

theorem exec_pneg : exec (.pneg rd ra) s = finish false s (pneg s.cfg.dp (s.getP ra) >>= fun v => .ok (s.setP rd v)) := rfl

end

end Sys2Proof.Machine

namespace Sys2Proof.Proofs

/-- Settles O24: every index has a word, and the register then reads as Infinity, whose stored form R23 fixes. -/
theorem pinfResult : Obligations.PinfResult := by
  unfold Obligations.PinfResult
  intro s rd
  obtain ⟨t, ht, hrd⟩ := completes_setP (exec_pinf s rd) rfl
  exact ⟨fun d => decodeEncode d (.pinf rd) rfl, t, ht, hrd, congrArg PointValue.fields hrd⟩

/-- Settles O25: the answer is that of `isInfinity`, which looks at no coordinate. -/
theorem pisinfResult : Obligations.PisinfResult := by
  unfold Obligations.PisinfResult
  intro s ra
  have hexec := exec_pisinf s ra
  refine ⟨fun d => decodeEncode d (.pisinf ra) rfl, fun hp => ?_, fun x y hp => ?_⟩
  · exact answers_setT hexec (by rw [hp]; rfl)
  · exact answers_setT hexec (by rw [hp]; rfl)

/-- Settles O26, by what the curve test answers on reduced coordinates. -/
theorem poncResult : Obligations.PoncResult := by
  unfold Obligations.PoncResult
  intro s ra hd
  have hexec := exec_ponc s ra
  refine ⟨fun d => decodeEncode d (.ponc ra) rfl, fun hp => ?_, fun x y hp hx hy => ?_⟩
  · exact answers_setT hexec (by rw [hp]; rfl)
  · exact answers_setT hexec (by rw [hp, onCurve_affine hd.aLt hd.bLt hx hy])

/-- Settles O27, by the case form of `pneg`. -/
theorem pnegResult : Obligations.PnegResult := by
  unfold Obligations.PnegResult
  intro s rd ra
  have hexec := exec_pneg s rd ra
  refine ⟨fun d => decodeEncode d (.pneg rd ra) rfl, fun hp => ?_, fun x y hp hy => ?_⟩
  · exact completes_setP hexec (by rw [hp]; rfl)
  · exact completes_setP hexec (by rw [hp, pneg_affine x hy])

/-- Settles O32: each function answers, in range; on the curve because it computes the group law; `padd` in either order. -/
theorem groupLawIsClosed : Obligations.GroupLawIsClosed := by
  unfold Obligations.GroupLawIsClosed
  intro d v w hd hv hw
  obtain ⟨neg, hneg⟩ := pneg_total hv
  obtain ⟨dbl, hdbl⟩ := pdbl_total hd.primeP hd.threeLtP hd.aLt hv
  obtain ⟨sum, hsum⟩ := padd_total hd.primeP hd.threeLtP hd.aLt hv hw
  exact ⟨onCurve_total hd hv,
    ⟨neg, hneg, pneg_inRange hneg hv, fun hv' => pneg_onCurve hd hv hv' hneg⟩,
    ⟨dbl, hdbl, pdbl_inRange hdbl, fun hv' => pdbl_onCurve hd hv hv' hdbl⟩,
    sum, hsum, (padd_comm hd hw hv).trans hsum, padd_inRange hsum hv hw,
    fun hv' hw' => padd_onCurve hd hv hv' hw hw' hsum⟩

end Sys2Proof.Proofs
end

section
/-! SUPPORT. Point doubling (45_point_double.md): the slope and the coordinates of step 3 over `ZMod p`, that `padd` doubles equal
operands, and with these the statements about `pdbl` and the command `PDBL`. -/

open Sys2Proof Sys2Proof.Machine

namespace Sys2Proof.Machine

/-! ### The doubling formulas over `ZMod p` -/

section
variable {d : DP} {x y : Nat}

/-- R84 step 3: division is multiplication by the modular inverse, which `2·y` has. -/
theorem cast_dblLam [Fact d.p.Prime] (hd : d.Valid) (hy : y < d.p) (h0 : y ≠ 0) :
    (dblLam d x y : ZMod d.p) = (3 * (x : ZMod d.p) ^ 2 + d.a) / (2 * y) := by
  have hden := double_mod_ne_zero hd.primeP hd.threeLtP hy h0
  rw [dblLam, cast_mod, Nat.cast_mul, cast_powMod (Nat.mod_lt _ (by omega)) hden, cast_mod, cast_mod, Nat.cast_add, cast_mod,
    Nat.cast_mul, cast_mod, Nat.cast_mul, Nat.cast_add, Nat.cast_ofNat, ← pow_two, ← two_mul, div_eq_mul_inv]

theorem cast_dblX (hx : x < d.p) : (dblX d x y : ZMod d.p) = (dblLam d x y : ZMod d.p) ^ 2 - x - x := by
  rw [dblX, cast_subMod hx, cast_subMod hx, cast_mod, Nat.cast_mul, pow_two]

theorem cast_dblY (hy : y < d.p) :
    (dblY d x y : ZMod d.p) = (dblLam d x y : ZMod d.p) * ((x : ZMod d.p) - dblX d x y) - y := by
  have hX : dblX d x y < d.p := Nat.mod_lt _ (by omega)
  rw [dblY, cast_subMod hy, cast_mod, Nat.cast_mul, cast_subMod hX]

/-! ### The equations that the slope and the coordinates solve -/

theorem dblLam_equation (hd : d.Valid) (hy : y < d.p) (h0 : y ≠ 0) :
    dblLam d x y * (2 * y) % d.p = (3 * x ^ 2 + d.a) % d.p := by
  have := Fact.mk hd.primeP
  have hden : (2 * y : ZMod d.p) ≠ 0 := by
    rw [two_mul]
    exact cast_double_ne_zero hd hy h0
  refine (ZMod.natCast_eq_natCast_iff' _ _ _).mp ?_
  push_cast
  rw [cast_dblLam hd hy h0, div_mul_cancel₀ _ hden]

theorem dblX_equation (hx : x < d.p) : (dblX d x y + 2 * x) % d.p = dblLam d x y ^ 2 % d.p := by
  refine (ZMod.natCast_eq_natCast_iff' _ _ _).mp ?_
  push_cast
  rw [cast_dblX hx]
  ring

theorem dblY_equation (hy : y < d.p) : (dblY d x y + y + dblLam d x y * dblX d x y) % d.p = dblLam d x y * x % d.p := by
  refine (ZMod.natCast_eq_natCast_iff' _ _ _).mp ?_
  push_cast
  rw [cast_dblY hy]
  ring

end

/-! ### The cases of R84 that answer Infinity, and doubling by the adder -/

/-- R84 step 2. -/
theorem pdbl_y_zero (d : DP) (x : Nat) : pdbl d (.affine x 0) = .ok .infinity := rfl

/-- R87 cases 1 and 4. -/
theorem padd_self (d : DP) (v : PointValue) : padd d v v = pdbl d v := by
  cases v with
  | infinity => rfl
  | affine x y => exact (if_neg fun h => h.2 rfl).trans (if_pos ⟨rfl, rfl⟩)

/-! ### The commands -/

theorem exec_pdbl (s : State) (rd ra : PReg) :
    exec (.pdbl rd ra) s = finish false s (pdbl s.cfg.dp (s.getP ra) >>= fun v => .ok (s.setP rd v)) := rfl

theorem exec_padd (s : State) (rd ra rb : PReg) :
    exec (.padd rd ra rb) s = finish false s (padd s.cfg.dp (s.getP ra) (s.getP rb) >>= fun v => .ok (s.setP rd v)) := rfl

end Sys2Proof.Machine

namespace Sys2Proof.Proofs

/-- Settles O28: the case with a slope answers `dblX` and `dblY`, which solve the equations because `2·y` is invertible. -/
theorem doublingFormulas : Obligations.DoublingFormulas := by
  unfold Obligations.DoublingFormulas
  intro d hd
  refine ⟨rfl, pdbl_y_zero d, fun x y hx hy h0 => ?_⟩
  have hdbl := pdbl_affine hd.primeP hd.threeLtP hd.aLt hx hy h0
  obtain ⟨hx3, hy3⟩ := (inRange_affine _ _ _).mp (pdbl_inRange hdbl)
  exact ⟨dblLam d x y, dblX d x y, dblY d x y, hdbl, hx3, hy3, dblLam_equation hd hy h0, dblX_equation hx, dblY_equation hy⟩

/-- Settles O29: the doubler answers on every source in range, and the adder of equal operands is the doubler. -/
theorem pdblResult : Obligations.PdblResult := by
  unfold Obligations.PdblResult
  intro s rd ra hd hv
  obtain ⟨w, hw⟩ := pdbl_total hd.primeP hd.threeLtP hd.aLt hv
  obtain ⟨t, ht, hrd⟩ := completes_setP (exec_pdbl s rd ra) hw
  have hadd := completes_setP (exec_padd s rd ra ra) ((padd_self ..).trans hw)
  refine ⟨fun d => decodeEncode d (.pdbl rd ra) rfl, t, w, ht, hw, hrd, fun hp => ?_, fun x hp => ?_, hadd⟩
  · rw [hp] at hw
    exact (Except.ok.inj hw).symm
  · rw [hp, pdbl_y_zero] at hw
    exact (Except.ok.inj hw).symm

end Sys2Proof.Proofs
end

section
/-! SUPPORT. Point addition (46_point_add.md): the equations that the slope and the coordinates of case 5 solve, that a point and
its negation sum to Infinity, and with these the statements about `padd` and the command `PADD`. -/

open Sys2Proof Sys2Proof.Machine

namespace Sys2Proof.Machine

/-! ### The equations that the slope and the coordinates solve -/

section
variable {d : DP} {x1 y1 x2 y2 : Nat}

/-- R87 case 5: both operands lie on the chord, because `x2 - x1` is invertible. -/
theorem addLam_equation [Fact d.p.Prime] (hx1 : x1 < d.p) (hy1 : y1 < d.p) (hx2 : x2 < d.p) (hne : x1 ≠ x2) :
    (addLam d x1 y1 x2 y2 * x2 + y1) % d.p = (addLam d x1 y1 x2 y2 * x1 + y2) % d.p := by
  have hden : (x2 : ZMod d.p) - x1 ≠ 0 := sub_ne_zero.mpr fun h => hne (cast_inj_of_lt hx2 hx1 h).symm
  have hchord : (addLam d x1 y1 x2 y2 : ZMod d.p) * ((x2 : ZMod d.p) - x1) = (y2 : ZMod d.p) - y1 := by
    rw [cast_addLam hx1 hy1 hx2 hne, div_mul_cancel₀ _ hden]
  refine (ZMod.natCast_eq_natCast_iff' _ _ _).mp ?_
  push_cast
  linear_combination hchord

theorem addX_equation (hx1 : x1 < d.p) (hx2 : x2 < d.p) :
    (addX d x1 y1 x2 y2 + x1 + x2) % d.p = addLam d x1 y1 x2 y2 ^ 2 % d.p := by
  refine (ZMod.natCast_eq_natCast_iff' _ _ _).mp ?_
  push_cast
  rw [cast_addX hx1 hx2]
  ring

theorem addY_equation (hy1 : y1 < d.p) :
    (addY d x1 y1 x2 y2 + y1 + addLam d x1 y1 x2 y2 * addX d x1 y1 x2 y2) % d.p = addLam d x1 y1 x2 y2 * x1 % d.p := by
  refine (ZMod.natCast_eq_natCast_iff' _ _ _).mp ?_
  push_cast
  rw [cast_addY hy1]
  ring

end

/-! ### Infinity as an operand and as a sum -/

/-- R87 case 1. -/
theorem padd_infinity_left (d : DP) (w : PointValue) : padd d .infinity w = .ok w := rfl

/-- R87 cases 1 and 2. -/
theorem padd_infinity_right (d : DP) (v : PointValue) : padd d v .infinity = .ok v := by
  cases v with
  | infinity => rfl
  | affine x y => rfl

/-- R88: a point with `y = 0` is its own negation and is doubled; any other differs from its negation in `y`, as `p` is odd. -/
theorem padd_pneg {d : DP} {v w : PointValue} (hd : d.Valid) (hv : v.inRange d.p = true) (hw : pneg d v = .ok w) :
    padd d v w = .ok .infinity := by
  cases v with
  | infinity => exact hw.symm
  | affine x y =>
    obtain ⟨-, hy⟩ := (inRange_affine _ _ _).mp hv
    cases (pneg_affine x hy).symm.trans hw
    by_cases h0 : y = 0
    · rw [if_pos h0, h0, padd_self, pdbl_y_zero]
    · have hne : y ≠ d.p - y := fun h =>
        double_mod_ne_zero hd.primeP hd.threeLtP hy h0 (by rw [show y + y = d.p by omega, Nat.mod_self])
      rw [if_neg h0, padd_of_y_ne d x hne]

end Sys2Proof.Machine

namespace Sys2Proof.Proofs

/-- Settles O30: the case with a slope answers `addX` and `addY`, which solve the equations because `x2 - x1` is invertible. -/
theorem additionCases : Obligations.AdditionCases := by
  unfold Obligations.AdditionCases
  intro d hd
  have := Fact.mk hd.primeP
  refine ⟨padd_infinity_left d, padd_infinity_right d, fun x _ _ => padd_of_y_ne d x, padd_self d,
    fun x1 y1 x2 y2 hx1 hy1 hx2 hy2 hne => ?_⟩
  have hp : 0 < d.p := hd.primeP.pos
  exact ⟨addLam d x1 y1 x2 y2, addX d x1 y1 x2 y2, addY d x1 y1 x2 y2, padd_affine hx1 hy1 hx2 hy2 hne,
    Nat.mod_lt _ hp, Nat.mod_lt _ hp, addLam_equation hx1 hy1 hx2 hne, addX_equation hx1 hx2, addY_equation hy1⟩

/-- Settles O31: the adder answers on every pair of sources in range, and each corner case fixes what it answered. -/
theorem paddResult : Obligations.PaddResult := by
  unfold Obligations.PaddResult
  intro s rd ra rb hd hv hv'
  obtain ⟨w, hw⟩ := padd_total hd.primeP hd.threeLtP hd.aLt hv hv'
  obtain ⟨t, ht, hrd⟩ := completes_setP (exec_padd s rd ra rb) hw
  refine ⟨fun d => decodeEncode d (.padd rd ra rb) rfl, t, w, ht, hw, hrd, fun hb => ?_, fun ha => ?_,
    fun hneg => ?_, fun hab => ?_⟩
  · rw [hb, padd_infinity_right] at hw
    exact (Except.ok.inj hw).symm
  · rw [ha, padd_infinity_left] at hw
    exact (Except.ok.inj hw).symm
  · exact Except.ok.inj (hw.symm.trans (padd_pneg hd hv hneg))
  · rw [← hab, padd_self] at hw
    exact hw

end Sys2Proof.Proofs
end

section
/-! SUPPORT. Scalar multiplication (47_scalar_mul.md): the answer of `smul` at each of its checks, the value that stands for a
multiple, and with these the statements about `smul` and the command `SMUL`. -/

open Sys2Proof Sys2Proof.Machine

namespace Sys2Proof.Machine

/-! ### The checks of R90, in their order -/

section
variable {d : DP} {k : Nat} {v : PointValue}

/-- R90 step 1. -/
theorem smul_of_outOfRange (hk : 2 ^ d.nb ≤ k) : smul d k v = .error .outOfRangeInput := if_pos hk

/-- R90 step 2: the point is not looked at. -/
theorem smul_zero (d : DP) (v : PointValue) : smul d 0 v = .ok .infinity :=
  (if_neg (Nat.not_le.mpr (Nat.two_pow_pos d.nb))).trans (if_pos rfl)

/-- R90 from step 3 on. -/
theorem smul_of_ne_zero (hk : k < 2 ^ d.nb) (h0 : k ≠ 0) : smul d k v =
    onCurve d v >>= fun on => if on then smulLoop d k v d.nb .infinity else .error .pointNotOnCurve :=
  (if_neg (Nat.not_le.mpr hk)).trans (if_neg h0)

/-- R90 step 3. -/
theorem smul_of_offCurve (hk : k < 2 ^ d.nb) (h0 : k ≠ 0) (hv : onCurve d v = .ok false) :
    smul d k v = .error .pointNotOnCurve := by
  rw [smul_of_ne_zero hk h0, hv]
  rfl

/-- R90 step 4: the loop of R91. -/
theorem smul_of_onCurve (hk : k < 2 ^ d.nb) (h0 : k ≠ 0) (hv : onCurve d v = .ok true) :
    smul d k v = smulLoop d k v d.nb .infinity := by
  rw [smul_of_ne_zero hk h0, hv]
  rfl

end

/-! ### Multiples in the group -/

section
variable {d : DP} [Fact d.p.Prime] (hd : d.Valid)
include hd

/-- R93: what denotes the multiple is what `smul` answers. -/
theorem smul_eq_of_denotes {k : Nat} {v w : PointValue} {P : (curve d).Point} (hk : k < 2 ^ d.nb) (hv : Denotes d v P)
    (hw : Denotes d w (k • P)) : smul d k v = .ok w := by
  obtain ⟨u, hu, hU⟩ := smul_denotes hd hk hv
  rw [hu, hU.unique hw]

theorem smul_one_of_denotes {v : PointValue} {P : (curve d).Point} (hv : Denotes d v P) : smul d 1 v = .ok v :=
  smul_eq_of_denotes hd (hd.primeN.one_lt.trans (n_lt_two_pow_nb d)) hv ((one_nsmul P).symm ▸ hv)

/-- R93: `(i + j)·P = i·P + j·P`, and `padd` adds. -/
theorem smul_add_of_denotes {v : PointValue} {P : (curve d).Point} (hv : Denotes d v P) {i j : Nat} (hij : i + j < 2 ^ d.nb) :
    ∃ x y z, smul d i v = .ok x ∧ smul d j v = .ok y ∧ smul d (i + j) v = .ok z ∧ padd d x y = .ok z := by
  obtain ⟨x, hx, hX⟩ := smul_denotes hd (show i < 2 ^ d.nb by omega) hv
  obtain ⟨y, hy, hY⟩ := smul_denotes hd (show j < 2 ^ d.nb by omega) hv
  obtain ⟨z, hz, hZ⟩ := padd_denotes hd hX hY
  rw [← add_nsmul] at hZ
  exact ⟨x, y, z, hx, hy, smul_eq_of_denotes hd hij hv hZ, hz⟩

end

/-! ### Multiples of the base point -/

section
variable {d : DP} (hd : d.Valid)
include hd

/-- R93: `n·G` is the identity, so `k·G = (k mod n)·G`. -/
theorem smul_basePoint_mod {k : Nat} (hk : k < 2 ^ d.nb) : smul d k (basePoint d) = smul d (k % d.n) (basePoint d) := by
  have := Fact.mk hd.primeP
  obtain ⟨G, hG, -, hn⟩ := basePoint_denotes hd
  obtain ⟨w, hw, hW⟩ := smul_denotes hd ((Nat.mod_le k d.n).trans_lt hk) hG
  rw [← nsmul_eq_mod_nsmul k hn] at hW
  rw [hw, smul_eq_of_denotes hd hk hG hW]

theorem smul_order_basePoint : smul d d.n (basePoint d) = .ok .infinity := by
  rw [smul_basePoint_mod hd (n_lt_two_pow_nb d), Nat.mod_self, smul_zero]

end

/-! ### The command -/

theorem exec_smul (s : State) (rd ra : PReg) (rk : FReg) : exec (.smul rd ra rk) s =
    finish false s (smul s.cfg.dp (s.getF rk) (s.getP ra) >>= fun w => .ok (s.setP rd w)) := rfl

end Sys2Proof.Machine

namespace Sys2Proof.Proofs

/-- Settles O34: on the curve `smul` computes the multiples of the group law, and `G` has order `n` there. -/
theorem scalarMultiplicationLaws : Obligations.ScalarMultiplicationLaws := by
  unfold Obligations.ScalarMultiplicationLaws
  intro d hd
  have := Fact.mk hd.primeP
  refine ⟨smul_zero d, fun v hv hon => ?_, smul_order_basePoint hd, fun k => smul_basePoint_mod hd, fun k h1 hk => ?_⟩
  · obtain ⟨P, hP⟩ := denotes_of_onCurve hd hv hon
    exact ⟨smul_one_of_denotes hd hP, fun i j => smul_add_of_denotes hd hP, fun i j => smul_of_outOfRange,
      fun k => smul_eq_multiple hd hv hon⟩
  · obtain ⟨x, y, hxy, -⟩ := smul_basePoint hd h1 hk
    exact ⟨x, y, hxy⟩

/-- Settles O33: each premise picks the answer of one check, and on a valid `DP` the loop cannot raise. -/
theorem smulResult : Obligations.SmulResult := by
  unfold Obligations.SmulResult
  intro s rd ra rk
  have hexec := exec_smul s rd ra rk
  refine ⟨fun d => decodeEncode d (.smul rd ra rk) rfl, fun hk => ?_, fun h0 => ?_, fun hk h0 hoff => ?_,
    fun hk h0 hd hv hon => ?_⟩
  · exact raises_of_bind hexec (smul_of_outOfRange hk)
  · exact completes_setP hexec (by rw [h0, smul_zero])
  · exact raises_of_bind hexec (smul_of_offCurve hk h0 hoff)
  · obtain ⟨w, hw⟩ := smulLoop_total hd.primeP hd.threeLtP hd.aLt (s.getF rk) hv s.cfg.dp.nb (acc := .infinity) rfl
    obtain ⟨t, ht, hrd⟩ := completes_setP hexec ((smul_of_onCurve hk h0 hon).trans hw)
    exact ⟨t, w, ht, hrd, hw⟩

end Sys2Proof.Proofs
end

section
/-! SUPPORT. Key generation and signing (48_ecdsa.md): what the commands that draw come to on the answers of R96 and R100, and
with it the statements about `KEYGEN` and `SIGN`. -/

open Sys2Proof Sys2Proof.Machine

namespace Sys2Proof.Machine

/-! ### How a command that draws ends or waits -/

section
variable {i : Instr} {s u : State} {rest : List RngAnswer}

theorem completesDrawing_of {fs : List FReg} {ps : List PReg} (h : exec i s = .next u.complete) (hu : Unchanged s u fs ps 0 0)
    (ht : u.t = s.t) (hr : u.rng = rest) : CompletesDrawing i s u.complete fs ps rest :=
  ⟨h, ended_complete u, hu.complete, ht, hr⟩

theorem unchanged_setRng_raise (s : State) (rest : List RngAnswer) (pred : Bool) (e : ErrorKind) :
    Unchanged s ((s.setRng rest).raise pred e) [] [] 0 0 :=
  ⟨fun _ _ => rfl, fun _ _ => rfl, fun _ _ => rfl, rfl, rfl⟩

theorem raisesDrawing_of {e : ErrorKind} (h : exec i s = .next ((s.beginDraws.setRng rest).raise false e)) :
    RaisesDrawing i s e rest :=
  ⟨_, h, ended_raise _ _ _, unchanged_setRng_raise s rest false e, rfl, rfl⟩

/-- R105: nothing the host can see is written while a command waits. -/
theorem waits_beginDraws (c : Running) (h : Hidden) (s : State) : Waits c s (s.beginDraws.wait c h) :=
  ⟨rfl, rfl, rfl, ⟨fun _ _ => rfl, fun _ _ => rfl, fun _ _ => rfl, rfl, rfl⟩, rfl⟩

/-- R105: a command that has not ended waits. -/
theorem Ending.waits (h : Ending i s u) (hb : u.busy ≠ none) : ∃ c : Running, c.instr = i ∧ Waits c s u := by
  cases h with
  | completed _ _ _ _ _ => exact absurd rfl hb
  | raised _ _ => exact absurd rfl hb
  | waiting hc => exact ⟨_, hc, waits_beginDraws _ _ s⟩

theorem CompletesDrawing.next_eq {t : State} {fs : List FReg} {ps : List PReg} (hc : CompletesDrawing i s u fs ps rest)
    (h : exec i s = .next t) : t = u :=
  Host.Outcome.next.inj (h.symm.trans hc.next)

theorem RaisesDrawing.err_eq {t : State} {e : ErrorKind} (hr : RaisesDrawing i s e rest) (h : exec i s = .next t) :
    t.err = e.code := by
  obtain ⟨t', h', hend, -⟩ := hr
  cases h.symm.trans h'
  exact hend.err

theorem Raises.err_eq {t : State} {pred : Bool} {e : ErrorKind} (hr : Raises i s pred e) (h : exec i s = .next t) :
    t.err = e.code := by
  obtain ⟨t', h', hend, -⟩ := hr
  cases h.symm.trans h'
  exact hend.err

end

/-! ### Key generation -/

section
variable {s : State} (rd : FReg) (rq : PReg)

theorem exec_keygen (s : State) : exec (.keygen rd rq) s = finishDraws s.beginDraws (.keygen rd rq) (writeKeyPair rd rq)
    (rngLoop s.cfg (keygenAttempt s.cfg.dp) s.rng Hidden.zero) := rfl

theorem keygenAttempt_of_smul {d : DP} {k : Nat} {q : PointValue} (h : smul d k (basePoint d) = .ok q) (g : Hidden) :
    keygenAttempt d k g = .ok (.done (k, q)) := by
  rw [keygenAttempt, h, ok_bind]

/-- R98: a draw that returns a scalar ends the command. -/
theorem exec_keygen_draws {k : Nat} {q : PointValue} {rest : List RngAnswer} (hd : DrawsScalar s.cfg s.rng k rest)
    (hq : smul s.cfg.dp k (basePoint s.cfg.dp) = .ok q) :
    exec (.keygen rd rq) s = .next (writeKeyPair rd rq (s.beginDraws.setRng rest) (k, q)).complete := by
  rw [exec_keygen, rngLoop_draws _ hd _ rfl, keygenAttempt_of_smul hq]
  rfl

theorem exec_keygen_givesUp {rest : List RngAnswer} (ht : 1 ≤ s.cfg.entropyTries) (hd : DrawGivesUp s.cfg s.rng rest) :
    exec (.keygen rd rq) s = .next ((s.beginDraws.setRng rest).raise false .entropyExhausted) := by
  rw [exec_keygen, rngLoop_givesUp _ hd ht _ rfl, finishDraws_failed]

theorem exec_keygen_waits (hd : DrawWaits s.cfg s.rng) :
    ∃ t, exec (.keygen rd rq) s = .next t ∧ Waits (.keygen rd rq) s t := by
  obtain ⟨j, -, hj⟩ := rngLoop_waits (keygenAttempt s.cfg.dp) hd Hidden.zero rfl
  rw [exec_keygen, hj]
  exact ⟨_, rfl, waits_beginDraws _ _ s⟩

/-- R98: the draw makes a key pair, and nothing else. -/
theorem keygen_completes (hv : s.cfg.dp.Valid) {k : Nat} {rest : List RngAnswer} (hd : DrawsScalar s.cfg s.rng k rest) :
    ∃ t q, CompletesDrawing (.keygen rd rq) s t [rd] [rq] rest ∧ t.getF rd = k ∧ t.getP rq = q ∧
      smul s.cfg.dp k (basePoint s.cfg.dp) = .ok q ∧ onCurve s.cfg.dp q = .ok true := by
  obtain ⟨h1, hk⟩ := hd.range
  obtain ⟨x, y, hq, hon, -, -⟩ := smul_basePoint hv h1 hk
  exact ⟨_, _, completesDrawing_of (exec_keygen_draws rd rq hd hq)
    (unchanged_writeKeyPair (unchanged_drawn s Hidden.zero rest) rd rq _) rfl rfl, State.setF_getF_self ..,
    State.setP_getP_self .., hq, hon⟩

/-- All that `KEYGEN` can come to on a valid constant table. -/
theorem keygen_cases (hv : s.cfg.Valid) {t : State} (h : exec (.keygen rd rq) s = .next t) :
    (1 ≤ t.getF rd ∧ t.getF rd < s.cfg.dp.n ∧ smul s.cfg.dp (t.getF rd) (basePoint s.cfg.dp) = .ok (t.getP rq) ∧ t.err = 0) ∨
      t.err = ErrorKind.entropyExhausted.code ∨ t.busy ≠ none := by
  obtain ⟨k, rest, hd⟩ | ⟨rest, hd⟩ | hd := draw_cases s.cfg s.rng
  · obtain ⟨u, q, hc, rfl, rfl, hq, -⟩ := keygen_completes rd rq hv.dp hd
    cases hc.next_eq h
    exact .inl ⟨hd.range.1, hd.range.2, hq, hc.ended.err⟩
  · exact .inr (.inl ((raisesDrawing_of (exec_keygen_givesUp rd rq hv.tries hd)).err_eq h))
  · obtain ⟨u, h', hw⟩ := exec_keygen_waits rd rq hd
    cases h.symm.trans h'
    exact .inr (.inr (by simp [hw.busy]))

end

/-! ### Every list of answers decides -/

/-- R100: every list of answers makes the attempts of `SIGN` return, give up or wait. -/
theorem sign_answers_cases {c : Config} (hd : c.dp.Valid) (e sk : Nat) (a : List RngAnswer) :
    (∃ r sig rest, SignReturns c e sk a r sig rest) ∨ (∃ rest, SignGivesUp c e sk a rest) ∨ SignWaits c e sk a := by
  induction hn : a.length using Nat.strong_induction_on generalizing a with
  | _ n ih =>
    obtain ⟨k, more, draw⟩ | ⟨rest, draw⟩ | draw := draw_cases c a
    · obtain ⟨h1, hk⟩ := draw.range
      obtain ⟨r, sig, h, hr, hs⟩ | h := signs_or_restarts hd (e := e) (sk := sk) h1 hk
      · exact .inl ⟨r, sig, more, .returned draw h hr hs⟩
      · obtain ⟨r, sig, rest, h'⟩ | ⟨rest, h'⟩ | h' := ih more.length (hn ▸ draw.length_lt) more rfl
        · exact .inl ⟨r, sig, rest, .restarted draw h h'⟩
        · exact .inr (.inl ⟨rest, .restarted draw h h'⟩)
        · exact .inr (.inr (.restarted draw h h'))
    · exact .inr (.inl ⟨rest, .exhausted draw⟩)
    · exact .inr (.inr (.pending draw))

/-! ### Signing -/

/-- R48 step 5. -/
theorem sign_wellFormed_iff {d : DP} {rr rs re rd : FReg} : (Instr.sign rr rs re rd).wellFormed d = true ↔ rr ≠ rs := by
  simp [wellFormed_iff, Instr.destinationsDiffer, Instr.insideBuffer]

section
variable {s : State} {rr rs re rd : FReg} {rest : List RngAnswer}

theorem writeSignature_getF_r (hne : rr ≠ rs) (s : State) (r : Nat × Nat) : (writeSignature rr rs s r).getF rr = r.1 := by
  rw [writeSignature, State.setF_getF_ne _ hne.symm, State.setF_getF_self]

theorem writeSignature_getF_s (s : State) (r : Nat × Nat) : (writeSignature rr rs s r).getF rs = r.2 :=
  State.setF_getF_self ..

section
variable (hne : rr ≠ rs) (h1 : 1 ≤ s.getF rd) (hn : s.getF rd < s.cfg.dp.n)
include hne h1 hn

theorem exec_sign_returns {r sig : Nat} (h : SignReturns s.cfg (s.getF re % s.cfg.dp.n) (s.getF rd) s.rng r sig rest) :
    exec (.sign rr rs re rd) s = .next (writeSignature rr rs (s.beginDraws.setRng rest) (r, sig)).complete := by
  rw [exec_sign hne h1 hn, signLoop_returns (Nat.mod_lt _ (by omega)) hn h _ rfl, finishDraws_done]

theorem exec_sign_givesUp (ht : 1 ≤ s.cfg.entropyTries)
    (h : SignGivesUp s.cfg (s.getF re % s.cfg.dp.n) (s.getF rd) s.rng rest) :
    exec (.sign rr rs re rd) s = .next ((s.beginDraws.setRng rest).raise false .entropyExhausted) := by
  rw [exec_sign hne h1 hn, signLoop_givesUp ht (Nat.mod_lt _ (by omega)) hn h _ rfl, finishDraws_failed]

theorem exec_sign_waits (h : SignWaits s.cfg (s.getF re % s.cfg.dp.n) (s.getF rd) s.rng) :
    ∃ t, exec (.sign rr rs re rd) s = .next t ∧ Waits (.sign rr rs re rd) s t := by
  obtain ⟨g, hg⟩ := signLoop_waits (Nat.mod_lt _ (by omega)) hn h Hidden.zero rfl
  rw [exec_sign hne h1 hn, hg]
  exact ⟨_, rfl, waits_beginDraws _ _ s⟩

/-- R101: the attempts make a signature, and nothing else. -/
theorem sign_completes {r sig : Nat} (h : SignReturns s.cfg (s.getF re % s.cfg.dp.n) (s.getF rd) s.rng r sig rest) :
    ∃ t, CompletesDrawing (.sign rr rs re rd) s t [rr, rs] [] rest ∧ t.getF rr = r ∧ t.getF rs = sig :=
  ⟨_, completesDrawing_of (exec_sign_returns hne h1 hn h)
    (unchanged_writeSignature (unchanged_drawn s Hidden.zero rest) rr rs _) rfl rfl, writeSignature_getF_r hne _ _,
    writeSignature_getF_s _ _⟩

end

/-- R100: a returned signature was made with one accepted `k`. -/
theorem SignReturns.signed {c : Config} {e sk r sig : Nat} {a : List RngAnswer} (h : SignReturns c e sk a r sig rest) :
    ∃ k, 1 ≤ k ∧ k < c.dp.n ∧ SignsWith c.dp e sk k r sig ∧ r ≠ 0 ∧ sig ≠ 0 := by
  induction h with
  | returned draw h hr hs => exact ⟨_, draw.range.1, draw.range.2, h, hr, hs⟩
  | restarted _ _ _ ih => exact ih

/-- All that `SIGN` can come to on a valid constant table. -/
theorem sign_cases (hv : s.cfg.Valid) {t : State} (h : exec (.sign rr rs re rd) s = .next t) :
    (s.getF rd < s.cfg.dp.n ∧ t.err = 0 ∧
      ∃ rest, SignReturns s.cfg (s.getF re % s.cfg.dp.n) (s.getF rd) s.rng (t.getF rr) (t.getF rs) rest) ∨
    (rr = rs ∧ t.err = ErrorKind.illegalCommand.code) ∨ t.err = ErrorKind.outOfRangeInput.code ∨
    t.err = ErrorKind.entropyExhausted.code ∨ t.busy ≠ none := by
  by_cases hne : rr = rs
  · subst hne
    exact .inr (.inl ⟨rfl, (raises_of_exec (exec_sign_same ..)).err_eq h⟩)
  by_cases hr : 1 ≤ s.getF rd ∧ s.getF rd < s.cfg.dp.n
  · obtain ⟨h1, hn⟩ := hr
    obtain ⟨r, sig, rest, hs⟩ | ⟨rest, hs⟩ | hs := sign_answers_cases hv.dp (s.getF re % s.cfg.dp.n) (s.getF rd) s.rng
    · obtain ⟨u, hc, rfl, rfl⟩ := sign_completes hne h1 hn hs
      cases hc.next_eq h
      exact .inl ⟨hn, hc.ended.err, rest, hs⟩
    · exact .inr (.inr (.inr (.inl ((raisesDrawing_of (exec_sign_givesUp hne h1 hn hv.tries hs)).err_eq h))))
    · obtain ⟨u, h', hw⟩ := exec_sign_waits hne h1 hn hs
      cases h.symm.trans h'
      exact .inr (.inr (.inr (.inr (by simp [hw.busy]))))
  · exact .inr (.inr (.inl ((raises_of_exec (exec_sign_range hne hr)).err_eq h)))

end

/-! ### Answers that are of no use -/

/-- R100 step 3: `r = 0` restarts the attempt. -/
theorem restarts_of_x_eq_zero {c : Config} {e sk k x y : Nat} (h1 : 1 ≤ k) (hk : k < c.dp.n)
    (h : smul c.dp k (basePoint c.dp) = .ok (.affine x y)) (hx : x % c.dp.n = 0) : Restarts c.dp e sk k :=
  .inr ⟨x % c.dp.n, _, ⟨x, y, _, h, finv_of_range h1 hk, rfl, rfl⟩, .inl hx⟩

section
variable {c : Config} (hc : c.Valid)
include hc

/-- R97: values outside the range are discarded, one draw after the other. -/
theorem drawWaits_of_unusable {a : List RngAnswer} (h : ∀ x ∈ a, ∃ v, x = .value v ∧ ¬ (1 ≤ v ∧ v < c.dp.n)) : DrawWaits c a := by
  induction a with
  | nil => exact .pending (j := 0) hc.tries
  | cons x a ih =>
    obtain ⟨⟨v, rfl, hv⟩, ha⟩ := List.forall_mem_cons.mp h
    exact .redrawn (j := 0) hc.tries hv (ih ha)

/-- A draw that begins with a value outside the range goes on as one that begins after it (R97). -/
theorem SignWaits.redrawn {e sk v : Nat} {a : List RngAnswer} (hv : ¬ (1 ≤ v ∧ v < c.dp.n)) (h : SignWaits c e sk a) :
    SignWaits c e sk (.value v :: a) := by
  cases h with
  | pending draw => exact .pending (.redrawn (j := 0) hc.tries hv draw)
  | restarted draw h again => exact .restarted (.redrawn (j := 0) hc.tries hv draw) h again

/-- R105: neither kind of answer ends the attempts. -/
theorem signWaits_of_unusable {e sk : Nat} {a : List RngAnswer}
    (h : ∀ z ∈ a, ∃ v, z = .value v ∧ (¬ (1 ≤ v ∧ v < c.dp.n) ∨
      ∃ x y, smul c.dp v (basePoint c.dp) = .ok (.affine x y) ∧ x % c.dp.n = 0)) : SignWaits c e sk a := by
  induction a with
  | nil => exact .pending (.pending (j := 0) hc.tries)
  | cons z a ih =>
    obtain ⟨⟨v, rfl, hz⟩, ha⟩ := List.forall_mem_cons.mp h
    by_cases hv : 1 ≤ v ∧ v < c.dp.n
    · obtain ⟨x, y, hxy, hx⟩ := hz.resolve_left (not_not.mpr hv)
      exact .restarted (.accepted (j := 0) hc.tries hv) (restarts_of_x_eq_zero hv.1 hv.2 hxy hx) (ih ha)
    · exact (ih ha).redrawn hc hv

end

end Sys2Proof.Machine

namespace Sys2Proof.Proofs

/-- Settles O35: a drawn scalar has an affine public point, because `G` has order `n`. -/
theorem keygenResult : Obligations.KeygenResult := by
  unfold Obligations.KeygenResult
  intro s rd rq hv
  refine ⟨fun d => decodeEncode d (.keygen rd rq) rfl, fun k rest hd => ?_, fun rest hd => ?_⟩
  · obtain ⟨t, q, hc, hk, hq, hsmul, hon⟩ := keygen_completes rd rq hv.dp hd
    exact ⟨t, q, hc, hk, hq, hsmul, hd.range.1, Nat.le_sub_one_of_lt hd.range.2, hon⟩
  · exact raisesDrawing_of (exec_keygen_givesUp rd rq hv.tries hd)

/-- Settles O36: the checks of the word and of the signing key, and then what the attempts come to. -/
theorem signResult : Obligations.SignResult := by
  unfold Obligations.SignResult
  intro s rr rs re rd hv
  refine ⟨fun d hne => decodeEncode d (.sign rr rs re rd) (sign_wellFormed_iff.mpr hne), fun d i he hd => ?_,
    fun hne hr => ?_, fun r sig rest hne h1 hn h => ?_, fun rest hne h1 hn h => ?_⟩
  · obtain ⟨-, hwf⟩ := (decode_encode_iff (i := .sign rr rs re rd)).mp hd
    exact sign_wellFormed_iff.mp hwf he
  · exact raises_of_exec (exec_sign_range hne (by omega))
  · obtain ⟨t, hc, hrr, hrs⟩ := sign_completes hne h1 hn h
    obtain ⟨hr1, hrn, hs1, hsn⟩ := signReturns_range hv.dp.primeN.pos h
    exact ⟨t, hc, hrr, hrs, hr1, Nat.le_sub_one_of_lt hrn, hs1, Nat.le_sub_one_of_lt hsn⟩
  · exact raisesDrawing_of (exec_sign_givesUp hne h1 hn hv.tries h)

/-- Settles O37: the draws end in waiting, and waiting writes nothing the host can see. -/
theorem commandsWaitForAnswers : Obligations.CommandsWaitForAnswers := by
  unfold Obligations.CommandsWaitForAnswers
  exact fun s _ => ⟨fun rd rq hd => exec_keygen_waits rd rq hd, fun rr rs re rd hne h1 hn h => exec_sign_waits hne h1 hn h⟩

/-- Settles O41, by induction on the length of the list: a draw that returns has taken an answer. -/
theorem everyAnswerListDecides : Obligations.EveryAnswerListDecides := by
  unfold Obligations.EveryAnswerListDecides
  exact fun c a hc => ⟨draw_cases c a, fun e sk _ _ _ => sign_answers_cases hc.dp e sk a⟩

/-- Settles O42, by induction on the answers: each one begins a new draw or a new attempt. -/
theorem unusableAnswersNeverEnd : Obligations.UnusableAnswersNeverEnd := by
  unfold Obligations.UnusableAnswersNeverEnd
  intro s hv
  have hn := hv.dp.primeN.pos
  have hle : ∀ v, v ≤ s.cfg.dp.n - 1 ↔ v < s.cfg.dp.n := fun v => Nat.le_sub_one_iff_lt hn
  simp only [hle]
  refine ⟨fun rd rq h => exec_keygen_waits rd rq (drawWaits_of_unusable hv h), fun rr rs re rd hne h1 hk h => ?_,
    fun _ _ he => ?_⟩
  · exact exec_sign_waits hne h1 hk (signWaits_of_unusable hv h)
  · obtain ⟨-, -, -, -, idle⟩ := stepRunsTheDecodedWord
    exact idle s he

end Sys2Proof.Proofs
end

section
/-! SUPPORT. Verification (48_ecdsa.md): what `verify` answers at each of its checks, that it looks at the digest modulo `n` only,
and why it accepts what `SIGN` made; and with these the statements about `VERIFY`. -/

open Sys2Proof Sys2Proof.Machine

namespace Sys2Proof.Machine

/-! ### The checks of R102, in their order -/

theorem exec_verify (s : State) (rr rs re : FReg) (rq : PReg) : exec (.verify rr rs re rq) s =
    finish true s (verify s.cfg.dp (s.getF re) (s.getP rq) (s.getF rr) (s.getF rs) >>= fun b => .ok (s.setT b)) := rfl

/-- R5: `G` is on the curve. -/
theorem basePoint_inRange_and_onCurve {d : DP} (hd : d.Valid) :
    (basePoint d).inRange d.p = true ∧ onCurve d (basePoint d) = .ok true := by
  have := Fact.mk hd.primeP
  obtain ⟨G, hG, -⟩ := basePoint_denotes hd
  exact ⟨hG.inRange, hG.onCurve hd⟩

/-- Step 5 of R102: the sum is affine, and its `x` modulo `n` is `r`. -/
def accepts (d : DP) (r : Nat) : PointValue → Bool
  | .infinity => false
  | .affine x _ => decide (x % d.n = r)

theorem accepts_iff {d : DP} {r : Nat} {v : PointValue} : accepts d r v = true ↔ ∃ x y, v = .affine x y ∧ x % d.n = r := by
  cases v with
  | infinity => simp [accepts]
  | affine x y => simp [accepts]

section
variable {d : DP} {e r s : Nat} {q : PointValue}

/-- R102 step 1. -/
theorem verify_of_badSignature (h : ¬ (1 ≤ r ∧ r < d.n ∧ 1 ≤ s ∧ s < d.n)) :
    verify d e q r s = .error .invalidSignatureRange := by
  refine if_pos ?_
  rw [← Bool.not_eq_true, ← Bool.not_eq_true, inScalarRange_iff, inScalarRange_iff]
  omega

section
variable (hr1 : 1 ≤ r) (hrn : r < d.n) (hs1 : 1 ≤ s) (hsn : s < d.n)
include hr1 hrn hs1 hsn

theorem signature_inRange : ¬ (inScalarRange d.n r = false ∨ inScalarRange d.n s = false) := by
  simp [inScalarRange_iff.mpr ⟨hr1, hrn⟩, inScalarRange_iff.mpr ⟨hs1, hsn⟩]

/-- R102: the public point. -/
theorem verify_of_badPoint (hq : q = .infinity ∨ onCurve d q = .ok false) : verify d e q r s = .error .pointNotOnCurve := by
  refine (if_neg (signature_inRange hr1 hrn hs1 hsn)).trans ?_
  cases q with
  | infinity => rfl
  | affine x y =>
    have hoff := hq.resolve_left nofun
    simp [hoff]

/-- R102 from step 2 on. -/
theorem verify_of_goodPoint (hq : q ≠ .infinity) (hon : onCurve d q = .ok true) : verify d e q r s = verifyPoints d e q r s := by
  refine (if_neg (signature_inRange hr1 hrn hs1 hsn)).trans ?_
  cases q with
  | infinity => exact absurd rfl hq
  | affine x y =>
    simp [hon]

end

/-- R102 steps 2 to 5: the answer is that of the sum `v`. -/
theorem verifyPoints_eq {w : Nat} {v1 v2 v : PointValue} (hr : r < d.n) (hw : finv d.n s = .ok w)
    (h1 : smul d (e % d.n * w % d.n) (basePoint d) = .ok v1) (h2 : smul d (r * w % d.n) q = .ok v2) (hv : padd d v1 v2 = .ok v) :
    verifyPoints d e q r s = .ok (accepts d r v) := by
  have hwn := finv_lt hw
  have he : e % d.n < d.n := Nat.mod_lt _ (by omega)
  simp only [verifyPoints, digestResidue, hw, fmul_of_lt he hwn, fmul_of_lt hr hwn, h1, h2, hv, ok_bind]
  cases v <;> rfl

/-- R102 steps 2 to 5 raise nothing: `s` has an inverse, and the points are on the curve. -/
theorem verifyPoints_total (hd : d.Valid) (e r : Nat) (hs1 : 1 ≤ s) (hsn : s < d.n) (hq : q.inRange d.p = true)
    (hon : onCurve d q = .ok true) :
    ∃ w v1 v2 v, finv d.n s = .ok w ∧ smul d (e % d.n * w % d.n) (basePoint d) = .ok v1 ∧ smul d (r * w % d.n) q = .ok v2 ∧
      padd d v1 v2 = .ok v := by
  have hlt : ∀ k, k % d.n < 2 ^ d.nb := fun k => (Nat.mod_lt k (by omega)).trans (n_lt_two_pow_nb d)
  obtain ⟨hG, hGon⟩ := basePoint_inRange_and_onCurve hd
  obtain ⟨v1, h1, -⟩ := smul_eq_multiple hd hG hGon (hlt (e % d.n * powMod d.n s (d.n - 2)))
  obtain ⟨v2, h2, -⟩ := smul_eq_multiple hd hq hon (hlt (r * powMod d.n s (d.n - 2)))
  obtain ⟨v, hv⟩ := padd_total hd.primeP hd.threeLtP hd.aLt (smul_inRange h1 hG) (smul_inRange h2 hq)
  exact ⟨_, v1, v2, v, finv_of_range hs1 hsn, h1, h2, hv⟩

/-- R99: `verify` looks at the digest modulo `n`. -/
theorem verify_congr {e' : Nat} (h : e' % d.n = e % d.n) (q : PointValue) (r s : Nat) : verify d e' q r s = verify d e q r s := by
  have hp : ∀ q, verifyPoints d e' q r s = verifyPoints d e q r s := fun q => by simp only [verifyPoints, digestResidue, h]
  simp only [verify, hp]

end

/-! ### What `SIGN` made, `VERIFY` accepts -/

/-- R69: the inverse of the unit modulo `n`. -/
theorem cast_finv {n a w : Nat} [Fact n.Prime] (h : finv n a = .ok w) : (w : ZMod n) * a = 1 := by
  obtain ⟨ha, h0, rfl⟩ := finv_eq_ok h
  have ha0 : (a : ZMod n) ≠ 0 := fun hz =>
    h0 (cast_inj_of_lt ha (by omega) (hz.trans Nat.cast_zero.symm))
  rw [cast_powMod ha h0, inv_mul_cancel₀ ha0]

/-- The equation of ECDSA (R106): with `s = k⁻¹ (e + sk·r)` and `w = s⁻¹`, the multiples `u1 = e·w` of `G` and `u2 = r·w` of
`sk·G` add up to `k`, modulo `n`. -/
theorem u1_add_u2_modEq {n e sk k r sig kinv w : Nat} (hn : n.Prime) (hk : finv n k = .ok kinv)
    (hsig : sig = kinv * ((e + sk * r) % n) % n) (hw : finv n sig = .ok w) :
    e * w % n + r * w % n * sk ≡ k [MOD n] := by
  have := Fact.mk hn
  have hk := cast_finv hk
  have hw := cast_finv hw
  have hs : (sig : ZMod n) = kinv * (e + sk * r) := by rw [hsig]; simp
  rw [← ZMod.natCast_eq_natCast_iff]
  push_cast [cast_mod]
  linear_combination -((e + sk * r : ZMod n) * w) * hk - (k * w : ZMod n) * hs + (k : ZMod n) * hw

section
variable {d : DP} [Fact d.p.Prime] (hd : d.Valid)
include hd

/-- Whatever `smul` answers for a point denotes the multiple (R93). -/
theorem denotes_of_smul {k : Nat} {v w : PointValue} {P : (curve d).Point} (hk : k < d.n) (hv : Denotes d v P)
    (h : smul d k v = .ok w) : Denotes d w (k • P) := by
  obtain ⟨u, hu, hU⟩ := smul_denotes hd (hk.trans (n_lt_two_pow_nb d)) hv
  cases h.symm.trans hu
  exact hU

/-- Whatever `padd` answers for two points denotes the sum (R87). -/
theorem denotes_of_padd {v w u : PointValue} {P Q : (curve d).Point} (hv : Denotes d v P) (hw : Denotes d w Q)
    (h : padd d v w = .ok u) : Denotes d u (P + Q) := by
  obtain ⟨u', hu, hU⟩ := padd_denotes hd hv hw
  cases h.symm.trans hu
  exact hU

end

/-- R106: `u1·G + u2·(sk·G)` is `k·G` when `u1 + u2·sk` is `k` modulo the order of `G`. -/
theorem padd_eq_smul_basePoint {d : DP} (hd : d.Valid) {k sk u1 u2 : Nat} {R q v1 v2 v : PointValue} (hk : k < d.n)
    (hsk : sk < d.n) (h1n : u1 < d.n) (h2n : u2 < d.n) (hmod : u1 + u2 * sk ≡ k [MOD d.n])
    (hR : smul d k (basePoint d) = .ok R) (hq : smul d sk (basePoint d) = .ok q) (h1 : smul d u1 (basePoint d) = .ok v1)
    (h2 : smul d u2 q = .ok v2) (hv : padd d v1 v2 = .ok v) : v = R := by
  have := Fact.mk hd.primeP
  obtain ⟨G, hG, -, hn⟩ := basePoint_denotes hd
  have hV := denotes_of_padd hd (denotes_of_smul hd h1n hG h1) (denotes_of_smul hd h2n (denotes_of_smul hd hsk hG hq) h2) hv
  have hsum : u1 • G + u2 • sk • G = k • G := calc
    u1 • G + u2 • sk • G = (u1 + u2 * sk) • G := by rw [add_nsmul, mul_nsmul']
    _ = ((u1 + u2 * sk) % d.n) • G := nsmul_eq_mod_nsmul _ hn
    _ = (k % d.n) • G := by rw [hmod]
    _ = k • G := (nsmul_eq_mod_nsmul k hn).symm
  rw [hsum] at hV
  exact hV.unique (denotes_of_smul hd hk hG hR)

/-- R106: `verify` accepts, for the public point of `sk`, what an attempt of `SIGN` made with `sk`. -/
theorem verify_of_signed {d : DP} (hd : d.Valid) {e sk k r sig : Nat} {q : PointValue} (hk : k < d.n) (hsk1 : 1 ≤ sk)
    (hsk : sk < d.n) (hq : smul d sk (basePoint d) = .ok q) (h : SignsWith d (e % d.n) sk k r sig) (hr : r ≠ 0) (hs : sig ≠ 0) :
    verify d e q r sig = .ok true := by
  obtain ⟨xR, yR, kinv, hR, hkinv, rfl, hsig⟩ := h
  have hrn : xR % d.n < d.n := Nat.mod_lt _ (by omega)
  have hsn : sig < d.n := hsig ▸ Nat.mod_lt _ (by omega)
  have hs1 : 1 ≤ sig := Nat.one_le_iff_ne_zero.mpr hs
  obtain ⟨x, y, hq', hon, hxp, hyp⟩ := smul_basePoint hd hsk1 hsk
  cases hq.symm.trans hq'
  obtain ⟨w, v1, v2, v, hw, h1, h2, hv⟩ :=
    verifyPoints_total hd e (xR % d.n) hs1 hsn ((inRange_affine _ _ _).mpr ⟨hxp, hyp⟩) hon
  obtain rfl : v = .affine xR yR := padd_eq_smul_basePoint hd hk hsk (Nat.mod_lt _ (by omega)) (Nat.mod_lt _ (by omega))
    (u1_add_u2_modEq hd.primeN hkinv hsig hw) hR hq h1 h2 hv
  rw [verify_of_goodPoint (q := .affine x y) (Nat.one_le_iff_ne_zero.mpr hr) hrn hs1 hsn nofun hon,
    verifyPoints_eq hrn hw h1 h2 hv, accepts_iff.mpr ⟨xR, yR, rfl, rfl⟩]

/-! ### Congruent digests -/

/-- What a computation of the block cannot come to: only the decoder finds a command illegal (R48, R112). -/
structure NeverIllegal {α : Type} (x : Except ErrorKind α) : Prop where
  ne : x ≠ .error .illegalCommand

theorem NeverIllegal.ok {α : Type} (a : α) : NeverIllegal (.ok a) := ⟨nofun⟩

theorem NeverIllegal.error {α : Type} {e : ErrorKind} (h : e ≠ .illegalCommand) : NeverIllegal (.error e : Except ErrorKind α) :=
  ⟨fun he => h (Except.error.inj he)⟩

theorem NeverIllegal.guard {α : Type} {p : Prop} [Decidable p] {e : ErrorKind} {x : Except ErrorKind α} (h : e ≠ .illegalCommand)
    (hx : NeverIllegal x) : NeverIllegal (if p then .error e else x) := by
  split
  · exact .error h
  · exact hx

theorem NeverIllegal.bind {α β : Type} {x : Except ErrorKind α} {f : α → Except ErrorKind β} (hx : NeverIllegal x)
    (hf : ∀ a, NeverIllegal (f a)) : NeverIllegal (x >>= f) := by
  cases x with
  | ok a => exact hf a
  | error e => exact .error fun he => hx.ne (congrArg Except.error he)

section
variable (d : DP) (m a b : Nat)

theorem fadd_neverIllegal : NeverIllegal (fadd m a b) := .guard nofun (.ok _)

theorem fsub_neverIllegal : NeverIllegal (fsub m a b) := .guard nofun (.ok _)

theorem fmul_neverIllegal : NeverIllegal (fmul m a b) := .guard nofun (.ok _)

theorem finv_neverIllegal : NeverIllegal (finv m a) := .guard nofun (.guard nofun (.ok _))

theorem onCurve_neverIllegal (v : PointValue) : NeverIllegal (onCurve d v) := by
  cases v with
  | infinity => exact .ok _
  | affine x y =>
    exact (fmul_neverIllegal ..).bind fun _ => (fmul_neverIllegal ..).bind fun _ => (fmul_neverIllegal ..).bind fun _ =>
      (fmul_neverIllegal ..).bind fun _ => (fadd_neverIllegal ..).bind fun _ => (fadd_neverIllegal ..).bind fun _ => .ok _

theorem pdbl_neverIllegal (v : PointValue) : NeverIllegal (pdbl d v) := by
  cases v with
  | infinity => exact .ok _
  | affine x y =>
    simp only [pdbl]
    split_ifs
    · exact .ok _
    · exact (fmul_neverIllegal ..).bind fun _ => (fmul_neverIllegal ..).bind fun _ => (fadd_neverIllegal ..).bind fun _ =>
        (fadd_neverIllegal ..).bind fun _ => (finv_neverIllegal ..).bind fun _ => (fmul_neverIllegal ..).bind fun _ =>
        (fmul_neverIllegal ..).bind fun _ => (fsub_neverIllegal ..).bind fun _ => (fsub_neverIllegal ..).bind fun _ =>
        (fsub_neverIllegal ..).bind fun _ => (fmul_neverIllegal ..).bind fun _ => (fsub_neverIllegal ..).bind fun _ => .ok _

theorem padd_neverIllegal (v w : PointValue) : NeverIllegal (padd d v w) := by
  cases v with
  | infinity => exact .ok _
  | affine x1 y1 =>
    cases w with
    | infinity => exact .ok _
    | affine x2 y2 =>
      simp only [padd]
      split_ifs
      · exact .ok _
      · exact pdbl_neverIllegal ..
      · exact (fsub_neverIllegal ..).bind fun _ => (fsub_neverIllegal ..).bind fun _ => (finv_neverIllegal ..).bind fun _ =>
          (fmul_neverIllegal ..).bind fun _ => (fmul_neverIllegal ..).bind fun _ => (fsub_neverIllegal ..).bind fun _ =>
          (fsub_neverIllegal ..).bind fun _ => (fsub_neverIllegal ..).bind fun _ => (fmul_neverIllegal ..).bind fun _ =>
          (fsub_neverIllegal ..).bind fun _ => .ok _

theorem smulLoop_neverIllegal (k : Nat) (v : PointValue) (i : Nat) (acc : PointValue) : NeverIllegal (smulLoop d k v i acc) := by
  induction i generalizing acc with
  | zero => exact .ok _
  | succ i ih =>
    refine (pdbl_neverIllegal ..).bind fun dbl => ?_
    split
    · exact (padd_neverIllegal ..).bind fun sum => ih sum
    · exact ih dbl

theorem smul_neverIllegal (k : Nat) (v : PointValue) : NeverIllegal (smul d k v) := by
  refine .guard nofun ?_
  split
  · exact .ok _
  · refine (onCurve_neverIllegal ..).bind fun on => ?_
    cases on with
    | true => exact smulLoop_neverIllegal ..
    | false => exact .error nofun

theorem verifyPoints_neverIllegal (e : Nat) (q : PointValue) (r s : Nat) : NeverIllegal (verifyPoints d e q r s) :=
  (finv_neverIllegal ..).bind fun _ => (fmul_neverIllegal ..).bind fun _ => (fmul_neverIllegal ..).bind fun _ =>
    (smul_neverIllegal ..).bind fun _ => (smul_neverIllegal ..).bind fun _ => (padd_neverIllegal ..).bind fun v => by
      cases v <;> exact .ok _

theorem verify_neverIllegal (e : Nat) (q : PointValue) (r s : Nat) : NeverIllegal (verify d e q r s) := by
  refine .guard nofun ?_
  cases q with
  | infinity => exact .error nofun
  | affine x y =>
    refine (onCurve_neverIllegal ..).bind fun on => ?_
    cases on with
    | true => exact verifyPoints_neverIllegal ..
    | false => exact .error nofun

end

/-- R114: a predicate command whose error is not `IllegalCommand` has the same `T` and `ERR` in all states in which it computes
the same. -/
theorem finish_predicate_flags {x : Except ErrorKind Bool} (hx : NeverIllegal x) (s s' : State) :
    ∃ t t', finish true s (x >>= fun b => .ok (s.setT b)) = .next t ∧ finish true s' (x >>= fun b => .ok (s'.setT b)) = .next t' ∧
      t'.t = t.t ∧ t'.err = t.err := by
  cases x with
  | ok b => exact ⟨_, _, rfl, rfl, rfl, rfl⟩
  | error e =>
    have he : e ≠ .illegalCommand := fun h => hx.ne (congrArg Except.error h)
    exact ⟨_, _, rfl, rfl, by simp [he], rfl⟩

/-- What is the same of two runs of `SIGN` from different states: `BUSY`, the answers left, `ERR` and the signature. -/
def SameSigning (rr rs : FReg) (t t' : State) : Prop :=
  t'.busy = t.busy ∧ t'.rng = t.rng ∧
    (t.busy = none → t'.err = t.err ∧ (t.err = 0 → t'.getF rr = t.getF rr ∧ t'.getF rs = t.getF rs))

theorem sameSigning_raise {rr rs : FReg} {s s' : State} (hr : s'.rng = s.rng) (e : ErrorKind) :
    SameSigning rr rs (s.raise false e) (s'.raise false e) :=
  ⟨rfl, hr, fun _ => ⟨rfl, fun h => absurd h raise_err_ne_zero⟩⟩

theorem finishDraws_sameSigning {rr rs : FReg} (hne : rr ≠ rs) (s s' : State) (c : Running) (r : RngResult (Nat × Nat)) :
    ∃ t t', finishDraws s c (writeSignature rr rs) r = .next t ∧ finishDraws s' c (writeSignature rr rs) r = .next t' ∧
      SameSigning rr rs t t' := by
  cases r with
  | done a rest =>
    refine ⟨_, _, rfl, rfl, rfl, rfl, fun _ => ⟨rfl, fun _ => ⟨?_, ?_⟩⟩⟩
    · rw [State.complete_getF, State.complete_getF, writeSignature_getF_r hne, writeSignature_getF_r hne]
    · rw [State.complete_getF, State.complete_getF, writeSignature_getF_s, writeSignature_getF_s]
  | failed e rest => exact ⟨_, _, rfl, rfl, sameSigning_raise (s := s.setRng rest) (s' := s'.setRng rest) rfl e⟩
  | waiting h => exact ⟨_, _, rfl, rfl, rfl, rfl, nofun⟩

theorem exec_sign_sameSigning {s s' : State} {rr rs re rd : FReg} (hc : s'.cfg = s.cfg) (hr : s'.rng = s.rng)
    (he : s'.getF re % s.cfg.dp.n = s.getF re % s.cfg.dp.n) (hd : s'.getF rd = s.getF rd) :
    ∃ t t', exec (.sign rr rs re rd) s = .next t ∧ exec (.sign rr rs re rd) s' = .next t' ∧ SameSigning rr rs t t' := by
  by_cases hne : rr = rs
  · subst hne
    exact ⟨_, _, exec_sign_same .., exec_sign_same .., sameSigning_raise hr _⟩
  by_cases hk : 1 ≤ s.getF rd ∧ s.getF rd < s.cfg.dp.n
  · rw [exec_sign hne hk.1 hk.2, exec_sign hne (hd ▸ hk.1) (by rw [hc, hd]; exact hk.2), hc, hr, he, hd]
    exact finishDraws_sameSigning hne ..
  · exact ⟨_, _, exec_sign_range hne hk, exec_sign_range hne (by rwa [hc, hd]), sameSigning_raise hr _⟩

end Sys2Proof.Machine

namespace Sys2Proof.Proofs

/-- Settles O39: `KEYGEN` without error leaves a scalar and its public point, `SIGN` without error leaves what one attempt made
with that scalar, and the sum that `VERIFY` computes is the point of that attempt. -/
theorem signedMessageVerifies : Obligations.SignedMessageVerifies := by
  unfold Obligations.SignedMessageVerifies
  intro g g' s t u kd rr rs re rd vr vs ve kq vq hv hg hgb hge hsc hsd hs htb hte huc hur hus hue huq
  obtain ⟨hk1, hkn, hq, -⟩ := (keygen_cases kd kq hv hg).resolve_right (by simp [hge, hgb, ErrorKind.code])
  obtain ⟨-, -, rest, hret⟩ := (sign_cases (hsc ▸ hv) hs).resolve_right (by simp [hte, htb, ErrorKind.code])
  obtain ⟨k, -, hkn', hsig, hr, hsg⟩ := hret.signed
  rw [hsc, hsd] at hsig
  rw [hsc] at hkn'
  refine answers_setT (exec_verify u vr vs ve vq) ?_
  rw [huc, hur, hus, hue, huq]
  exact verify_of_signed hv.dp hkn' hk1 hkn hq hsig hr hsg

/-- Settles O38: each premise picks the answer of one check, and past the checks nothing raises. -/
theorem verifyResult : Obligations.VerifyResult := by
  unfold Obligations.VerifyResult
  intro s rr rs re rq
  have hexec := exec_verify s rr rs re rq
  refine ⟨fun d => decodeEncode d (.verify rr rs re rq) rfl, fun hr => ?_, fun hr1 hrn hs1 hsn hq => ?_,
    fun hr1 hrn hs1 hsn hd hq hin hon => ?_⟩
  · exact raises_of_bind hexec (verify_of_badSignature hr)
  · exact raises_of_bind hexec (verify_of_badPoint hr1 hrn hs1 hsn hq)
  · obtain ⟨w, v1, v2, v, hw, h1, h2, hv⟩ := verifyPoints_total hd (s.getF re) (s.getF rr) hs1 hsn hin hon
    exact ⟨w, v1, v2, v, _, hw, h1, h2, hv, accepts_iff, answers_setT hexec
      ((verify_of_goodPoint hr1 hrn hs1 hsn hq hon).trans (verifyPoints_eq hrn hw h1 h2 hv))⟩

/-- Settles O40: both commands take the digest modulo `n` first; `VERIFY` clears `T` on each of its errors, none of which is
`IllegalCommand`. -/
theorem congruentDigestsAreAlike : Obligations.CongruentDigestsAreAlike := by
  unfold Obligations.CongruentDigestsAreAlike
  intro s s' rr rs re rd rq hc hr he
  refine ⟨fun hrr hrs hrq => ?_, exec_sign_sameSigning hc hr he⟩
  rw [exec_verify s, exec_verify s', hc, hrr, hrs, hrq, verify_congr he]
  exact finish_predicate_flags (verify_neverIllegal ..) s s'

end Sys2Proof.Proofs
end

section
/-! SUPPORT. Answers that come late (48_ecdsa.md, 60_exceptions.md, log 3): a command that starts is one that goes on with its hidden
registers zero, so what it comes to does not depend on where its answers were cut; and with these the statement about late
answers. -/

open Sys2Proof Sys2Proof.Machine

namespace Sys2Proof.Machine

/-- A legal command that draws starts as one that goes on with its hidden registers zero (R96). -/
theorem exec_instr_eq_resume {c : Running} (hc : c.instr.destinationsDiffer = true) (s : State) :
    exec c.instr s = resume c s.beginDraws := by
  cases c with
  | keygen rd rq => rfl
  | sign rr rs re rd => exact if_neg (of_decide_eq_true hc)

/-- A command that waits is a legal one: an illegal one has ended. -/
theorem legal_of_exec_busy {c : Running} {s u : State} (h : exec c.instr s = .next u) (hb : u.busy ≠ none) :
    c.instr.destinationsDiffer = true := by
  by_contra hc
  rw [exec_of_same_destinations (Bool.of_not_eq_true hc)] at h
  cases h
  exact hb rfl

/-- A result of the draws with another `TMP` while it waits. -/
def RngResult.retmp {α : Type} (x : Nat) : RngResult α → RngResult α
  | .waiting h => .waiting { h with tmp := x }
  | .done a rest => .done a rest
  | .failed e rest => .failed e rest

theorem rngLoop_retmp {α : Type} {c : Config} {att : Nat → Hidden → Except ErrorKind (Attempt α)}
    (hat : ∀ k h x, att k { h with tmp := x } = retmp x (att k h)) (a : List RngAnswer) (h : Hidden) (x : Nat) :
    rngLoop c att a { h with tmp := x } = (rngLoop c att a h).retmp x := by
  rw [rngLoop_tmp hat]
  cases rngLoop c att a h <;> rfl

/-- The state of a command that goes on with the answers `a`, whatever moves `env` are to come. -/
def State.withAnswers (s : State) (a : List RngAnswer) (env : List Event) : State := { s with rng := a, env := env }

/-- What a command waiting in `u` comes to with the answers `b`, it comes to from `s` with the answers `a ++ b` at hand. -/
def CutAfter (c : Running) (s u : State) (a : List RngAnswer) : Prop :=
  ∀ b env v, resume c (u.withAnswers b env) = .next v →
    ∃ w, resume c (s.withAnswers (a ++ b) env) = .next w ∧ w.upToFree = v.upToFree

/-- A command that draws and has not ended waits where the loop does. -/
theorem finishDraws_busy {α : Type} {c : Running} {write : State → α → State} {s u : State} {r : RngResult α}
    (h : finishDraws s c write r = .next u) (hb : u.busy ≠ none) : ∃ g, r = .waiting g ∧ u = s.wait c g := by
  obtain ⟨y, rest, -, rfl⟩ | ⟨e, rest, -, rfl⟩ | hw := finishDraws_cases h
  · exact absurd rfl hb
  · exact absurd rfl hb
  · exact hw

/-- `s` as a command that has waited leaves it, with the answers `b` then at hand. -/
def State.waited (s : State) (c : Running) (g : Hidden) (b : List RngAnswer) : State :=
  { s with busy := some c, hid := { g with tmp := Config.freeTmp s.freeCtr }, rng := b, freeCtr := s.freeCtr + 1 }

theorem writeKeyPair_waited (rd : FReg) (rq : PReg) (s : State) (c : Running) (g : Hidden) (b rest : List RngAnswer)
    (y : Nat × PointValue) : (writeKeyPair rd rq ((s.waited c g b).setRng rest) y).complete.upToFree =
      (writeKeyPair rd rq (s.setRng rest) y).complete.upToFree := rfl

theorem writeSignature_waited (rr rs : FReg) (s : State) (c : Running) (g : Hidden) (b rest : List RngAnswer) (y : Nat × Nat) :
    (writeSignature rr rs ((s.waited c g b).setRng rest) y).complete.upToFree =
      (writeSignature rr rs (s.setRng rest) y).complete.upToFree := rfl

/-- The loop waited after `a`; what it comes to with `b` it comes to with `a ++ b`, if the writes look at neither `TMP` nor the count
of free values. -/
theorem finishDraws_late {α : Type} {c : Running} {write : State → α → State}
    {att : Nat → Hidden → Except ErrorKind (Attempt α)} (hat : ∀ k h x, att k { h with tmp := x } = retmp x (att k h))
    {s v : State} {a b : List RngAnswer} {h g : Hidden}
    (hw : ∀ rest y, (write ((s.waited c g b).setRng rest) y).complete.upToFree = (write (s.setRng rest) y).complete.upToFree)
    (ha : rngLoop s.cfg att a h = .waiting g)
    (hv : finishDraws (s.waited c g b) c write (rngLoop s.cfg att b { g with tmp := Config.freeTmp s.freeCtr }) = .next v) :
    ∃ w, finishDraws s c write (rngLoop s.cfg att (a ++ b) h) = .next w ∧ w.upToFree = v.upToFree := by
  rw [rngLoop_retmp hat, ← rngLoop_append att ha] at hv
  revert hv
  cases rngLoop s.cfg att (a ++ b) h with
  | done y rest => rintro ⟨⟩; exact ⟨_, rfl, (hw rest y).symm⟩
  | failed e rest => rintro ⟨⟩; exact ⟨_, rfl, rfl⟩
  | waiting g' => rintro ⟨⟩; exact ⟨_, rfl, rfl⟩

/-- R100: a signing key in range goes on to the draws. -/
theorem resume_sign_inRange (s : State) (rr rs re : FReg) {rd : FReg} (h : inScalarRange s.cfg.dp.n (s.getF rd) = true) :
    resume (.sign rr rs re rd) s = finishDraws s (.sign rr rs re rd) (writeSignature rr rs)
      (rngLoop s.cfg (signAttempt s.cfg.dp (digestResidue s.cfg.dp.n (s.getF re)) (s.getF rd)) s.rng s.hid) :=
  if_neg (ne_false_of_eq_true h)

/-- R96, R120: a command that waits after the answers `a` may get the others late. -/
theorem resume_cutAfter {c : Running} {s u : State} {a : List RngAnswer} {env : List Event}
    (h : resume c (s.withAnswers a env) = .next u) (hb : u.busy ≠ none) : CutAfter c s u a := by
  intro b env' v hv
  cases c with
  | keygen rd rq =>
    obtain ⟨g, hg, rfl⟩ := finishDraws_busy h hb
    exact finishDraws_late (keygenAttempt_tmp _) (s := s.withAnswers (a ++ b) env') (writeKeyPair_waited rd rq _ _ _ _) hg hv
  | sign rr rs re rd =>
    have hr : inScalarRange s.cfg.dp.n (s.getF rd) = true := by
      by_contra hr
      cases (if_pos (Bool.of_not_eq_true hr)).symm.trans h
      exact hb rfl
    obtain ⟨g, hg, rfl⟩ := finishDraws_busy ((resume_sign_inRange (s.withAnswers a env) rr rs re hr).symm.trans h) hb
    have hv := (resume_sign_inRange ((s.withAnswers (a ++ b) env').waited _ g b) rr rs re hr).symm.trans hv
    obtain ⟨w, hw, hwv⟩ := finishDraws_late (signAttempt_tmp _ _ _) (s := s.withAnswers (a ++ b) env')
      (writeSignature_waited rr rs _ _ _ _) hg hv
    exact ⟨w, (resume_sign_inRange (s.withAnswers (a ++ b) env') rr rs re hr).trans hw, hwv⟩

/-- A step that brings an answer to a waiting command, which has none left. -/
theorem step_rngAnswer {s : State} {c : Running} {x : RngAnswer} {rest : List Event} (hb : s.busy = some c) (hr : s.rng = []) :
    step { s with env := .rngAnswer x :: rest } = resume c (s.withAnswers [x] rest) := by
  obtain ⟨-, -, goesOn, -⟩ := Proofs.stepRunsTheDecodedWord
  have h := goesOn { s with env := .rngAnswer x :: rest } c x rest hb rfl
  simpa [State.withAnswers, State.deliver, State.setEnv, hr] using h

end Sys2Proof.Machine

namespace Sys2Proof.Proofs

/-- Settles O43: the answers are read one after the other, so a list of them may be cut anywhere; a step brings a list of one. -/
theorem lateAnswersMakeNoDifference : Obligations.LateAnswersMakeNoDifference := by
  unfold Obligations.LateAnswersMakeNoDifference
  intro s u c a h hb
  have hbusy : u.busy ≠ none := by simp [hb]
  have hc := legal_of_exec_busy h hbusy
  obtain ⟨_, -, hw⟩ := (exec_cases h).waits hbusy
  have henv : u.env = s.env := hw.unchanged.moves
  rw [exec_instr_eq_resume hc] at h
  have hcut : CutAfter c s.beginDraws u a := resume_cutAfter (env := s.env) h hbusy
  refine ⟨fun b v hv => ?_, fun x rest v hv => ?_⟩
  · rw [exec_instr_eq_resume hc]
    exact hcut b s.env v (henv ▸ hv)
  · rw [exec_instr_eq_resume hc]
    exact hcut [x] rest v (step_rngAnswer hb hw.answers ▸ hv)

end Sys2Proof.Proofs
end

section
/-! SUPPORT. How a command ends (60_exceptions.md): an ending with `BUSY = 0` wipes and shows a code, an error writes nothing, and
which errors each function can answer on operands a reachable state holds; and with these the statements about errors. -/

open Sys2Proof Sys2Proof.Machine

namespace Sys2Proof.Machine

/-! ### Endings with `BUSY = 0` -/

section
variable {i : Instr} {s t : State} (h : Ending i s t) (hb : t.busy = none)
include h hb

/-- R114: completing and raising both wipe, and show 0 or the code of the error. -/
theorem Ending.ended : Ended t 0 ∨ ∃ e : ErrorKind, Ended t e.code := by
  cases h with
  | completed _ _ _ _ _ => exact .inl (ended_complete _)
  | raised _ _ => exact .inr ⟨_, ended_raise _ _ _⟩
  | waiting _ => cases hb

/-- R104. -/
theorem Ending.wiped : t.hid = Hidden.zero :=
  (h.ended hb).elim (fun hend => hend.hid) fun ⟨_, hend⟩ => hend.hid

/-- R111: 0 is no error's code, so the code of an error is that of the one raised. -/
theorem Ending.eq_raise {e : ErrorKind} (he : t.err = e.code) : ∃ rest, t = (s.setRng rest).raise (isPredicate i) e := by
  cases h with
  | completed _ _ _ _ _ => exact absurd he.symm (code_ne_zero e)
  | @raised e' rest _ _ =>
    obtain rfl : e' = e := code_injective he
    exact ⟨rest, rfl⟩
  | waiting _ => cases hb

end

/-! ### The errors a function can answer -/

/-- A function of one check has one error. -/
theorem eq_of_guard_error {α : Type} {p : Prop} [Decidable p] {e e' : ErrorKind} {x : α}
    (h : (if p then .error e' else .ok x) = (.error e : Except ErrorKind α)) : e = e' := by
  split at h
  · exact (Except.error.inj h).symm
  · cases h

section
variable {m a b : Nat} {e : ErrorKind}

theorem fadd_error (h : fadd m a b = .error e) : e = .outOfRangeInput := eq_of_guard_error h

theorem fsub_error (h : fsub m a b = .error e) : e = .outOfRangeInput := eq_of_guard_error h

theorem fneg_error (h : fneg m a = .error e) : e = .outOfRangeInput := eq_of_guard_error h

theorem feq_error (h : feq m a b = .error e) : e = .outOfRangeInput := eq_of_guard_error h

theorem fmul_error (h : fmul m a b = .error e) : e = .outOfRangeInput := eq_of_guard_error h

theorem finv_error (h : finv m a = .error e) : e = .outOfRangeInput ∨ e = .notInvertible := by
  rw [finv] at h
  split at h
  · exact .inl (Except.error.inj h).symm
  · exact .inr (eq_of_guard_error h)

end

section
variable {d : DP} (hd : d.Valid) {e : ErrorKind}
include hd

/-- R90: past the range and the curve test the loop raises nothing. -/
theorem smul_error {k : Nat} {v : PointValue} (hv : v.inRange d.p = true) (h : smul d k v = .error e) :
    e = .outOfRangeInput ∨ e = .pointNotOnCurve := by
  by_cases hk : 2 ^ d.nb ≤ k
  · exact .inl (Except.error.inj ((smul_of_outOfRange hk).symm.trans h)).symm
  rw [Nat.not_le] at hk
  by_cases h0 : k = 0
  · cases (smul_zero d v).symm.trans (h0 ▸ h)
  obtain ⟨on, hon⟩ := onCurve_total hd hv
  cases on with
  | false => exact .inr (Except.error.inj ((smul_of_offCurve hk h0 hon).symm.trans h)).symm
  | true =>
    obtain ⟨w, hw, -⟩ := smul_eq_multiple hd hv hon hk
    cases hw.symm.trans h

/-- R102: past the range of the signature and the public point nothing raises. -/
theorem verify_error {digest r s : Nat} {q : PointValue} (hq : q.inRange d.p = true) (h : verify d digest q r s = .error e) :
    e = .invalidSignatureRange ∨ e = .pointNotOnCurve := by
  by_cases hrs : 1 ≤ r ∧ r < d.n ∧ 1 ≤ s ∧ s < d.n
  · obtain ⟨hr1, hrn, hs1, hsn⟩ := hrs
    obtain ⟨on, hon⟩ := onCurve_total hd hq
    by_cases hbad : q = .infinity ∨ onCurve d q = .ok false
    · exact .inr (Except.error.inj ((verify_of_badPoint hr1 hrn hs1 hsn hbad).symm.trans h)).symm
    · obtain ⟨hinf, hoff⟩ := not_or.mp hbad
      cases on with
      | false => exact absurd hon hoff
      | true =>
        obtain ⟨w, v1, v2, v, hw, h1, h2, hv⟩ := verifyPoints_total hd digest r hs1 hsn hq hon
        cases ((verify_of_goodPoint hr1 hrn hs1 hsn hinf hon).trans (verifyPoints_eq hrn hw h1 h2 hv)).symm.trans h
  · exact .inl (Except.error.inj ((verify_of_badSignature hrs).symm.trans h)).symm

end

/-! ### The errors a command can end with -/

section
variable {s t : State} {e : ErrorKind}

/-- R114: a command that ends with the code of `e` has computed the error `e`. -/
theorem finish_err {pred : Bool} {r : Except ErrorKind State} (h : finish pred s r = .next t) (he : t.err = e.code) :
    r = .error e := by
  obtain ⟨u, -, rfl⟩ | ⟨e', rfl, rfl⟩ := finish_cases h
  · exact absurd he.symm (code_ne_zero e)
  · rw [code_injective he]

/-- As `finish_err`, of a command that writes the value of one function. -/
theorem finish_bind_err {α : Type} {pred : Bool} {x : Except ErrorKind α} {write : α → State}
    (h : finish pred s (x >>= fun v => .ok (write v)) = .next t) (he : t.err = e.code) : x = .error e := by
  have hx := finish_err h he
  cases x with
  | ok v => cases hx
  | error e' => exact congrArg Except.error (Except.error.inj hx)

/-- A function that answers leaves no error. -/
theorem finish_bind_total {α : Type} {pred : Bool} {x : Except ErrorKind α} {write : α → State} (hx : ∃ v, x = .ok v)
    (h : finish pred s (x >>= fun v => .ok (write v)) = .next t) (he : t.err = e.code) : False := by
  obtain ⟨v, hv⟩ := hx
  cases hv.symm.trans (finish_bind_err h he)

/-- A command that has completed shows no error. -/
theorem complete_err_ne_code : s.complete.err ≠ e.code := (code_ne_zero e).symm

theorem eq_of_raise_err {pred : Bool} {e' : ErrorKind} (he : (s.raise pred e').err = e.code) : e = e' :=
  code_injective (Eq.symm he)

section
variable {m : Modulus} {off : Offset}

theorem execFld_err {rd : FReg} (hf : s.fits off (s.cfg.dp.fieldLen m) = true) (h : execFld m rd off s = .next t)
    (he : t.err = e.code) : m = .p ∧ e = .outOfRangeInput := by
  by_cases hr : m = .p ∧ s.cfg.dp.p ≤ s.load (effectiveAddress off) (s.cfg.dp.fieldLen m)
  · cases (execFld_range rd hf hr).symm.trans h
    exact ⟨hr.1, eq_of_raise_err he⟩
  · cases (execFld_done rd hf hr).symm.trans h
    exact absurd he complete_err_ne_code

theorem execFst_err {rs : FReg} (hf : s.fits off (s.cfg.dp.fieldLen m) = true) (h : execFst m rs off s = .next t)
    (he : t.err = e.code) : e = .outOfRangeInput := by
  rcases Nat.lt_or_ge (s.getF rs) (if m = .p then s.cfg.dp.p else 2 ^ (8 * s.cfg.dp.ln)) with hr | hr
  · cases (execFst_done rs hf hr).symm.trans h
    exact absurd he complete_err_ne_code
  · cases (execFst_range rs hf hr).symm.trans h
    exact eq_of_raise_err he

theorem execPld_err {rd : PReg} (hf : s.fits off s.cfg.dp.pointLen = true) (h : execPld rd off s = .next t)
    (he : t.err = e.code) : e = .outOfRangeInput := by
  by_cases hr : s.cfg.dp.p ≤ s.load (effectiveAddress off) s.cfg.dp.lp ∨
    s.cfg.dp.p ≤ s.load (effectiveAddress off + s.cfg.dp.lp) s.cfg.dp.lp
  · cases (execPld_range rd hf hr).symm.trans h
    exact eq_of_raise_err he
  · rw [not_or, Nat.not_le, Nat.not_le] at hr
    cases (execPld_done rd hf hr.1 hr.2).symm.trans h
    exact absurd he complete_err_ne_code

theorem execPst_err {rs : PReg} (hf : s.fits off s.cfg.dp.pointLen = true) (h : execPst rs off s = .next t)
    (he : t.err = e.code) : e = .noValidEncoding := by
  cases hp : s.getP rs with
  | infinity =>
    cases (execPst_infinity hf hp).symm.trans h
    exact eq_of_raise_err he
  | affine x y =>
    cases (execPst_done hf hp).symm.trans h
    exact absurd he complete_err_ne_code

end

/-- R112, row by row. -/
theorem exec_err_listed {i : Instr} (hv : s.cfg.Valid) (hs : s.Inv) (hwf : i.wellFormed s.cfg.dp = true)
    (h : exec i s = .next t) (hb : t.busy = none) (he : t.err = e.code) : e ∈ possibleErrors i := by
  have hd := hv.dp
  have hfit := (wellFormed_iff.mp hwf).2
  cases i with
  | fadd m rd ra rb => exact List.mem_singleton.mpr (fadd_error (finish_bind_err h he))
  | fsub m rd ra rb => exact List.mem_singleton.mpr (fsub_error (finish_bind_err h he))
  | fneg m rd ra => exact List.mem_singleton.mpr (fneg_error (finish_bind_err h he))
  | feq m ra rb => exact List.mem_singleton.mpr (feq_error (finish_bind_err h he))
  | fmul m rd ra rb => exact List.mem_singleton.mpr (fmul_error (finish_bind_err h he))
  | finv m rd ra => exact List.mem_pair.mpr (finv_error (finish_bind_err h he))
  | fld m rd off =>
    obtain ⟨rfl, rfl⟩ := execFld_err hfit h he
    exact List.mem_singleton.mpr rfl
  | fst m rs off => exact List.mem_singleton.mpr (execFst_err hfit h he)
  | pld rd off => exact List.mem_singleton.mpr (execPld_err hfit h he)
  | pst rs off => exact List.mem_singleton.mpr (execPst_err hfit h he)
  | pinf rd => cases h; exact absurd he complete_err_ne_code
  | pisinf ra => cases h; exact absurd he complete_err_ne_code
  | ponc ra => exact (finish_bind_total (onCurve_total hd (hs.points ra)) h he).elim
  | pneg rd ra => exact (finish_bind_total (pneg_total (hs.points ra)) h he).elim
  | pdbl rd ra => exact (finish_bind_total (pdbl_total hd.primeP hd.threeLtP hd.aLt (hs.points ra)) h he).elim
  | padd rd ra rb =>
    exact (finish_bind_total (padd_total hd.primeP hd.threeLtP hd.aLt (hs.points ra) (hs.points rb)) h he).elim
  | smul rd ra rk => exact List.mem_pair.mpr (smul_error hd (hs.points ra) (finish_bind_err h he))
  | keygen rd rq =>
    obtain ⟨-, -, -, h0⟩ | hx | hw := keygen_cases rd rq hv h
    · exact absurd (he.symm.trans h0) (code_ne_zero e)
    · exact List.mem_singleton.mpr (code_injective (he.symm.trans hx))
    · exact absurd hb hw
  | sign rr rs re rd =>
    obtain ⟨-, h0, -⟩ | ⟨hsame, -⟩ | hx | hx | hw := sign_cases hv h
    · exact absurd (he.symm.trans h0) (code_ne_zero e)
    · exact absurd hsame (sign_wellFormed_iff.mp hwf)
    · exact List.mem_pair.mpr (.inl (code_injective (he.symm.trans hx)))
    · exact List.mem_pair.mpr (.inr (code_injective (he.symm.trans hx)))
    · exact absurd hb hw
  | verify rr rs re rq => exact List.mem_pair.mpr (verify_error hd (hs.points rq) (finish_bind_err h he))
  | wipe rd => cases h; exact absurd he complete_err_ne_code

end

end Sys2Proof.Machine

namespace Sys2Proof.Proofs

/-- Settles O44: of the ways a command can end, started or resumed, only waiting leaves a hidden register. -/
theorem secretsAreWiped : Obligations.SecretsAreWiped := by
  unfold Obligations.SecretsAreWiped
  exact ⟨fun i s t h hb => (exec_cases h).wiped hb, fun c s t h hb => (resume_cases h).wiped hb⟩

/-- Settles O45: every command answers a next state, and an ending with `BUSY = 1` is waiting. -/
theorem everyCommandEndsOrWaits : Obligations.EveryCommandEndsOrWaits := by
  unfold Obligations.EveryCommandEndsOrWaits
  intro i s
  obtain ⟨t, h⟩ := exec_total i s
  by_cases hb : t.busy = none
  · exact ⟨t, h, .inl hb⟩
  · exact ⟨t, h, .inr ((exec_cases h).waits hb)⟩

/-- Settles O46: a code that is not 0 was shown by raising, which writes what R114 lists. -/
theorem erroringCommandWritesNothing : Obligations.ErroringCommandWritesNothing := by
  unfold Obligations.ErroringCommandWritesNothing
  intro i s t h hb
  refine ⟨(exec_cases h).ended hb, fun e he => ?_⟩
  obtain ⟨rest, rfl⟩ := (exec_cases h).eq_raise hb he
  exact ⟨ended_raise _ _ _, unchanged_setRng_raise s rest _ e, by simp⟩

/-- Settles O48: the error is one of the command's functions, which on a valid constant table and points in range have those of the
table. -/
theorem onlyListedErrors : Obligations.OnlyListedErrors := by
  unfold Obligations.OnlyListedErrors
  exact fun i s t e hv hs hwf h hb he => exec_err_listed hv hs hwf h hb he

end Sys2Proof.Proofs
end

section
/-! SUPPORT. The words written out in 95_test_vectors.md section 3. -/

open Sys2Proof Sys2Proof.Machine

namespace Sys2Proof.Proofs

/-- Settles O4: a legal word is the encoding of its command, which lies inside the buffer of `P256`; an illegal one fails at the
step of R48 that the table names. -/
theorem writtenOutWords : Obligations.WrittenOutWords := by
  unfold Obligations.WrittenOutWords
  decide

end Sys2Proof.Proofs
end
